-- ==== Sys2Proof/Word.lean ====
section
/-! DEFINITION. The word types of the bus interface. Widths: 20_memory.md R50 and R51, 30_encoding.md R71. -/

namespace Sys2Proof

/-- One byte of data, `DATA_WIDTH` = 8 (20_memory.md R51). -/
abbrev Byte := BitVec 8

/-- One bus address, `ADDR_WIDTH` = 16 (20_memory.md R50). -/
abbrev Addr := BitVec 16

/-- One bus transaction word of format BT, 25 bits (30_encoding.md R71). -/
abbrev BusWord := BitVec 25

end Sys2Proof
end

