-- ==== Sys2Proof/Config.lean ====
section
/-! DEFINITION. The implementation parameters of 00_scope.md R6 and the free values the spec leaves open. A configuration is
held in the state, and no instruction writes it, so a statement over every state is a statement over every configuration. -/

namespace Sys2Proof

/-- The two time bases of `TIME_BASE` (00_scope.md R6, decision D11). -/
inductive TimeBase where
  /-- The default: `endFrame` changes no field. -/
  | cumulative
  /-- `endFrame` sets `elapsedTime`, and the partitioner's `now`, to 0 after the record. -/
  | perFrame
deriving DecidableEq, Repr

/-- The parameters of 00_scope.md R6 that a rule reads. Addresses and sizes are natural numbers; the constraints on them are
those of R7 (`Config.Valid`). -/
structure Config where
  psP1Base : Nat
  psP2Base : Nat
  psSawBase : Nat
  pmP1Base : Nat
  pmP2Base : Nat
  pmMulLo : Nat
  pmMulHi : Nat
  pmAuxBase : Nat
  pmAuxSize : Nat
  chPsP1 : Nat
  chPsP2 : Nat
  chPsSaw : Nat
  chPmP1 : Nat
  chPmP2 : Nat
  timeBase : TimeBase
deriving DecidableEq, Repr

/-- The default values of 00_scope.md R6. The five channel identifiers are OPEN there: 0 to 4 is a DESIGN CHOICE, unsafe
(log 5). The addresses are the spec's defaults, PRESUMED by the spec from general knowledge, unsafe (log 4). -/
def Config.default : Config where
  psP1Base := 0x9000
  psP2Base := 0xA000
  psSawBase := 0xB000
  pmP1Base := 0x5000
  pmP2Base := 0x5004
  pmMulLo := 0x5205
  pmMulHi := 0x5206
  pmAuxBase := 0x5C00
  pmAuxSize := 1024
  chPsP1 := 0
  chPsP2 := 1
  chPsSaw := 2
  chPmP1 := 3
  chPmP2 := 4
  timeBase := .cumulative

/-- `AUX_INIT`, a free value: what byte `i` of the auxiliary memory holds at construction (00_scope.md R6, decision D8). -/
opaque Config.auxInit : Nat → Byte

/-- `FANOUT_ORDER`, a free value: the code of the order drawn by the `n`-th fanned-out call (40_framework.md R124, decision
D15). `Machine.arrange` reads a code as a permutation, and every permutation has a code. -/
opaque Config.fanoutOrder : Nat → Nat

/-- `MASTER_CLOCK_HZ`, a free value that no rule reads (00_scope.md R6, decision D27). -/
opaque Config.masterClockHz : Nat

end Sys2Proof
end

