-- ==== Sys2Proof/Syntax.lean ====
section
/-! DEFINITION. What the driver can say: the instructions (one constructor per row of opcode_table.json), the commands that
encode them (30_encoding.md R70 to R72, R86, R89), and the abstract form of the assembler lines of R85 to R88. -/

namespace Sys2Proof

/-- The two chips of 00_scope.md R1. -/
inductive Chip where
  | pulseSaw
  | pulseMul
deriving DecidableEq, Repr

/-- The four PulseOscillators: `p1` and `p2` of a PulseSawChip (10_state.md R33), `p1` and `p2` of a PulseMulChip (R34). -/
inductive PulseId where
  | psP1
  | psP2
  | pmP1
  | pmP2
deriving DecidableEq, Repr

/-- The five oscillators: the four pulses and the sawtooth of the PulseSawChip. -/
inductive OscId where
  | pulse (k : PulseId)
  | saw
deriving DecidableEq, Repr

/-- The instructions: one constructor per row of opcode_table.json, in the table's order. A register write keeps its whole
data byte, ignored bits included; `Operands.lean` reads its fields. The `V` of a read word is ignored (30_encoding.md R71) and
not kept. -/
inductive Instr where
  /-- P1_CTRL: PulseSawChip pulse 1, register 0 (41_pulse.md R130). -/
  | p1Ctrl (value : Byte)
  /-- P1_FREQ_LO: PulseSawChip pulse 1, register 1 (R131). -/
  | p1FreqLo (value : Byte)
  /-- P1_FREQ_HI: PulseSawChip pulse 1, register 2 (R132). -/
  | p1FreqHi (value : Byte)
  /-- P2_CTRL: PulseSawChip pulse 2, register 0 (R130). -/
  | p2Ctrl (value : Byte)
  /-- P2_FREQ_LO: PulseSawChip pulse 2, register 1 (R131). -/
  | p2FreqLo (value : Byte)
  /-- P2_FREQ_HI: PulseSawChip pulse 2, register 2 (R132). -/
  | p2FreqHi (value : Byte)
  /-- SAW_RATE: sawtooth register 0 (42_sawtooth.md R160). -/
  | sawRate (value : Byte)
  /-- SAW_FREQ_LO: sawtooth register 1 (R161). -/
  | sawFreqLo (value : Byte)
  /-- SAW_FREQ_HI: sawtooth register 2 (R162). -/
  | sawFreqHi (value : Byte)
  /-- PS_WRITE_UNMAPPED: a PulseSawChip write at an address it does not decode (43_pulsesaw_chip.md R191). -/
  | psWriteUnmapped (addr : Addr) (value : Byte)
  /-- PS_READ: a PulseSawChip read at any address (R192). -/
  | psRead (addr : Addr)
  /-- M1_CTRL: PulseMulChip pulse 1, register 0 (R130). -/
  | m1Ctrl (value : Byte)
  /-- M1_FREQ_LO: PulseMulChip pulse 1, register 1 (R131). -/
  | m1FreqLo (value : Byte)
  /-- M1_FREQ_HI: PulseMulChip pulse 1, register 2 (R132). -/
  | m1FreqHi (value : Byte)
  /-- M2_CTRL: PulseMulChip pulse 2, register 0 (R130). -/
  | m2Ctrl (value : Byte)
  /-- M2_FREQ_LO: PulseMulChip pulse 2, register 1 (R131). -/
  | m2FreqLo (value : Byte)
  /-- M2_FREQ_HI: PulseMulChip pulse 2, register 2 (R132). -/
  | m2FreqHi (value : Byte)
  /-- MUL_A: write of operand A at `PM_MUL_LO` (44_pulsemul_chip.md R212). -/
  | mulA (value : Byte)
  /-- MUL_B: write of operand B at `PM_MUL_HI` (R212). -/
  | mulB (value : Byte)
  /-- AUX_WRITE: store to byte `index` of the auxiliary memory (R213). -/
  | auxWrite (index : Nat) (value : Byte)
  /-- PM_WRITE_UNMAPPED: a PulseMulChip write at an address it does not decode (R211). -/
  | pmWriteUnmapped (addr : Addr) (value : Byte)
  /-- MUL_LO_READ: product low byte (R215). -/
  | mulLoRead
  /-- MUL_HI_READ: product high byte (R216). -/
  | mulHiRead
  /-- AUX_READ: load from byte `index` of the auxiliary memory (R217). -/
  | auxRead (index : Nat)
  /-- PM_READ_UNMAPPED: a PulseMulChip read at an address it does not map for reads (R214). -/
  | pmReadUnmapped (addr : Addr)
  /-- PS_PROCESS: `process(delta)` on the PulseSawChip (43_pulsesaw_chip.md R193). -/
  | psProcess (delta : Nat)
  /-- PS_RESET: `reset()` on the PulseSawChip (R194). -/
  | psReset
  /-- PS_ENDFRAME: `endFrame()` on the PulseSawChip (R195). -/
  | psEndFrame
  /-- PM_PROCESS: `process(delta)` on the PulseMulChip (44_pulsemul_chip.md R218). -/
  | pmProcess (delta : Nat)
  /-- PM_RESET: `reset()` on the PulseMulChip (R220). -/
  | pmReset
  /-- PM_ENDFRAME: `endFrame()` on the PulseMulChip (R219). -/
  | pmEndFrame
  /-- W: partitioner write at `time` (40_framework.md R115). -/
  | w (chip : Chip) (time : Nat) (addr : Addr) (value : Byte)
  /-- EF: partitioner end of frame at `time` (R116). -/
  | ef (chip : Chip) (time : Nat)
  /-- R: partitioner read at `time` (R117). -/
  | r (chip : Chip) (time : Nat) (addr : Addr)
  /-- RST: partitioner reset (R118). -/
  | rst (chip : Chip)
  /-- PULSE_WRITE_OTHER: `write(index, value)` on a pulse, `index` not 0, 1 or 2 (41_pulse.md R133). -/
  | pulseWriteOther (osc : PulseId) (index : Nat) (value : Byte)
  /-- PULSE_PROCESS: `process(delta)` on a pulse (R134). -/
  | pulseProcess (osc : PulseId) (delta : Nat)
  /-- PULSE_RESET: `reset()` on a pulse (R135). -/
  | pulseReset (osc : PulseId)
  /-- PULSE_ENDFRAME: `endFrame()` on a pulse (R136). -/
  | pulseEndFrame (osc : PulseId)
  /-- SAW_WRITE_OTHER: `write(index, value)` on the sawtooth, `index` not 0, 1 or 2 (42_sawtooth.md R163). -/
  | sawWriteOther (index : Nat) (value : Byte)
  /-- SAW_PROCESS: `process(delta)` on the sawtooth (R164). -/
  | sawProcess (delta : Nat)
  /-- SAW_RESET: `reset()` on the sawtooth (R165). -/
  | sawReset
  /-- SAW_ENDFRAME: `endFrame()` on the sawtooth (R166). -/
  | sawEndFrame
deriving DecidableEq, Repr

/-- One command of the driver's list (30_encoding.md R70). The operand types are wider than the interface's own (an integer
delta, unbounded words, addresses and bytes), so that the inputs 60_exceptions.md R241 refuses as NegativeDelta and
ValueOutOfRange can be written down (log 14). -/
inductive Command where
  /-- Format BT: a bus transaction word (R71) on `chip`'s bus. -/
  | bus (chip : Chip) (word : Nat)
  /-- Format CTL: `PROCESS(delta)` (R72). -/
  | process (chip : Chip) (delta : Int)
  /-- Format CTL: `RESET` (R72). -/
  | reset (chip : Chip)
  /-- Format CTL: `ENDFRAME` (R72). -/
  | endFrame (chip : Chip)
  /-- Format PART: `@time W addr, value` (R86). -/
  | partWrite (chip : Chip) (time : Nat) (addr : Nat) (value : Nat)
  /-- Format PART: `@time R addr` (R86). -/
  | partRead (chip : Chip) (time : Nat) (addr : Nat)
  /-- Format PART: `@time EF` (R86). -/
  | partEndFrame (chip : Chip) (time : Nat)
  /-- Format PART: `RST` (R86). -/
  | partReset (chip : Chip)
  /-- Format OSC: `write(index, value)` on one oscillator (40_framework.md R100). -/
  | oscWrite (osc : OscId) (index : Nat) (value : Nat)
  /-- Format OSC: `process(delta)` on one oscillator (R100). -/
  | oscProcess (osc : OscId) (delta : Int)
  /-- Format OSC: `reset()` on one oscillator (R100). -/
  | oscReset (osc : OscId)
  /-- Format OSC: `endFrame()` on one oscillator (R100). -/
  | oscEndFrame (osc : OscId)
deriving DecidableEq, Repr

/-- Why a command is no instruction (60_exceptions.md R241). -/
inductive Rejection where
  /-- `PROCESS(d)` with `d < 0`. -/
  | negativeDelta
  /-- A word over 25 bits, an address over 16 bits or a data value over 8 bits. -/
  | valueOutOfRange
deriving DecidableEq, Repr

/-- The register names of 30_encoding.md R87. -/
inductive RegName where
  /-- `P1.CTRL`, `P2.CTRL`, `M1.CTRL`, `M2.CTRL`. -/
  | ctrl (k : PulseId)
  /-- `SAW.RATE`. -/
  | rate
  /-- `P1.FLO`, `P2.FLO`, `M1.FLO`, `M2.FLO`, `SAW.FLO`. -/
  | flo (o : OscId)
  /-- `P1.FHI`, `P2.FHI`, `M1.FHI`, `M2.FHI`, `SAW.FHI`. -/
  | fhi (o : OscId)
  /-- `MUL.LO`. -/
  | mulLo
  /-- `MUL.HI`. -/
  | mulHi
  /-- `AUX+n`. -/
  | aux (n : Nat)
deriving DecidableEq, Repr

/-- An assembler operand `<addr>`: a number or a register name (30_encoding.md R85). -/
inductive AsmAddr where
  | num (n : Nat)
  | reg (name : RegName)
deriving DecidableEq, Repr

/-- One assembler line in abstract form: the chip-level lines of 30_encoding.md R85, the partitioner-level lines of R86 and the
pseudo-instructions of R88. -/
inductive AsmLine where
  | write (addr : AsmAddr) (data : Nat)
  | read (addr : AsmAddr)
  | process (delta : Int)
  | reset
  | endFrame
  | atW (time : Nat) (addr : AsmAddr) (data : Nat)
  | atR (time : Nat) (addr : AsmAddr)
  | atEF (time : Nat)
  | rst
  /-- `@t PCTRL ch, g, d, v`. -/
  | pctrl (time : Nat) (ch : PulseId) (g d v : Nat)
  /-- `@t FREQ ch, f, e`. -/
  | freq (time : Nat) (ch : OscId) (f e : Nat)
  /-- `@t RATE SAW, a`. -/
  | rate (time : Nat) (a : Nat)
  /-- `@t KEYOFF ch, fh`. -/
  | keyOff (time : Nat) (ch : OscId) (fh : Nat)
  /-- `@t SILENCE ch`. -/
  | silence (time : Nat) (ch : PulseId)
deriving DecidableEq, Repr

end Sys2Proof
end

