-- ==== Sys2Proof/Machine/AddressMap.lean ====
section
/-! DEFINITION. The parameter constraints of 00_scope.md R7 and the address maps of 30_encoding.md R79 and R80: which part of a
chip an address selects. -/

namespace Sys2Proof.Machine

/-- What an address selects on a chip: register `index` of an oscillator, a multiplier address, or a byte of the auxiliary
memory. -/
inductive BusTarget where
  | reg (osc : OscId) (index : Nat)
  | mulLo
  | mulHi
  | aux (index : Nat)
deriving DecidableEq, Repr

/-- `size` addresses from `base` on do not meet `size'` addresses from `base'` on. -/
abbrev Apart (x y : Nat × Nat) : Prop :=
  x.2 = 0 ∨ y.2 = 0 ∨ x.1 + x.2 ≤ y.1 ∨ y.1 + y.2 ≤ x.1

/-- The address sets a PulseSawChip decodes, as (base, size) pairs (00_scope.md R7). -/
def psRegions (cfg : Config) : List (Nat × Nat) :=
  [(cfg.psP1Base, 3), (cfg.psP2Base, 3), (cfg.psSawBase, 3)]

/-- The address sets a PulseMulChip decodes, as (base, size) pairs (00_scope.md R7). -/
def pmRegions (cfg : Config) : List (Nat × Nat) :=
  [(cfg.pmP1Base, 3), (cfg.pmP2Base, 3), (cfg.pmMulLo, 1), (cfg.pmMulHi, 1), (cfg.pmAuxBase, cfg.pmAuxSize)]

/-- The five channel bases. -/
def channelBases (cfg : Config) : List Nat :=
  [cfg.psP1Base, cfg.psP2Base, cfg.psSawBase, cfg.pmP1Base, cfg.pmP2Base]

/-- The five channel identifiers. -/
def channelIds (cfg : Config) : List Nat :=
  [cfg.chPsP1, cfg.chPsP2, cfg.chPsSaw, cfg.chPmP1, cfg.chPmP2]

/-- The constraints of 00_scope.md R7. That the two multiplier addresses are addresses of the 16-bit bus is read from
20_memory.md R50 (DEDUCED, safe, log 15). -/
def validConfig (cfg : Config) : Bool :=
  (channelBases cfg).all (fun b => decide (b % 4 = 0 ∧ b ≤ 2 ^ 16 - 3))
    && decide ((psRegions cfg).Pairwise Apart)
    && decide ((pmRegions cfg).Pairwise Apart)
    && decide (cfg.pmMulLo < 2 ^ 16 ∧ cfg.pmMulHi < 2 ^ 16 ∧ cfg.pmAuxBase + cfg.pmAuxSize ≤ 2 ^ 16)
    && decide (channelIds cfg).Nodup

/-- `base ≤ addr ≤ base + 2` (43_pulsesaw_chip.md R191). -/
abbrev InChannel (base : Nat) (a : Addr) : Prop :=
  base ≤ a.toNat ∧ a.toNat ≤ base + 2

/-- The register index inside a channel's range, `addr & 3` (30_encoding.md R73). -/
def regIndex (a : Addr) : Nat :=
  (a &&& 3#16).toNat

/-- The PulseSawChip's address map for writes (30_encoding.md R79, 43_pulsesaw_chip.md R191); `none` is an unmapped address. -/
def psTarget (cfg : Config) (a : Addr) : Option BusTarget :=
  if InChannel cfg.psP1Base a then some (.reg (.pulse .psP1) (regIndex a))
  else if InChannel cfg.psP2Base a then some (.reg (.pulse .psP2) (regIndex a))
  else if InChannel cfg.psSawBase a then some (.reg .saw (regIndex a))
  else none

/-- The PulseMulChip's address map (30_encoding.md R80, 44_pulsemul_chip.md R211); `none` is an unmapped address. -/
def pmTarget (cfg : Config) (a : Addr) : Option BusTarget :=
  if InChannel cfg.pmP1Base a then some (.reg (.pulse .pmP1) (regIndex a))
  else if InChannel cfg.pmP2Base a then some (.reg (.pulse .pmP2) (regIndex a))
  else if a.toNat = cfg.pmMulLo then some .mulLo
  else if a.toNat = cfg.pmMulHi then some .mulHi
  else if cfg.pmAuxBase ≤ a.toNat ∧ a.toNat < cfg.pmAuxBase + cfg.pmAuxSize then
    some (.aux (a.toNat - cfg.pmAuxBase))
  else none

/-- What an address selects on a chip for a write. -/
def chipTarget (cfg : Config) : Chip → Addr → Option BusTarget
  | .pulseSaw, a => psTarget cfg a
  | .pulseMul, a => pmTarget cfg a

/-- The PulseMulChip's map for reads: the multiplier and the memory alone are mapped (44_pulsemul_chip.md R214). -/
def pmReadTarget (cfg : Config) (a : Addr) : Option BusTarget :=
  match pmTarget cfg a with
  | some (.reg _ _) => none
  | other => other

/-- The base address of an oscillator's three registers. -/
def oscBase (cfg : Config) : OscId → Nat
  | .pulse .psP1 => cfg.psP1Base
  | .pulse .psP2 => cfg.psP2Base
  | .pulse .pmP1 => cfg.pmP1Base
  | .pulse .pmP2 => cfg.pmP2Base
  | .saw => cfg.psSawBase

/-- The chip that owns an oscillator (10_state.md R33, R34). -/
def oscChip : OscId → Chip
  | .pulse .psP1 => .pulseSaw
  | .pulse .psP2 => .pulseSaw
  | .pulse .pmP1 => .pulseMul
  | .pulse .pmP2 => .pulseMul
  | .saw => .pulseSaw

/-- The oscillators a chip fans a call out to (43_pulsesaw_chip.md R193, 44_pulsemul_chip.md R218). -/
def oscillators : Chip → List OscId
  | .pulseSaw => [.pulse .psP1, .pulse .psP2, .saw]
  | .pulseMul => [.pulse .pmP1, .pulse .pmP2]

end Sys2Proof.Machine
end

