-- ==== Sys2Proof/WellFormed.lean ====
section
/-! DEFINITION. Which terms of `Instr` are instructions: an unmapped row names an unmapped address, a memory row an existing
byte, and an other-index row an index that is not a register's. -/

namespace Sys2Proof

/-- An instruction is well formed under a configuration when a command encodes it. -/
def Instr.wellFormed (cfg : Config) : Instr → Bool
  | .p1Ctrl _ => true
  | .p1FreqLo _ => true
  | .p1FreqHi _ => true
  | .p2Ctrl _ => true
  | .p2FreqLo _ => true
  | .p2FreqHi _ => true
  | .sawRate _ => true
  | .sawFreqLo _ => true
  | .sawFreqHi _ => true
  | .psWriteUnmapped a _ => (Machine.psTarget cfg a).isNone
  | .psRead _ => true
  | .m1Ctrl _ => true
  | .m1FreqLo _ => true
  | .m1FreqHi _ => true
  | .m2Ctrl _ => true
  | .m2FreqLo _ => true
  | .m2FreqHi _ => true
  | .mulA _ => true
  | .mulB _ => true
  | .auxWrite n _ => decide (n < cfg.pmAuxSize)
  | .pmWriteUnmapped a _ => (Machine.pmTarget cfg a).isNone
  | .mulLoRead => true
  | .mulHiRead => true
  | .auxRead n => decide (n < cfg.pmAuxSize)
  | .pmReadUnmapped a => (Machine.pmReadTarget cfg a).isNone
  | .psProcess _ => true
  | .psReset => true
  | .psEndFrame => true
  | .pmProcess _ => true
  | .pmReset => true
  | .pmEndFrame => true
  | .w _ _ _ _ => true
  | .ef _ _ => true
  | .r _ _ _ => true
  | .rst _ => true
  | .pulseWriteOther _ n _ => decide (3 ≤ n)
  | .pulseProcess _ _ => true
  | .pulseReset _ => true
  | .pulseEndFrame _ => true
  | .sawWriteOther n _ => decide (3 ≤ n)
  | .sawProcess _ => true
  | .sawReset => true
  | .sawEndFrame => true

end Sys2Proof
end

