-- ==== Sys2Proof/Decode.lean ====
section
/-! DEFINITION. The decoder (30_encoding.md R70 to R73, R79 to R84) and the encoder, written from the same formats. Decoding a
bus word never fails (R81); the two rejections are those of inputs the interface cannot express (60_exceptions.md R241). -/

namespace Sys2Proof

open Machine (BusTarget psTarget pmTarget pmReadTarget oscBase)

/-- The CTRL write of a pulse as an instruction (rows P1_CTRL, P2_CTRL, M1_CTRL, M2_CTRL). -/
def pulseCtrlInstr : PulseId → Byte → Instr
  | .psP1, v => .p1Ctrl v
  | .psP2, v => .p2Ctrl v
  | .pmP1, v => .m1Ctrl v
  | .pmP2, v => .m2Ctrl v

/-- The FREQ_LO write of an oscillator as an instruction. -/
def freqLoInstr : OscId → Byte → Instr
  | .pulse .psP1, v => .p1FreqLo v
  | .pulse .psP2, v => .p2FreqLo v
  | .pulse .pmP1, v => .m1FreqLo v
  | .pulse .pmP2, v => .m2FreqLo v
  | .saw, v => .sawFreqLo v

/-- The FREQ_HI write of an oscillator as an instruction. -/
def freqHiInstr : OscId → Byte → Instr
  | .pulse .psP1, v => .p1FreqHi v
  | .pulse .psP2, v => .p2FreqHi v
  | .pulse .pmP1, v => .m1FreqHi v
  | .pulse .pmP2, v => .m2FreqHi v
  | .saw, v => .sawFreqHi v

/-- The write of register 0 of an oscillator: CTRL of a pulse, RATE of the sawtooth (10_state.md R40). -/
def reg0Instr : OscId → Byte → Instr
  | .pulse k, v => pulseCtrlInstr k v
  | .saw, v => .sawRate v

/-- The write of no register: rows PULSE_WRITE_OTHER and SAW_WRITE_OTHER. -/
def otherInstr : OscId → Nat → Byte → Instr
  | .pulse k, n, v => .pulseWriteOther k n v
  | .saw, n, v => .sawWriteOther n v

/-- `write(index, value)` on an oscillator as an instruction (41_pulse.md R130 to R133, 42_sawtooth.md R160 to R163). -/
def oscWriteInstr (o : OscId) (n : Nat) (v : Byte) : Instr :=
  if n = 0 then reg0Instr o v
  else if n = 1 then freqLoInstr o v
  else if n = 2 then freqHiInstr o v
  else otherInstr o n v

/-- Bit 24 of a bus word: 1 = write (30_encoding.md R71). -/
def busIsWrite (w : BusWord) : Bool :=
  w.getLsbD 24

/-- Bits 23:8 of a bus word: the address (30_encoding.md R71). -/
def busAddr (w : BusWord) : Addr :=
  w.extractLsb' 8 16

/-- Bits 7:0 of a bus word: the data byte (30_encoding.md R71). -/
def busData (w : BusWord) : Byte :=
  w.extractLsb' 0 8

/-- A PulseSawChip bus write (30_encoding.md R79, 43_pulsesaw_chip.md R191). -/
def decodePsWrite (cfg : Config) (a : Addr) (v : Byte) : Instr :=
  match psTarget cfg a with
  | some (.reg o n) => oscWriteInstr o n v
  | _ => .psWriteUnmapped a v

/-- A PulseMulChip bus write (30_encoding.md R80, 44_pulsemul_chip.md R211). -/
def decodePmWrite (cfg : Config) (a : Addr) (v : Byte) : Instr :=
  match pmTarget cfg a with
  | some (.reg o n) => oscWriteInstr o n v
  | some .mulLo => .mulA v
  | some .mulHi => .mulB v
  | some (.aux n) => .auxWrite n v
  | none => .pmWriteUnmapped a v

/-- A PulseMulChip bus read (30_encoding.md R80, 44_pulsemul_chip.md R214). -/
def decodePmRead (cfg : Config) (a : Addr) : Instr :=
  match pmReadTarget cfg a with
  | some .mulLo => .mulLoRead
  | some .mulHi => .mulHiRead
  | some (.aux n) => .auxRead n
  | _ => .pmReadUnmapped a

/-- A bus write on a chip. -/
def decodeWrite (cfg : Config) (c : Chip) (a : Addr) (v : Byte) : Instr :=
  match c with
  | .pulseSaw => decodePsWrite cfg a v
  | .pulseMul => decodePmWrite cfg a v

/-- A bus read on a chip. -/
def decodeRead (cfg : Config) (c : Chip) (a : Addr) : Instr :=
  match c with
  | .pulseSaw => .psRead a
  | .pulseMul => decodePmRead cfg a

/-- The instruction a 25-bit bus word selects on a chip: total, with no fault outcome (30_encoding.md R81). -/
def decodeBus (cfg : Config) (c : Chip) (w : BusWord) : Instr :=
  if busIsWrite w then decodeWrite cfg c (busAddr w) (busData w) else decodeRead cfg c (busAddr w)

/-- `process(delta)` on a chip as an instruction. -/
def processInstr : Chip → Nat → Instr
  | .pulseSaw, d => .psProcess d
  | .pulseMul, d => .pmProcess d

/-- `reset()` on a chip as an instruction. -/
def resetInstr : Chip → Instr
  | .pulseSaw => .psReset
  | .pulseMul => .pmReset

/-- `endFrame()` on a chip as an instruction. -/
def endFrameInstr : Chip → Instr
  | .pulseSaw => .psEndFrame
  | .pulseMul => .pmEndFrame

/-- `process(delta)` on one oscillator as an instruction. -/
def oscProcessInstr : OscId → Nat → Instr
  | .pulse k, d => .pulseProcess k d
  | .saw, d => .sawProcess d

/-- `reset()` on one oscillator as an instruction. -/
def oscResetInstr : OscId → Instr
  | .pulse k => .pulseReset k
  | .saw => .sawReset

/-- `endFrame()` on one oscillator as an instruction. -/
def oscEndFrameInstr : OscId → Instr
  | .pulse k => .pulseEndFrame k
  | .saw => .sawEndFrame

/-- A delta is a natural number; a negative one is refused as NegativeDelta (60_exceptions.md R241). -/
def decodeDelta : Int → Except Rejection Nat
  | .ofNat d => .ok d
  | .negSucc _ => .error .negativeDelta

/-- The instruction of a command, or the rejection of an input the interface cannot express. -/
def decode (cfg : Config) : Command → Except Rejection Instr
  | .bus c w => if w < 2 ^ 25 then .ok (decodeBus cfg c (BitVec.ofNat 25 w)) else .error .valueOutOfRange
  | .process c d => (decodeDelta d).map (processInstr c)
  | .reset c => .ok (resetInstr c)
  | .endFrame c => .ok (endFrameInstr c)
  | .partWrite c t a v =>
    if a < 2 ^ 16 ∧ v < 2 ^ 8 then .ok (.w c t (BitVec.ofNat 16 a) (BitVec.ofNat 8 v)) else .error .valueOutOfRange
  | .partRead c t a => if a < 2 ^ 16 then .ok (.r c t (BitVec.ofNat 16 a)) else .error .valueOutOfRange
  | .partEndFrame c t => .ok (.ef c t)
  | .partReset c => .ok (.rst c)
  | .oscWrite o n v => if v < 2 ^ 8 then .ok (oscWriteInstr o n (BitVec.ofNat 8 v)) else .error .valueOutOfRange
  | .oscProcess o d => (decodeDelta d).map (oscProcessInstr o)
  | .oscReset o => .ok (oscResetInstr o)
  | .oscEndFrame o => .ok (oscEndFrameInstr o)

/-! ## The encoder -/

/-- `BT = (1 << 24) | (A << 8) | V` (30_encoding.md R71). -/
def busWriteWord (a v : Nat) : Nat :=
  2 ^ 24 + a * 2 ^ 8 + v

/-- `BT = (A << 8)` (30_encoding.md R71). -/
def busReadWord (a : Nat) : Nat :=
  a * 2 ^ 8

/-- The bus write of register `n` of an oscillator, at its base plus `n`. -/
def encodeReg (cfg : Config) (o : OscId) (n : Nat) (v : Byte) : Command :=
  .bus (Machine.oscChip o) (busWriteWord (oscBase cfg o + n) v.toNat)

/-- The command that encodes an instruction. -/
def encode (cfg : Config) : Instr → Command
  | .p1Ctrl v => encodeReg cfg (.pulse .psP1) 0 v
  | .p1FreqLo v => encodeReg cfg (.pulse .psP1) 1 v
  | .p1FreqHi v => encodeReg cfg (.pulse .psP1) 2 v
  | .p2Ctrl v => encodeReg cfg (.pulse .psP2) 0 v
  | .p2FreqLo v => encodeReg cfg (.pulse .psP2) 1 v
  | .p2FreqHi v => encodeReg cfg (.pulse .psP2) 2 v
  | .sawRate v => encodeReg cfg .saw 0 v
  | .sawFreqLo v => encodeReg cfg .saw 1 v
  | .sawFreqHi v => encodeReg cfg .saw 2 v
  | .psWriteUnmapped a v => .bus .pulseSaw (busWriteWord a.toNat v.toNat)
  | .psRead a => .bus .pulseSaw (busReadWord a.toNat)
  | .m1Ctrl v => encodeReg cfg (.pulse .pmP1) 0 v
  | .m1FreqLo v => encodeReg cfg (.pulse .pmP1) 1 v
  | .m1FreqHi v => encodeReg cfg (.pulse .pmP1) 2 v
  | .m2Ctrl v => encodeReg cfg (.pulse .pmP2) 0 v
  | .m2FreqLo v => encodeReg cfg (.pulse .pmP2) 1 v
  | .m2FreqHi v => encodeReg cfg (.pulse .pmP2) 2 v
  | .mulA v => .bus .pulseMul (busWriteWord cfg.pmMulLo v.toNat)
  | .mulB v => .bus .pulseMul (busWriteWord cfg.pmMulHi v.toNat)
  | .auxWrite n v => .bus .pulseMul (busWriteWord (cfg.pmAuxBase + n) v.toNat)
  | .pmWriteUnmapped a v => .bus .pulseMul (busWriteWord a.toNat v.toNat)
  | .mulLoRead => .bus .pulseMul (busReadWord cfg.pmMulLo)
  | .mulHiRead => .bus .pulseMul (busReadWord cfg.pmMulHi)
  | .auxRead n => .bus .pulseMul (busReadWord (cfg.pmAuxBase + n))
  | .pmReadUnmapped a => .bus .pulseMul (busReadWord a.toNat)
  | .psProcess d => .process .pulseSaw d
  | .psReset => .reset .pulseSaw
  | .psEndFrame => .endFrame .pulseSaw
  | .pmProcess d => .process .pulseMul d
  | .pmReset => .reset .pulseMul
  | .pmEndFrame => .endFrame .pulseMul
  | .w c t a v => .partWrite c t a.toNat v.toNat
  | .ef c t => .partEndFrame c t
  | .r c t a => .partRead c t a.toNat
  | .rst c => .partReset c
  | .pulseWriteOther k n v => .oscWrite (.pulse k) n v.toNat
  | .pulseProcess k d => .oscProcess (.pulse k) d
  | .pulseReset k => .oscReset (.pulse k)
  | .pulseEndFrame k => .oscEndFrame (.pulse k)
  | .sawWriteOther n v => .oscWrite .saw n v.toNat
  | .sawProcess d => .oscProcess .saw d
  | .sawReset => .oscReset .saw
  | .sawEndFrame => .oscEndFrame .saw

/-! ## The host's table words -/

/-- The chip a bare bus word is given to: the PulseMulChip where it decodes the address, else the PulseSawChip. The dispatcher
that chooses a chip is out of scope (00_scope.md R5); this stands for it where a word comes with no chip. DESIGN CHOICE, unsafe
(log 3). -/
def routeWord (cfg : Config) (w : Nat) : Chip :=
  if (pmTarget cfg (busAddr (BitVec.ofNat 25 w))).isSome then .pulseMul else .pulseSaw

/-- The instruction the decoder reads from a bus word, at the default parameters. A bus word is 25 bits; every bit above
`nbits` is 0 in `w`. -/
def decodeTableWord (_nbits w : Nat) : Option Instr :=
  match decode Config.default (.bus (routeWord Config.default w) w) with
  | .ok i => some i
  | .error _ => none

end Sys2Proof
end

