-- ==== Sys2Proof/Machine/State.lean ====
section
/-! DEFINITION. The state of the machine: the two chips (10_state.md R33, R34), their partitioners (R37), the sink's trace and the
read results (00_scope.md R11), the driver's command list and position (R21), and the parameters (00_scope.md R6). -/

namespace Sys2Proof.Machine

/-- The fields common to both oscillator types (10_state.md R22, R26). -/
structure Channel where
  enabled : Bool
  freqLow : BitVec 8
  freqHigh : BitVec 4
  frequency : BitVec 12
  divider : Nat
  elapsedTime : Nat
  ch : Nat
deriving DecidableEq, Repr

/-- The fields only a PulseOscillator has (10_state.md R22). -/
structure PulseWave where
  gate : Bool
  dutyCycle : BitVec 4
  volume : BitVec 4
  dutyPosition : BitVec 4
deriving DecidableEq, Repr

/-- The fields only a SawtoothOscillator has (10_state.md R26). -/
structure SawWave where
  phaseAccumulator : BitVec 8
  phaseInput : BitVec 6
  resetSequence : BitVec 4
deriving DecidableEq, Repr

/-- A PulseOscillator (10_state.md R22). -/
structure PulseOscillator extends Channel, PulseWave
deriving DecidableEq, Repr

/-- A SawtoothOscillator (10_state.md R26). -/
structure SawtoothOscillator extends Channel, SawWave
deriving DecidableEq, Repr

/-- A PulseSawChip (10_state.md R33). -/
structure PulseSawChip where
  p1 : PulseOscillator
  p2 : PulseOscillator
  saw : SawtoothOscillator
deriving DecidableEq, Repr

/-- The MultiplierUnit (10_state.md R35). The product is no state. -/
structure MultiplierUnit where
  mulA : Byte
  mulB : Byte
deriving DecidableEq, Repr

/-- The auxiliary memory (10_state.md R36): the bytes written since construction, by index. An unlisted byte has never been
written; what reading it gives is `Machine.auxRead`'s to say (log 7). -/
abbrev Memory := List Host.Cell

/-- A PulseMulChip (10_state.md R34). -/
structure PulseMulChip where
  p1 : PulseOscillator
  p2 : PulseOscillator
  mul : MultiplierUnit
  aux : Memory
deriving DecidableEq, Repr

/-- A record of the LevelSink's event trace (00_scope.md R11). -/
inductive Record where
  /-- "set output of channel ch to level L as of elapsed time t". -/
  | level (ch : Nat) (level : Nat) (time : Nat)
  /-- The frame-end record of 40_framework.md R114. -/
  | frameEnd (ch : Nat) (time : Nat)
deriving DecidableEq, Repr

/-- The records one call sends to the sink: a block for each oscillator that took part. Their order in the sink's trace is the
free FANOUT_ORDER of draw `draw` (40_framework.md R124, log 8); `command` is the driver's position, so that the trace of
commands stands beside the trace of events (70_reset_and_hazards.md R271). -/
structure Batch where
  command : Nat
  draw : Nat
  blocks : List (List Record)
deriving DecidableEq, Repr

/-- The result `(value, mapped)` of a bus read (00_scope.md R11). -/
structure ReadResult where
  value : Byte
  mapped : Bool
deriving DecidableEq, Repr

/-- The machine. -/
structure State where
  cfg : Config
  ps : PulseSawChip
  psNow : Nat
  pm : PulseMulChip
  pmNow : Nat
  sink : List Batch
  reads : List ReadResult
  program : List Command
  pos : Nat
  draws : Nat
deriving DecidableEq, Repr

/-- Why the machine stops with a fault. The block raises none (60_exceptions.md R240). -/
inductive Fault where
  /-- Raised by AUX_WRITE and AUX_READ on an index that is not below PM_AUX_SIZE: 10_state.md R36 names no such byte, and no
  command decodes to such an instruction. Safe (log 20). -/
  | auxIndexOutside
deriving DecidableEq, Repr

/-- Why the machine refuses a command: the refusals of 60_exceptions.md R241, each a duty of the driver. All are safe. -/
inductive Refusal where
  /-- Raised by `exec` for an instruction that has no meaning yet. Safe. -/
  | notModelled (mnemonic : String)
  /-- Raised by `step` for a PROCESS command with a negative delta. Safe. -/
  | negativeDelta
  /-- Raised by W, EF and R for a timestamp below `now`. Safe. -/
  | timestampBeforeNow
  /-- Raised by `step` for a word, an address or a data value that is too wide. Safe. -/
  | valueOutOfRange
  /-- Raised by `step`, and by `construct`, where a parameter constraint fails. Safe. -/
  | badConfiguration
  /-- Raised by `perform` for a command that acts on a chip's time past its partitioner, in a program at partitioner level for that
  chip. Safe. -/
  | mixedLevels
deriving DecidableEq, Repr

/-- The outcome of an instruction. -/
abbrev Result := Host.Outcome State Fault Refusal

/-- The common fields after `reset()` (10_state.md R42). -/
def Channel.initial (ch : Nat) : Channel where
  enabled := false
  freqLow := 0
  freqHigh := 0
  frequency := 0
  divider := 0
  elapsedTime := 0
  ch := ch

/-- A pulse's own fields after `reset()` (10_state.md R42). -/
def PulseWave.initial : PulseWave where
  gate := false
  dutyCycle := 0
  volume := 0
  dutyPosition := 0

/-- A sawtooth's own fields after `reset()` (10_state.md R42). -/
def SawWave.initial : SawWave where
  phaseAccumulator := 0
  phaseInput := 0
  resetSequence := 0

/-- A pulse at construction, bound to a channel identifier (10_state.md R31, R42). -/
def PulseOscillator.initial (ch : Nat) : PulseOscillator where
  toChannel := Channel.initial ch
  toPulseWave := PulseWave.initial

/-- A sawtooth at construction, bound to a channel identifier (10_state.md R31, R42). -/
def SawtoothOscillator.initial (ch : Nat) : SawtoothOscillator where
  toChannel := Channel.initial ch
  toSawWave := SawWave.initial

/-- The two chips as constructed with parameters `cfg` (43_pulsesaw_chip.md R190, 44_pulsemul_chip.md R210,
70_reset_and_hazards.md R261), nothing emitted, nothing read and no command issued. -/
def State.initial (cfg : Config) : State where
  cfg := cfg
  ps := { p1 := .initial cfg.chPsP1, p2 := .initial cfg.chPsP2, saw := .initial cfg.chPsSaw }
  psNow := 0
  pm := { p1 := .initial cfg.chPmP1, p2 := .initial cfg.chPmP2, mul := { mulA := 0, mulB := 0 }, aux := [] }
  pmNow := 0
  sink := []
  reads := []
  program := []
  pos := 0
  draws := 0

/-- The machine right after reset: constructed with the default parameters (70_reset_and_hazards.md R261). -/
def State.reset : State :=
  State.initial Config.default

end Sys2Proof.Machine
end

