-- ==== Sys2Proof/Machine/Flags.lean ====
section
/-! DEFINITION. The single-bit status fields (10_state.md R32), the operating state derived from them (R25) and the level
functions (R24, R27). The block has no condition codes. -/

namespace Sys2Proof.Machine

/-- CTRL bit 7 (30_encoding.md R74). -/
def ctrlGate (v : Byte) : Bool :=
  v.getLsbD 7

/-- FREQ_HI bit 7 (30_encoding.md R76). -/
def freqHiEnabled (v : Byte) : Bool :=
  v.getLsbD 7

/-- The operating states of an oscillator (10_state.md R25). -/
inductive Operating where
  | disabled
  | idle
  | armed
deriving DecidableEq, Repr

/-- The operating state, a function of the fields (10_state.md R25). -/
def Channel.operating (c : Channel) : Operating :=
  if c.enabled = false then .disabled
  else if c.frequency = 0 then .idle
  else .armed

/-- `pulseLevel` (10_state.md R24). -/
def PulseWave.level (w : PulseWave) : Nat :=
  if w.gate = true ∨ w.dutyCycle ≤ w.dutyPosition then w.volume.toNat else 0

/-- `sawLevel`, the top 5 bits of the accumulator (10_state.md R27). -/
def SawWave.level (w : SawWave) : Nat :=
  (w.phaseAccumulator >>> 3).toNat

end Sys2Proof.Machine
end

