-- ==== Sys2Proof/Machine/Operands.lean ====
section
/-! DEFINITION. The operand forms: the fields of a write's data byte (30_encoding.md R74 to R77) and the frequency assembled from
its two halves (R78). The other operand form, the natural number of PROCESS, needs no reading. -/

namespace Sys2Proof.Machine

/-- CTRL bits 6:4 plus one, in 1..8 (30_encoding.md R74). -/
def ctrlDutyCycle (v : Byte) : BitVec 4 :=
  (v.extractLsb' 4 3).setWidth 4 + 1

/-- CTRL bits 3:0 (30_encoding.md R74). -/
def ctrlVolume (v : Byte) : BitVec 4 :=
  v.extractLsb' 0 4

/-- FREQ_LO bits 7:0 (30_encoding.md R75). -/
def freqLowField (v : Byte) : BitVec 8 :=
  v

/-- FREQ_HI bits 3:0 (30_encoding.md R76). -/
def freqHighField (v : Byte) : BitVec 4 :=
  v.extractLsb' 0 4

/-- RATE bits 5:0 (30_encoding.md R77). -/
def ratePhaseInput (v : Byte) : BitVec 6 :=
  v.extractLsb' 0 6

/-- `frequency = zext_12(freqLow) | (zext_12(freqHigh) << 8)` (30_encoding.md R78). -/
def assembleFrequency (lo : BitVec 8) (hi : BitVec 4) : BitVec 12 :=
  lo.setWidth 12 ||| (hi.setWidth 12 <<< 8)

/-- The exact 16-bit product of two bytes (44_pulsemul_chip.md R215). -/
def product (a b : Byte) : BitVec 16 :=
  a.setWidth 16 * b.setWidth 16

/-- The low byte of the product (44_pulsemul_chip.md R215). -/
def productLow (a b : Byte) : Byte :=
  (product a b).extractLsb' 0 8

/-- The high byte of the product (44_pulsemul_chip.md R216). -/
def productHigh (a b : Byte) : Byte :=
  (product a b).extractLsb' 8 8

end Sys2Proof.Machine
end

