-- ==== Sys2Proof/Machine/Ops.lean ====
section
/-! DEFINITION. The named operations the meanings are made of: the auxiliary memory, the oscillators' own operations
(40_framework.md R100), the state's access to an oscillator, the sink, the chip operations and their fan-out (R124). The block
raises no exception (60_exceptions.md R240), so there is no operation that takes one or returns from one (R244). -/

namespace Sys2Proof.Machine

/-! ## The auxiliary memory -/

/-- What has been written to byte `i`, if anything. An unlisted byte reads as "never written". -/
def Memory.lookup (i : Nat) : Memory → Option Byte
  | [] => none
  | (j, b) :: m => if i = j then some b else Memory.lookup i m

/-- Stores `v` at byte `i`, keeping the indices strictly rising. -/
def Memory.insert (i : Nat) (v : Byte) : Memory → Memory
  | [] => [(i, v)]
  | (j, b) :: m =>
    if i < j then (i, v) :: (j, b) :: m
    else if i = j then (i, v) :: m
    else (j, b) :: Memory.insert i v m

/-- The canonical form of a memory of `size` bytes: the indices strictly rise and each is below `size`. -/
def Memory.wf (size : Nat) : Memory → Bool
  | [] => true
  | (j, _) :: m => decide (j < size) && m.all (fun c => decide (j < c.1)) && Memory.wf size m

/-- `MemRead(i, 1)` (44_pulsemul_chip.md R217): the last value written to byte `i`, or its AUX_INIT draw, a free value, where
nothing has been written since construction (20_memory.md R61, log 7). -/
def auxRead (m : Memory) (i : Nat) : Byte :=
  (Memory.lookup i m).getD (Config.auxInit i)

/-! ## The divider -/

/-- An expiry's share of the common fields: the divider is consumed and reloaded (40_framework.md R103, R104). -/
def Channel.reload (c : Channel) : Channel :=
  { c with elapsedTime := c.elapsedTime + c.divider, divider := c.frequency.toNat + 1 }

/-- The remainder of a slice, or the whole of one that finds the oscillator not Armed leaves the divider alone: time passes
(40_framework.md R102). -/
def Channel.wait (d : Nat) (c : Channel) : Channel :=
  { c with elapsedTime := c.elapsedTime + d }

/-- The remainder of a slice after the last expiry, `d < divider` (40_framework.md R103, and R106's `divider = v - d`). A countdown left
over from a longer period stays above `frequency + 1` here, as R110, 10_state.md R29 and 70_reset_and_hazards.md R266 need; R109's
upper bound does not hold of it (DEDUCED, unsafe, log 21). -/
def Channel.settle (d : Nat) (c : Channel) : Channel :=
  { c with divider := c.divider - d, elapsedTime := c.elapsedTime + d }

/-- What `process` leaves: the common fields, the oscillator's own fields and the records emitted, in order. -/
structure Drained (ω : Type) where
  chan : Channel
  wave : ω
  records : List Record

/-- The divider-drain loop (40_framework.md R103): an expiry at every pass that finds `d ≥ divider`, each emitting one record
stamped with the time the countdown reached zero (R105). The first argument bounds the passes. -/
def drain {ω : Type} (expire : ω → ω) (level : ω → Nat) : Nat → Nat → Channel → ω → Drained ω
  | 0, d, c, w => { chan := c.settle d, wave := w, records := [] }
  | fuel + 1, d, c, w =>
    if c.divider ≤ d then
      let rest := drain expire level fuel (d - c.divider) c.reload (expire w)
      { rest with records := .level c.ch (level (expire w)) (c.elapsedTime + c.divider) :: rest.records }
    else { chan := c.settle d, wave := w, records := [] }

/-- `process(d)` (40_framework.md R102, R103): the drain where Armed, else only time passes. A pass after the first consumes at
least 2 cycles (R108), so `d + 1` passes are enough. -/
def processChannel {ω : Type} (expire : ω → ω) (level : ω → Nat) (d : Nat) (c : Channel) (w : ω) : Drained ω :=
  match c.operating with
  | .armed => drain expire level (d + 1) d c w
  | .idle => { chan := c.wait d, wave := w, records := [] }
  | .disabled => { chan := c.wait d, wave := w, records := [] }

/-- A FREQ_LO write (41_pulse.md R131, 42_sawtooth.md R161). -/
def Channel.writeFreqLo (v : Byte) (c : Channel) : Channel :=
  { c with freqLow := freqLowField v, frequency := assembleFrequency (freqLowField v) c.freqHigh }

/-- A FREQ_HI write (41_pulse.md R132, 42_sawtooth.md R162). -/
def Channel.writeFreqHi (v : Byte) (c : Channel) : Channel :=
  { c with
    enabled := freqHiEnabled v
    freqHigh := freqHighField v
    frequency := assembleFrequency c.freqLow (freqHighField v) }

/-- `endFrame()` on the common fields (40_framework.md R114). -/
def Channel.endFrame (base : TimeBase) (c : Channel) : Channel :=
  match base with
  | .cumulative => c
  | .perFrame => { c with elapsedTime := 0 }

/-! ## The two waves -/

/-- A pulse's expiry steps the duty position, 15 to 0 (41_pulse.md R134). -/
def PulseWave.expire (w : PulseWave) : PulseWave :=
  { w with dutyPosition := w.dutyPosition + 1 }

/-- A pulse's CTRL write (41_pulse.md R130). -/
def PulseWave.writeCtrl (v : Byte) (w : PulseWave) : PulseWave :=
  { w with gate := ctrlGate v, dutyCycle := ctrlDutyCycle v, volume := ctrlVolume v }

/-- The accumulator after the odd-step add, before the forced zero (42_sawtooth.md R164). -/
def SawWave.accumulate (w : SawWave) : BitVec 8 :=
  if w.resetSequence.getLsbD 0 then w.phaseAccumulator + w.phaseInput.setWidth 8 else w.phaseAccumulator

/-- A sawtooth's expiry (42_sawtooth.md R164). -/
def SawWave.expire (w : SawWave) : SawWave :=
  if w.resetSequence + 1 = 14#4 then { w with phaseAccumulator := 0, resetSequence := 0 }
  else { w with phaseAccumulator := w.accumulate, resetSequence := w.resetSequence + 1 }

/-- A sawtooth's RATE write (42_sawtooth.md R160). -/
def SawWave.writeRate (v : Byte) (w : SawWave) : SawWave :=
  { w with phaseInput := ratePhaseInput v }

/-! ## An oscillator of the machine -/

/-- The pulse `k` of the machine. -/
def State.pulse (s : State) : PulseId → PulseOscillator
  | .psP1 => s.ps.p1
  | .psP2 => s.ps.p2
  | .pmP1 => s.pm.p1
  | .pmP2 => s.pm.p2

/-- Replaces the pulse `k`. -/
def State.setPulse (k : PulseId) (p : PulseOscillator) (s : State) : State :=
  match k with
  | .psP1 => { s with ps := { s.ps with p1 := p } }
  | .psP2 => { s with ps := { s.ps with p2 := p } }
  | .pmP1 => { s with pm := { s.pm with p1 := p } }
  | .pmP2 => { s with pm := { s.pm with p2 := p } }

/-- Replaces the sawtooth. -/
def State.setSaw (o : SawtoothOscillator) (s : State) : State :=
  { s with ps := { s.ps with saw := o } }

/-- The common fields of an oscillator. -/
def State.channel (s : State) : OscId → Channel
  | .pulse k => (s.pulse k).toChannel
  | .saw => s.ps.saw.toChannel

/-- Replaces the common fields of an oscillator. -/
def State.setChannel (o : OscId) (c : Channel) (s : State) : State :=
  match o with
  | .pulse k => s.setPulse k { s.pulse k with toChannel := c }
  | .saw => s.setSaw { s.ps.saw with toChannel := c }

/-- Replaces the multiplier unit. -/
def State.setMul (u : MultiplierUnit) (s : State) : State :=
  { s with pm := { s.pm with mul := u } }

/-- Replaces the auxiliary memory. -/
def State.setAux (m : Memory) (s : State) : State :=
  { s with pm := { s.pm with aux := m } }

/-! ## The sink, the read results and the draws -/

/-- Sends the records of one call to the sink. A call that emits nothing leaves the trace as it is. -/
def State.send (blocks : List (List Record)) (s : State) : State :=
  if blocks.all List.isEmpty then s
  else { s with sink := s.sink ++ [{ command := s.pos, draw := s.draws, blocks := blocks }] }

/-- Returns `(value, mapped)` to the driver (00_scope.md R11). -/
def State.answer (r : ReadResult) (s : State) : State :=
  { s with reads := s.reads ++ [r] }

/-- One more fanned-out call has drawn its order (40_framework.md R124). -/
def State.countDraw (s : State) : State :=
  { s with draws := s.draws + 1 }

/-- Puts `x` at place `n` of a list. -/
def insertAt {α : Type} (n : Nat) (x : α) (l : List α) : List α :=
  l.take n ++ x :: l.drop n

/-- The list in the order that a code stands for; every order of a list has a code. -/
def arrange {α : Type} (code : Nat) : List α → List α
  | [] => []
  | x :: l => insertAt (code % (l.length + 1)) x (arrange (code / (l.length + 1)) l)

/-- A batch's records in the order drawn for it: whole blocks in any order, each in its own order (40_framework.md R124). -/
def Batch.records (b : Batch) : List Record :=
  (arrange (Config.fanoutOrder b.draw) b.blocks).flatten

/-- The event trace of the LevelSink (00_scope.md R11), interleaved as the free FANOUT_ORDER draws say. -/
def State.eventTrace (s : State) : List Record :=
  s.sink.flatMap Batch.records

/-- The channel a record is for. -/
def Record.channel : Record → Nat
  | .level ch _ _ => ch
  | .frameEnd ch _ => ch

/-- The time a record carries. -/
def Record.time : Record → Nat
  | .level _ _ t => t
  | .frameEnd _ t => t

/-- The records of one channel. -/
def ofChannel (ch : Nat) (l : List Record) : List Record :=
  l.filter (fun r => r.channel == ch)

/-- A channel's projection of the event trace, in generation order: the observation of decision D25. It does not depend on the
draws (40_framework.md R124). -/
def State.channelTrace (s : State) (ch : Nat) : List Record :=
  s.sink.flatMap (fun b => ofChannel ch b.blocks.flatten)

/-- The level of the last `Level` record of a list. -/
def lastLevel : List Record → Option Nat
  | [] => none
  | .level _ l _ :: rest => some ((lastLevel rest).getD l)
  | .frameEnd _ _ :: rest => lastLevel rest

/-- The level a sink holds for a channel (10_state.md R39). -/
def State.heldLevel (s : State) (ch : Nat) : Option Nat :=
  lastLevel (s.channelTrace ch)

/-- The commands performed so far (70_reset_and_hazards.md R271). -/
def State.commandTrace (s : State) : List Command :=
  s.program.take s.pos

/-! ## Operations on one oscillator (40_framework.md R100) -/

/-- The record of a CTRL write that leaves `gate` at 1: the new volume, at once (41_pulse.md R130). -/
def gateRecords (p : PulseOscillator) : List Record :=
  if p.gate then [.level p.ch p.volume.toNat p.elapsedTime] else []

/-- CTRL write on pulse `k` (41_pulse.md R130). -/
def writeCtrl (k : PulseId) (v : Byte) (s : State) : State :=
  let p := { s.pulse k with toPulseWave := (s.pulse k).toPulseWave.writeCtrl v }
  (s.setPulse k p).send [gateRecords p]

/-- RATE write (42_sawtooth.md R160). -/
def writeRate (v : Byte) (s : State) : State :=
  s.setSaw { s.ps.saw with toSawWave := s.ps.saw.toSawWave.writeRate v }

/-- FREQ_LO write on an oscillator (41_pulse.md R131, 42_sawtooth.md R161). -/
def writeFreqLo (o : OscId) (v : Byte) (s : State) : State :=
  s.setChannel o ((s.channel o).writeFreqLo v)

/-- FREQ_HI write on an oscillator (41_pulse.md R132, 42_sawtooth.md R162). -/
def writeFreqHi (o : OscId) (v : Byte) (s : State) : State :=
  s.setChannel o ((s.channel o).writeFreqHi v)

/-- Register 0 of an oscillator: CTRL of a pulse, RATE of the sawtooth (10_state.md R40). -/
def writeReg0 (o : OscId) (v : Byte) (s : State) : State :=
  match o with
  | .pulse k => writeCtrl k v s
  | .saw => writeRate v s

/-- `write(index, value)` on an oscillator; any other index is a no-op (41_pulse.md R133, 42_sawtooth.md R163). -/
def oscWrite (o : OscId) (n : Nat) (v : Byte) (s : State) : State :=
  if n = 0 then writeReg0 o v s
  else if n = 1 then writeFreqLo o v s
  else if n = 2 then writeFreqHi o v s
  else s

/-- `process(d)` on an oscillator: the new state and the records emitted (41_pulse.md R134, 42_sawtooth.md R164). -/
def oscProcess (d : Nat) (o : OscId) (s : State) : State × List Record :=
  match o with
  | .pulse k =>
    let r := processChannel PulseWave.expire PulseWave.level d (s.pulse k).toChannel (s.pulse k).toPulseWave
    (s.setPulse k { toChannel := r.chan, toPulseWave := r.wave }, r.records)
  | .saw =>
    let r := processChannel SawWave.expire SawWave.level d s.ps.saw.toChannel s.ps.saw.toSawWave
    (s.setSaw { toChannel := r.chan, toSawWave := r.wave }, r.records)

/-- `reset()` on an oscillator: every field at its reset value, `ch` kept, nothing emitted (41_pulse.md R135, 42_sawtooth.md
R165). -/
def oscReset (o : OscId) (s : State) : State × List Record :=
  match o with
  | .pulse k => (s.setPulse k (.initial (s.pulse k).ch), [])
  | .saw => (s.setSaw (.initial s.ps.saw.ch), [])

/-- `endFrame()` on an oscillator: the FrameEnd record, and in the per-frame time base `elapsedTime` to 0 (40_framework.md R114). -/
def oscEndFrame (o : OscId) (s : State) : State × List Record :=
  (s.setChannel o ((s.channel o).endFrame s.cfg.timeBase), [.frameEnd (s.channel o).ch (s.channel o).elapsedTime])

/-- A lone oscillator's operation, its records sent as one block. -/
def lone (f : OscId → State → State × List Record) (o : OscId) (s : State) : State :=
  (f o s).1.send [(f o s).2]

/-! ## Chip operations -/

/-- Passes a call to oscillators in a given order, collecting each one's block of records (43_pulsesaw_chip.md R193). -/
def fanOut (f : OscId → State → State × List Record) : List OscId → State → State × List (List Record)
  | [], s => (s, [])
  | o :: rest, s =>
    let r := fanOut f rest (f o s).1
    (r.1, (f o s).2 :: r.2)

/-- A fanned-out call on a chip. The oscillators are independent, so their state does not depend on the order (43_pulsesaw_chip.md
R193, R196); the order of their blocks in the event trace is the draw's (40_framework.md R124). -/
def fanCall (f : OscId → State → State × List Record) (c : Chip) (s : State) : State :=
  let r := fanOut f (oscillators c) s
  (r.1.send r.2).countDraw

/-- `process(d)` on a chip (43_pulsesaw_chip.md R193, 44_pulsemul_chip.md R218). -/
def chipProcess (c : Chip) (d : Nat) (s : State) : State :=
  fanCall (oscProcess d) c s

/-- `reset()` on a chip (43_pulsesaw_chip.md R194, 44_pulsemul_chip.md R220): the auxiliary memory is kept. -/
def chipReset (c : Chip) (s : State) : State :=
  match c with
  | .pulseSaw => fanCall oscReset .pulseSaw s
  | .pulseMul => (fanCall oscReset .pulseMul s).setMul { mulA := 0, mulB := 0 }

/-- `endFrame()` on a chip (43_pulsesaw_chip.md R195, 44_pulsemul_chip.md R219). -/
def chipEndFrame (c : Chip) (s : State) : State :=
  fanCall oscEndFrame c s

/-- The operand A write (44_pulsemul_chip.md R212). -/
def writeMulA (v : Byte) (s : State) : State :=
  s.setMul { s.pm.mul with mulA := v }

/-- The operand B write (44_pulsemul_chip.md R212). -/
def writeMulB (v : Byte) (s : State) : State :=
  s.setMul { s.pm.mul with mulB := v }

/-- A store to byte `i` of the auxiliary memory (44_pulsemul_chip.md R213). -/
def writeAux (i : Nat) (v : Byte) (s : State) : State :=
  s.setAux (Memory.insert i v s.pm.aux)

/-- A chip's `write(addr, value)` (43_pulsesaw_chip.md R191, 44_pulsemul_chip.md R211). -/
def chipWrite (c : Chip) (a : Addr) (v : Byte) (s : State) : State :=
  match chipTarget s.cfg c a with
  | some (.reg o n) => oscWrite o n v s
  | some .mulLo => writeMulA v s
  | some .mulHi => writeMulB v s
  | some (.aux n) => writeAux n v s
  | none => s

/-- The result of a read no component maps (20_memory.md R58). The value is 0 (decision D16, log 16). -/
def unmappedResult : ReadResult where
  value := 0
  mapped := false

/-- The product's low byte (44_pulsemul_chip.md R215), computed at the read (R221). -/
def mulLoResult (s : State) : ReadResult where
  value := productLow s.pm.mul.mulA s.pm.mul.mulB
  mapped := true

/-- The product's high byte (44_pulsemul_chip.md R216), computed at the read (R221). -/
def mulHiResult (s : State) : ReadResult where
  value := productHigh s.pm.mul.mulA s.pm.mul.mulB
  mapped := true

/-- A byte of the auxiliary memory (44_pulsemul_chip.md R217). -/
def auxResult (i : Nat) (s : State) : ReadResult where
  value := auxRead s.pm.aux i
  mapped := true

/-- A chip's `read(addr)` (43_pulsesaw_chip.md R192, 44_pulsemul_chip.md R214). -/
def chipRead (c : Chip) (a : Addr) (s : State) : ReadResult :=
  match c with
  | .pulseSaw => unmappedResult
  | .pulseMul =>
    match pmReadTarget s.cfg a with
    | some .mulLo => mulLoResult s
    | some .mulHi => mulHiResult s
    | some (.aux n) => auxResult n s
    | _ => unmappedResult

/-! ## The partitioner -/

/-- The partitioner's `now` of a chip (10_state.md R37). -/
def State.now (s : State) : Chip → Nat
  | .pulseSaw => s.psNow
  | .pulseMul => s.pmNow

/-- Sets the partitioner's `now` of a chip. -/
def State.setNow (c : Chip) (t : Nat) (s : State) : State :=
  match c with
  | .pulseSaw => { s with psNow := t }
  | .pulseMul => { s with pmNow := t }

/-- `chip.process(t - now); now <- t` (40_framework.md R115, R116). -/
def advanceTo (c : Chip) (t : Nat) (s : State) : State :=
  (chipProcess c (t - s.now c) s).setNow c t

/-- `now <- 0` where frames restart the time (40_framework.md R116). -/
def State.endFrameNow (c : Chip) (s : State) : State :=
  match s.cfg.timeBase with
  | .cumulative => s
  | .perFrame => s.setNow c 0

/-- The partitioner's end of frame at time `t` (40_framework.md R116). -/
def frameEndAt (c : Chip) (t : Nat) (s : State) : State :=
  (chipEndFrame c (advanceTo c t s)).endFrameNow c

/-- A command of the chip's partitioner level (30_encoding.md R86). -/
def isPartitionerCommand (c : Chip) : Command → Bool
  | .partWrite c' _ _ _ => c' == c
  | .partRead c' _ _ => c' == c
  | .partEndFrame c' _ => c' == c
  | .partReset c' => c' == c
  | .bus _ _ => false
  | .process _ _ => false
  | .reset _ => false
  | .endFrame _ => false
  | .oscWrite _ _ _ => false
  | .oscProcess _ _ => false
  | .oscReset _ => false
  | .oscEndFrame _ => false

/-- The driver's program is written at partitioner level for this chip (40_framework.md R125): it holds a partitioner command
of the chip (DESIGN CHOICE, safe, log 12). -/
def State.partitionerLevel (s : State) (c : Chip) : Bool :=
  s.program.any (isPartitionerCommand c)

/-- A command at the oscillator interface that acts on the time of one oscillator of the chip alone. -/
def actsOnLoneTime (c : Chip) : Command → Bool
  | .oscProcess o _ => oscChip o == c
  | .oscReset o => oscChip o == c
  | .oscEndFrame o => oscChip o == c
  | .bus _ _ => false
  | .process _ _ => false
  | .reset _ => false
  | .endFrame _ => false
  | .partWrite _ _ _ _ => false
  | .partRead _ _ _ => false
  | .partEndFrame _ _ => false
  | .partReset _ => false
  | .oscWrite _ _ _ => false

/-- A command that acts on the chip's time past its partitioner: a chip-level PROCESS or ENDFRAME, or a command that acts on the
time of one of its oscillators alone. -/
def actsPastPartitioner (c : Chip) : Command → Bool
  | .process c' _ => c' == c
  | .endFrame c' => c' == c
  | cmd => actsOnLoneTime c cmd

/-- The command would mix the two interface levels: it acts past the partitioner of a chip that the program drives at partitioner
level (40_framework.md R125, 60_exceptions.md R241). R241 names PROCESS alone; that R125 covers the other commands that let `now`
stop tracking `elapsedTime`, and no more, is a DESIGN CHOICE, safe (log 12). -/
def State.mixesLevels (s : State) (cmd : Command) : Bool :=
  [Chip.pulseSaw, .pulseMul].any fun c => s.partitionerLevel c && actsPastPartitioner c cmd

/-! ## Construction and the driver -/

/-- Construction with parameters `cfg`, refused where a constraint of 00_scope.md R7 fails (60_exceptions.md R241). -/
def construct (cfg : Config) : Result :=
  if validConfig cfg then .next (State.initial cfg) else .refused .badConfiguration

/-- The command at the driver's position, if the driver has one left (10_state.md R21). -/
def fetch (s : State) : Option Command :=
  s.program[s.pos]?

/-- The driver's position advances by one per command (10_state.md R21). -/
def State.advance (s : State) : State :=
  { s with pos := s.pos + 1 }

/-- The refusal of a rejected command (60_exceptions.md R241). -/
def refusalOf : Rejection → Refusal
  | .negativeDelta => .negativeDelta
  | .valueOutOfRange => .valueOutOfRange

/-- The command list with `c` at place `n`; where the list is shorter, `c` also fills the places before it. -/
def placeCommand (n : Nat) (c : Command) (program : List Command) : List Command :=
  program.take n ++ List.replicate (n - program.length) c ++ c :: program.drop (n + 1)

end Sys2Proof.Machine
end

