-- ==== Sys2Proof/Machine/Partitioner.lean ====
section
/-! DEFINITION. The meanings of the time-slice partitioner's instructions (40_framework.md R115 to R119). -/

namespace Sys2Proof.Machine

/-- W: `process` up to the timestamp, then the write (40_framework.md R115). -/
def execW (c : Chip) (t : Nat) (a : Addr) (v : Byte) (s : State) : Result :=
  if t < s.now c then .refused .timestampBeforeNow else .next (chipWrite c a v (advanceTo c t s))

/-- EF: `process` up to the timestamp, then the end of frame (40_framework.md R116). -/
def execEf (c : Chip) (t : Nat) (s : State) : Result :=
  if t < s.now c then .refused .timestampBeforeNow else .next (frameEndAt c t s)

/-- R: the read alone, no `process` (40_framework.md R117). -/
def execR (c : Chip) (t : Nat) (a : Addr) (s : State) : Result :=
  if t < s.now c then .refused .timestampBeforeNow else .next (s.answer (chipRead c a s))

/-- RST: the chip's reset, then `now` is 0 (40_framework.md R118). -/
def execRst (c : Chip) (s : State) : Result :=
  .next ((chipReset c s).setNow c 0)

end Sys2Proof.Machine
end

