-- ==== Sys2Proof/Machine/Pulse.lean ====
section
/-! DEFINITION. The meanings of the pulse oscillators' instructions (41_pulse.md): the register writes of the four pulses and the
operations at the oscillator interface. -/

namespace Sys2Proof.Machine

/-- P1_CTRL, PulseSawChip pulse 1 (41_pulse.md R130). -/
def execP1Ctrl (v : Byte) (s : State) : Result :=
  .next (writeCtrl .psP1 v s)

/-- P1_FREQ_LO, PulseSawChip pulse 1 (41_pulse.md R131). -/
def execP1FreqLo (v : Byte) (s : State) : Result :=
  .next (writeFreqLo (.pulse .psP1) v s)

/-- P1_FREQ_HI, PulseSawChip pulse 1 (41_pulse.md R132). -/
def execP1FreqHi (v : Byte) (s : State) : Result :=
  .next (writeFreqHi (.pulse .psP1) v s)

/-- P2_CTRL, PulseSawChip pulse 2 (41_pulse.md R130). -/
def execP2Ctrl (v : Byte) (s : State) : Result :=
  .next (writeCtrl .psP2 v s)

/-- P2_FREQ_LO, PulseSawChip pulse 2 (41_pulse.md R131). -/
def execP2FreqLo (v : Byte) (s : State) : Result :=
  .next (writeFreqLo (.pulse .psP2) v s)

/-- P2_FREQ_HI, PulseSawChip pulse 2 (41_pulse.md R132). -/
def execP2FreqHi (v : Byte) (s : State) : Result :=
  .next (writeFreqHi (.pulse .psP2) v s)

/-- M1_CTRL, PulseMulChip pulse 1 (41_pulse.md R130). -/
def execM1Ctrl (v : Byte) (s : State) : Result :=
  .next (writeCtrl .pmP1 v s)

/-- M1_FREQ_LO, PulseMulChip pulse 1 (41_pulse.md R131). -/
def execM1FreqLo (v : Byte) (s : State) : Result :=
  .next (writeFreqLo (.pulse .pmP1) v s)

/-- M1_FREQ_HI, PulseMulChip pulse 1 (41_pulse.md R132). -/
def execM1FreqHi (v : Byte) (s : State) : Result :=
  .next (writeFreqHi (.pulse .pmP1) v s)

/-- M2_CTRL, PulseMulChip pulse 2 (41_pulse.md R130). -/
def execM2Ctrl (v : Byte) (s : State) : Result :=
  .next (writeCtrl .pmP2 v s)

/-- M2_FREQ_LO, PulseMulChip pulse 2 (41_pulse.md R131). -/
def execM2FreqLo (v : Byte) (s : State) : Result :=
  .next (writeFreqLo (.pulse .pmP2) v s)

/-- M2_FREQ_HI, PulseMulChip pulse 2 (41_pulse.md R132). -/
def execM2FreqHi (v : Byte) (s : State) : Result :=
  .next (writeFreqHi (.pulse .pmP2) v s)

/-- PULSE_WRITE_OTHER: an index that is no register's does nothing (41_pulse.md R133). -/
def execPulseWriteOther (_k : PulseId) (_n : Nat) (_v : Byte) (s : State) : Result :=
  .next s

/-- PULSE_PROCESS (41_pulse.md R134, 40_framework.md R103). -/
def execPulseProcess (k : PulseId) (d : Nat) (s : State) : Result :=
  .next (lone (oscProcess d) (.pulse k) s)

/-- PULSE_RESET (41_pulse.md R135). -/
def execPulseReset (k : PulseId) (s : State) : Result :=
  .next (lone oscReset (.pulse k) s)

/-- PULSE_ENDFRAME (41_pulse.md R136, 40_framework.md R114). -/
def execPulseEndFrame (k : PulseId) (s : State) : Result :=
  .next (lone oscEndFrame (.pulse k) s)

end Sys2Proof.Machine
end

