-- ==== Sys2Proof/Machine/PulseMul.lean ====
section
/-! DEFINITION. The meanings of the PulseMulChip's own instructions (44_pulsemul_chip.md). -/

namespace Sys2Proof.Machine

/-- MUL_A (44_pulsemul_chip.md R212). -/
def execMulA (v : Byte) (s : State) : Result :=
  .next (writeMulA v s)

/-- MUL_B (44_pulsemul_chip.md R212). -/
def execMulB (v : Byte) (s : State) : Result :=
  .next (writeMulB v s)

/-- AUX_WRITE (44_pulsemul_chip.md R213). A fault where there is no such byte (log 20). -/
def execAuxWrite (n : Nat) (v : Byte) (s : State) : Result :=
  if n < s.cfg.pmAuxSize then .next (writeAux n v s) else .fault .auxIndexOutside

/-- PM_WRITE_UNMAPPED: a no-op (44_pulsemul_chip.md R211, 20_memory.md R58). -/
def execPmWriteUnmapped (_a : Addr) (_v : Byte) (s : State) : Result :=
  .next s

/-- MUL_LO_READ (44_pulsemul_chip.md R215). -/
def execMulLoRead (s : State) : Result :=
  .next (s.answer (mulLoResult s))

/-- MUL_HI_READ (44_pulsemul_chip.md R216). -/
def execMulHiRead (s : State) : Result :=
  .next (s.answer (mulHiResult s))

/-- AUX_READ (44_pulsemul_chip.md R217). A fault where there is no such byte (log 20). -/
def execAuxRead (n : Nat) (s : State) : Result :=
  if n < s.cfg.pmAuxSize then .next (s.answer (auxResult n s)) else .fault .auxIndexOutside

/-- PM_READ_UNMAPPED: value 0, not mapped (44_pulsemul_chip.md R214, 20_memory.md R58). -/
def execPmReadUnmapped (_a : Addr) (s : State) : Result :=
  .next (s.answer unmappedResult)

/-- PM_PROCESS (44_pulsemul_chip.md R218). That a program may not mix it with partitioner commands is a rule about its commands
(40_framework.md R125): `perform` checks it. -/
def execPmProcess (d : Nat) (s : State) : Result :=
  .next (chipProcess .pulseMul d s)

/-- PM_RESET: `reset()` on the chip and on its partitioner (30_encoding.md R72, 44_pulsemul_chip.md R220, 10_state.md R42, log
23). -/
def execPmReset (s : State) : Result :=
  .next ((chipReset .pulseMul s).setNow .pulseMul 0)

/-- PM_ENDFRAME (44_pulsemul_chip.md R219). -/
def execPmEndFrame (s : State) : Result :=
  .next (chipEndFrame .pulseMul s)

end Sys2Proof.Machine
end

