-- ==== Sys2Proof/Machine/PulseSaw.lean ====
section
/-! DEFINITION. The meanings of the PulseSawChip's own instructions (43_pulsesaw_chip.md). -/

namespace Sys2Proof.Machine

/-- PS_WRITE_UNMAPPED: a no-op (43_pulsesaw_chip.md R191, 20_memory.md R58). -/
def execPsWriteUnmapped (_a : Addr) (_v : Byte) (s : State) : Result :=
  .next s

/-- PS_READ: never mapped (43_pulsesaw_chip.md R192). -/
def execPsRead (_a : Addr) (s : State) : Result :=
  .next (s.answer unmappedResult)

/-- PS_PROCESS (43_pulsesaw_chip.md R193). That a program may not mix it with partitioner commands is a rule about its commands
(40_framework.md R125): `perform` checks it. -/
def execPsProcess (d : Nat) (s : State) : Result :=
  .next (chipProcess .pulseSaw d s)

/-- PS_RESET: `reset()` on the chip and on its partitioner (30_encoding.md R72, 43_pulsesaw_chip.md R194, 10_state.md R42, log
23). -/
def execPsReset (s : State) : Result :=
  .next ((chipReset .pulseSaw s).setNow .pulseSaw 0)

/-- PS_ENDFRAME (43_pulsesaw_chip.md R195). -/
def execPsEndFrame (s : State) : Result :=
  .next (chipEndFrame .pulseSaw s)

end Sys2Proof.Machine
end

