-- ==== Sys2Proof/Machine/Sawtooth.lean ====
section
/-! DEFINITION. The meanings of the sawtooth's instructions (42_sawtooth.md): its register writes and the operations at the oscillator
interface. -/

namespace Sys2Proof.Machine

/-- SAW_RATE (42_sawtooth.md R160). -/
def execSawRate (v : Byte) (s : State) : Result :=
  .next (writeRate v s)

/-- SAW_FREQ_LO (42_sawtooth.md R161). -/
def execSawFreqLo (v : Byte) (s : State) : Result :=
  .next (writeFreqLo .saw v s)

/-- SAW_FREQ_HI (42_sawtooth.md R162). -/
def execSawFreqHi (v : Byte) (s : State) : Result :=
  .next (writeFreqHi .saw v s)

/-- SAW_WRITE_OTHER: an index that is no register's does nothing (42_sawtooth.md R163). -/
def execSawWriteOther (_n : Nat) (_v : Byte) (s : State) : Result :=
  .next s

/-- SAW_PROCESS (42_sawtooth.md R164, 40_framework.md R103). -/
def execSawProcess (d : Nat) (s : State) : Result :=
  .next (lone (oscProcess d) .saw s)

/-- SAW_RESET (42_sawtooth.md R165). -/
def execSawReset (s : State) : Result :=
  .next (lone oscReset .saw s)

/-- SAW_ENDFRAME (42_sawtooth.md R166, 40_framework.md R114). -/
def execSawEndFrame (s : State) : Result :=
  .next (lone oscEndFrame .saw s)

end Sys2Proof.Machine
end

