-- ==== Sys2Proof/Machine/Dispatch.lean ====
section
/-! DEFINITION. One arm per instruction: which definition gives it its meaning. -/

namespace Sys2Proof.Machine

def exec (i : Instr) (s : State) : Host.Outcome State Fault Refusal :=
  match i with
  | .p1Ctrl v => Sys2Proof.Machine.execP1Ctrl v s
  | .p1FreqLo v => Sys2Proof.Machine.execP1FreqLo v s
  | .p1FreqHi v => Sys2Proof.Machine.execP1FreqHi v s
  | .p2Ctrl v => Sys2Proof.Machine.execP2Ctrl v s
  | .p2FreqLo v => Sys2Proof.Machine.execP2FreqLo v s
  | .p2FreqHi v => Sys2Proof.Machine.execP2FreqHi v s
  | .sawRate v => Sys2Proof.Machine.execSawRate v s
  | .sawFreqLo v => Sys2Proof.Machine.execSawFreqLo v s
  | .sawFreqHi v => Sys2Proof.Machine.execSawFreqHi v s
  | .psWriteUnmapped a v => Sys2Proof.Machine.execPsWriteUnmapped a v s
  | .psRead a => Sys2Proof.Machine.execPsRead a s
  | .m1Ctrl v => Sys2Proof.Machine.execM1Ctrl v s
  | .m1FreqLo v => Sys2Proof.Machine.execM1FreqLo v s
  | .m1FreqHi v => Sys2Proof.Machine.execM1FreqHi v s
  | .m2Ctrl v => Sys2Proof.Machine.execM2Ctrl v s
  | .m2FreqLo v => Sys2Proof.Machine.execM2FreqLo v s
  | .m2FreqHi v => Sys2Proof.Machine.execM2FreqHi v s
  | .mulA v => Sys2Proof.Machine.execMulA v s
  | .mulB v => Sys2Proof.Machine.execMulB v s
  | .auxWrite n v => Sys2Proof.Machine.execAuxWrite n v s
  | .pmWriteUnmapped a v => Sys2Proof.Machine.execPmWriteUnmapped a v s
  | .mulLoRead => Sys2Proof.Machine.execMulLoRead s
  | .mulHiRead => Sys2Proof.Machine.execMulHiRead s
  | .auxRead n => Sys2Proof.Machine.execAuxRead n s
  | .pmReadUnmapped a => Sys2Proof.Machine.execPmReadUnmapped a s
  | .psProcess d => Sys2Proof.Machine.execPsProcess d s
  | .psReset => Sys2Proof.Machine.execPsReset s
  | .psEndFrame => Sys2Proof.Machine.execPsEndFrame s
  | .pmProcess d => Sys2Proof.Machine.execPmProcess d s
  | .pmReset => Sys2Proof.Machine.execPmReset s
  | .pmEndFrame => Sys2Proof.Machine.execPmEndFrame s
  | .w c t a v => Sys2Proof.Machine.execW c t a v s
  | .ef c t => Sys2Proof.Machine.execEf c t s
  | .r c t a => Sys2Proof.Machine.execR c t a s
  | .rst c => Sys2Proof.Machine.execRst c s
  | .pulseWriteOther k n v => Sys2Proof.Machine.execPulseWriteOther k n v s
  | .pulseProcess k d => Sys2Proof.Machine.execPulseProcess k d s
  | .pulseReset k => Sys2Proof.Machine.execPulseReset k s
  | .pulseEndFrame k => Sys2Proof.Machine.execPulseEndFrame k s
  | .sawWriteOther n v => Sys2Proof.Machine.execSawWriteOther n v s
  | .sawProcess d => Sys2Proof.Machine.execSawProcess d s
  | .sawReset => Sys2Proof.Machine.execSawReset s
  | .sawEndFrame => Sys2Proof.Machine.execSawEndFrame s

end Sys2Proof.Machine
end

