-- ==== Sys2Proof/Machine/Driver.lean ====
section
/-! DEFINITION. What the driver does with one command: decode it, refuse it by name (60_exceptions.md R241) or run its instruction,
and move on. -/

namespace Sys2Proof.Machine

/-- Moves the driver on after a completed instruction; a fault or a refusal ends the run (60_exceptions.md R241, R244). -/
def advanceResult : Result → Result
  | .next s => .next s.advance
  | .fault r => .fault r
  | .refused r => .refused r

/-- Performs one command. Where several conditions of 60_exceptions.md R241 hold of it at once, the spec names no order. The model
names NegativeDelta and ValueOutOfRange (no instruction decodes) first, then MixedLevels, then TimestampBeforeNow (the
instruction's own): DESIGN CHOICE, safe (log 24). -/
def perform (c : Command) (s : State) : Result :=
  match decode s.cfg c with
  | .ok i => if s.mixesLevels c then .refused .mixedLevels else advanceResult (exec i s)
  | .error e => .refused (refusalOf e)

end Sys2Proof.Machine
end

