-- ==== Sys2Proof/Machine/Step.lean ====
section
/-! DEFINITION. One step: the driver issues the command at its position (10_state.md R21), the command decodes to an instruction,
the instruction runs, and the position advances. Each command is one atomic step (20_memory.md R56). -/

namespace Sys2Proof.Machine

/-- One step of the machine. A configuration that breaks a constraint of 00_scope.md R7 is refused (60_exceptions.md R241, log
15), and that before its command is looked at: where several conditions of R241 hold at once the spec names no order (DESIGN
CHOICE, safe, log 24). Where the driver has no command left nothing happens (DESIGN CHOICE, safe, log 2). -/
def step (s : State) : Host.Outcome State Fault Refusal :=
  if validConfig s.cfg then
    match fetch s with
    | some c => perform c s
    | none => .next s
  else .refused .badConfiguration

/-- The state with a bus word as the driver's next command, on the chip `routeWord` gives it to (log 3). -/
def State.withFetchWord (s : State) (_nbits w : Nat) : State :=
  { s with program := placeCommand s.pos (.bus (routeWord s.cfg w) w) s.program }

end Sys2Proof.Machine
end

