-- ==== Sys2Proof/Machine/Assembler.lean ====
section
/-! DEFINITION. The assembler notation of 30_encoding.md R85 to R88, on lines in abstract form: register names, the commands a
line stands for, and the expansions of the pseudo-instructions. -/

namespace Sys2Proof.Machine

/-- Why a line stands for no command of a chip. -/
inductive AsmError where
  /-- A register name of the other chip, or `AUX+n` with `n` not below PM_AUX_SIZE (30_encoding.md R87). -/
  | unknownName
  /-- An address over 16 bits or a data value over 8 bits, which no bus word holds (R71). -/
  | valueOutOfRange
  /-- An operand of a pseudo-instruction outside its range (R88). -/
  | operandRange
deriving DecidableEq, Repr

/-- The address of a register name (30_encoding.md R87). -/
def regNameAddr (cfg : Config) : RegName → Nat
  | .ctrl k => oscBase cfg (.pulse k)
  | .rate => oscBase cfg .saw
  | .flo o => oscBase cfg o + 1
  | .fhi o => oscBase cfg o + 2
  | .mulLo => cfg.pmMulLo
  | .mulHi => cfg.pmMulHi
  | .aux n => cfg.pmAuxBase + n

/-- The chip a register name belongs to (30_encoding.md R87). -/
def regNameChip : RegName → Chip
  | .ctrl k => oscChip (.pulse k)
  | .rate => .pulseSaw
  | .flo o => oscChip o
  | .fhi o => oscChip o
  | .mulLo => .pulseMul
  | .mulHi => .pulseMul
  | .aux _ => .pulseMul

/-- A name of chip `c`: it is the chip's, and an `AUX+n` has `n` below PM_AUX_SIZE. -/
def knownName (cfg : Config) (c : Chip) (r : RegName) : Bool :=
  regNameChip r == c && match r with
    | .aux n => decide (n < cfg.pmAuxSize)
    | .ctrl _ => true
    | .rate => true
    | .flo _ => true
    | .fhi _ => true
    | .mulLo => true
    | .mulHi => true

/-- The address an operand stands for in a program of chip `c`. -/
def resolveAddr (cfg : Config) (c : Chip) : AsmAddr → Except AsmError Nat
  | .num n => .ok n
  | .reg r => if knownName cfg c r then .ok (regNameAddr cfg r) else .error .unknownName

/-- A bus write word, if the address and the data fit it (30_encoding.md R71). -/
def asmWrite (c : Chip) (v : Nat) (a : Nat) : Except AsmError (List Command) :=
  if a < 2 ^ 16 ∧ v < 2 ^ 8 then .ok [.bus c (busWriteWord a v)] else .error .valueOutOfRange

/-- A bus read word, if the address fits it (30_encoding.md R71). -/
def asmRead (c : Chip) (a : Nat) : Except AsmError (List Command) :=
  if a < 2 ^ 16 then .ok [.bus c (busReadWord a)] else .error .valueOutOfRange

/-- Partitioner writes at one time to named registers, in order (30_encoding.md R88). -/
def asmNamed (cfg : Config) (c : Chip) (t : Nat) (l : List (RegName × Nat)) : Except AsmError (List Command) :=
  if l.all (fun x => knownName cfg c x.1) then .ok (l.map fun x => .partWrite c t (regNameAddr cfg x.1) x.2)
  else .error .unknownName

/-- Operands in range, or `operandRange`. -/
def asmRange (p : Bool) (r : Except AsmError (List Command)) : Except AsmError (List Command) :=
  if p then r else .error .operandRange

/-- The commands a line of a program of chip `c` stands for (30_encoding.md R85, R86, R88). -/
def assemble (cfg : Config) (c : Chip) : AsmLine → Except AsmError (List Command)
  | .write a v => (resolveAddr cfg c a).bind (asmWrite c v)
  | .read a => (resolveAddr cfg c a).bind (asmRead c)
  | .process d => .ok [.process c d]
  | .reset => .ok [.reset c]
  | .endFrame => .ok [.endFrame c]
  | .atW t a v => (resolveAddr cfg c a).map fun n => [.partWrite c t n v]
  | .atR t a => (resolveAddr cfg c a).map fun n => [.partRead c t n]
  | .atEF t => .ok [.partEndFrame c t]
  | .rst => .ok [.partReset c]
  | .pctrl t k g d v =>
    asmRange (decide (g ≤ 1 ∧ 1 ≤ d ∧ d ≤ 8 ∧ v ≤ 15))
      (asmNamed cfg c t [(.ctrl k, (g <<< 7) ||| ((d - 1) <<< 4) ||| v)])
  | .freq t o f e =>
    asmRange (decide (f ≤ 4095 ∧ e ≤ 1))
      (asmNamed cfg c t [(.flo o, f &&& 0xFF), (.fhi o, (e <<< 7) ||| (f >>> 8))])
  | .rate t a => asmRange (decide (a ≤ 63)) (asmNamed cfg c t [(.rate, a)])
  | .keyOff t o fh => asmRange (decide (fh ≤ 15)) (asmNamed cfg c t [(.fhi o, fh)])
  | .silence t k => asmNamed cfg c t [(.ctrl k, 0x80)]

end Sys2Proof.Machine
end

