-- ==== Sys2Proof/Safety.lean ====
section
/-! DEFINITION. The terms the claims are stated in: what a step leaves unchanged, and the invariants of the machine. The block has
no error state (60_exceptions.md R240): a run is safe when no step is refused and none faults. -/

namespace Sys2Proof.Machine

/-! ## Frames -/

/-- The oscillator `o` is as it was, every field of it. -/
def OscKept (o : OscId) (s t : State) : Prop :=
  match o with
  | .pulse k => t.pulse k = s.pulse k
  | .saw => t.ps.saw = s.ps.saw

/-- Every oscillator not listed is as it was. -/
def OthersKept (touched : List OscId) (s t : State) : Prop :=
  ∀ o, o ∉ touched → OscKept o s t

/-- The multiplier's operands are as they were. -/
def MulKept (s t : State) : Prop :=
  t.pm.mul = s.pm.mul

/-- Every byte of the auxiliary memory reads as before. -/
def MemoryKept (s t : State) : Prop :=
  ∀ i, auxRead t.pm.aux i = auxRead s.pm.aux i

/-- Both partitioners' `now` are as they were. -/
def NowsKept (s t : State) : Prop :=
  t.psNow = s.psNow ∧ t.pmNow = s.pmNow

/-- The parameters, the driver's commands and its position are as they were. -/
def DriverKept (s t : State) : Prop :=
  t.cfg = s.cfg ∧ t.program = s.program ∧ t.pos = s.pos

/-- Every channel's trace is as it was. -/
def TracesKept (s t : State) : Prop :=
  ∀ ch, t.channelTrace ch = s.channelTrace ch

/-- Only the listed oscillators, the sink and the count of draws may have changed. -/
def OnlyOscillators (touched : List OscId) (s t : State) : Prop :=
  OthersKept touched s t ∧ MulKept s t ∧ MemoryKept s t ∧ NowsKept s t ∧ DriverKept s t ∧ t.reads = s.reads

/-- The result `r` was returned to the driver and nothing else happened (20_memory.md R57). -/
def OnlyAnswered (r : ReadResult) (s t : State) : Prop :=
  t.reads = s.reads ++ [r] ∧ t.sink = s.sink ∧ OthersKept [] s t ∧ MulKept s t ∧ MemoryKept s t ∧ NowsKept s t ∧
    DriverKept s t ∧ t.draws = s.draws

/-- The records that a channel's trace has gained. -/
def Gained (ch : Nat) (new : List Record) (s t : State) : Prop :=
  t.channelTrace ch = s.channelTrace ch ++ new

/-- The fields that only the oscillator's type has are as they were. -/
def WaveKept (o : OscId) (s t : State) : Prop :=
  match o with
  | .pulse k => (t.pulse k).toPulseWave = (s.pulse k).toPulseWave
  | .saw => t.ps.saw.toSawWave = s.ps.saw.toSawWave

/-- Every field of the oscillator is 0 but its channel identifier (10_state.md R42). -/
def ZeroOsc (o : OscId) (ch : Nat) (t : State) : Prop :=
  match o with
  | .pulse k =>
    t.pulse k =
      { enabled := false, freqLow := 0, freqHigh := 0, frequency := 0, divider := 0, elapsedTime := 0, ch := ch,
        gate := false, dutyCycle := 0, volume := 0, dutyPosition := 0 }
  | .saw =>
    t.ps.saw =
      { enabled := false, freqLow := 0, freqHigh := 0, frequency := 0, divider := 0, elapsedTime := 0, ch := ch,
        phaseAccumulator := 0, phaseInput := 0, resetSequence := 0 }

/-- `m` is what `process(d)` on the chip makes of `s`: each of its oscillators is as `process(d)` on it alone leaves it, every
channel gains the records that those calls emit, and nothing else but the partitioners' `now` may have changed
(43_pulsesaw_chip.md R193, R196, 44_pulsemul_chip.md R218). -/
def ChipProcessed (c : Chip) (d : Nat) (s m : State) : Prop :=
  ∃ recs : OscId → List Record,
    (∀ o ∈ oscillators c, ∃ x, exec (oscProcessInstr o d) s = .next x ∧ OscKept o x m ∧
      (∀ ch, Gained ch (ofChannel ch (recs o)) s x) ∧ ∀ r ∈ recs o, r.channel = (s.channel o).ch) ∧
    (∀ ch, Gained ch (ofChannel ch ((oscillators c).flatMap recs)) s m) ∧
    OthersKept (oscillators c) s m ∧ MulKept s m ∧ MemoryKept s m ∧ DriverKept s m ∧ m.reads = s.reads

/-! ## Invariants -/

/-- `frequency == freqLow | (freqHigh << 8)` for every oscillator (10_state.md R23). -/
def FrequencyInvariant (s : State) : Prop :=
  ∀ o, (s.channel o).frequency.toNat = (s.channel o).freqLow.toNat + 256 * (s.channel o).freqHigh.toNat

/-- `resetSequence` is in 0..13 (10_state.md R28). -/
def SequenceInvariant (s : State) : Prop :=
  s.ps.saw.resetSequence.toNat ≤ 13

/-- Every divider is in 0..4096 (10_state.md R22, R29). -/
def DividerInvariant (s : State) : Prop :=
  ∀ o, (s.channel o).divider ≤ 4096

/-- `dutyCycle` is in 0..8, and is 0 only with `gate` and `volume` 0, as reset leaves them (10_state.md R22, 41_pulse.md R135). -/
def DutyInvariant (s : State) : Prop :=
  ∀ k, (s.pulse k).dutyCycle.toNat ≤ 8 ∧
    ((s.pulse k).dutyCycle = 0 → (s.pulse k).gate = false ∧ (s.pulse k).volume = 0)

/-- The auxiliary memory is in canonical form, the model's own (DESIGN CHOICE, safe, log 7). -/
def MemoryInvariant (s : State) : Prop :=
  Memory.wf s.cfg.pmAuxSize s.pm.aux = true

/-- The channel identifier the parameters give an oscillator (10_state.md R31, R33, R34). -/
def boundChannel (cfg : Config) : OscId → Nat
  | .pulse .psP1 => cfg.chPsP1
  | .pulse .psP2 => cfg.chPsP2
  | .saw => cfg.chPsSaw
  | .pulse .pmP1 => cfg.chPmP1
  | .pulse .pmP2 => cfg.chPmP2

/-- The parameters keep the constraints of 00_scope.md R7, and every oscillator carries the channel identifier it was constructed
with (10_state.md R31). -/
def ChannelsInvariant (s : State) : Prop :=
  validConfig s.cfg = true ∧ ∀ o, (s.channel o).ch = boundChannel s.cfg o

/-- Different blocks of one batch hold records of different channels. Batches are the model's own form of the event trace
(DESIGN CHOICE, safe, log 18, with log 8). -/
def Batch.Tidy (b : Batch) : Prop :=
  b.blocks.Pairwise fun x y => ∀ r ∈ x, ∀ r' ∈ y, r.channel ≠ r'.channel

/-- Every batch of the sink's trace is tidy. -/
def SinkInvariant (s : State) : Prop :=
  ∀ b ∈ s.sink, b.Tidy

/-- The largest level an oscillator emits (40_framework.md R111). -/
def topLevel : OscId → Nat
  | .pulse _ => 15
  | .saw => 31

/-- A record's level, if it has one, is at most `n`. -/
def LevelAtMost (n : Nat) : Record → Prop
  | .level _ l _ => l ≤ n
  | .frameEnd _ _ => True

/-- Every level in an oscillator's channel trace is in its range (40_framework.md R111). -/
def LevelsInvariant (s : State) : Prop :=
  ∀ o, ∀ r ∈ s.channelTrace (boundChannel s.cfg o), LevelAtMost (topLevel o) r

/-- All oscillators of a chip have equal `elapsedTime` (10_state.md R41). -/
def EqualTimes (c : Chip) (s : State) : Prop :=
  ∀ o ∈ oscillators c, ∀ o' ∈ oscillators c, (s.channel o).elapsedTime = (s.channel o').elapsedTime

/-- The chip's partitioner tracks the `elapsedTime` of each of its oscillators (10_state.md R37, R41). -/
def TimesTrackNow (c : Chip) (s : State) : Prop :=
  ∀ o ∈ oscillators c, (s.channel o).elapsedTime = s.now c

/-- The program leaves the chip's time to calls that reach all of its oscillators. -/
def NoLoneTime (c : Chip) (s : State) : Prop :=
  ∀ cmd ∈ s.program, actsOnLoneTime c cmd = false

/-- No command acts on the chip's time past its partitioner: the program is at partitioner level for the chip, where such a command
is refused (40_framework.md R125, log 12), or holds none. -/
def PartitionerDriven (c : Chip) (s : State) : Prop :=
  s.partitionerLevel c = true ∨ ∀ cmd ∈ s.program, actsPastPartitioner c cmd = false

/-- Two states that differ in nothing but which orders FANOUT_ORDER has drawn. -/
def SameButDraws (s t : State) : Prop :=
  t.cfg = s.cfg ∧ t.ps = s.ps ∧ t.psNow = s.psNow ∧ t.pm = s.pm ∧ t.pmNow = s.pmNow ∧ t.reads = s.reads ∧
    t.program = s.program ∧ t.pos = s.pos ∧
    t.sink.map (fun b => (b.command, b.blocks)) = s.sink.map (fun b => (b.command, b.blocks))

/-- The oscillator counts down: `enabled == 1` and `frequency > 0` (10_state.md R25). -/
def Armed (s : State) (o : OscId) : Prop :=
  (s.channel o).enabled = true ∧ 0 < (s.channel o).frequency.toNat

/-- The number of expiries of `process(d)` on an Armed oscillator with divider `v` and frequency `f` (40_framework.md R106). -/
def expiries (v f d : Nat) : Nat :=
  if d < v then 0 else 1 + (d - v) / (f + 1)

/-- The number of expiries of `process(d)` in any operating state (40_framework.md R102, R106). -/
def expiryCount (d : Nat) (c : Channel) : Nat :=
  if c.enabled = true ∧ 0 < c.frequency.toNat then expiries c.divider c.frequency.toNat d else 0

/-- The time of the expiry counted `j` from 0 (40_framework.md R106). -/
def expiryTime (c : Channel) (j : Nat) : Nat :=
  c.elapsedTime + c.divider + j * (c.frequency.toNat + 1)

/-- The common fields after `process(d)` in any operating state, in closed form (40_framework.md R101, R102, R106). -/
def afterProcess (d : Nat) (c : Channel) : Channel :=
  { c with
    divider :=
      if c.enabled = false ∨ c.frequency = 0 then c.divider
      else if d < c.divider then c.divider - d
      else c.frequency.toNat + 1 - (d - c.divider) % (c.frequency.toNat + 1)
    elapsedTime := c.elapsedTime + d }

/-- One sawtooth expiry as arithmetic on (accumulator, sequence), with increment `p` (42_sawtooth.md R164). -/
def sawStep (p : Nat) (x : Nat × Nat) : Nat × Nat :=
  if x.2 = 13 then (0, 0) else (if x.2 % 2 = 1 then (x.1 + p) % 256 else x.1, x.2 + 1)

/-- The sawtooth's accumulator and sequence as numbers. -/
def sawPair (s : State) : Nat × Nat :=
  (s.ps.saw.phaseAccumulator.toNat, s.ps.saw.resetSequence.toNat)

end Sys2Proof.Machine
end

