-- ==== Sys2Proof/Certificates/Slice0/Obligations.lean ====
section
/-! DEFINITION. The statements for the provers. Each docstring names the rules of spec/ it formalises. -/

open Sys2Proof Sys2Proof.Machine

/-! ## Register writes -/

/-- P1_CTRL, P2_CTRL, M1_CTRL and M2_CTRL (41_pulse.md R130, 30_encoding.md R74): the three fields, the record of a write that
leaves the gate set, everything else as it was, and the level of every later expiry while the gate stays set. -/
def Obligations.PulseCtrlWrite : Prop :=
  ∀ (k : PulseId) (v : Byte) (s : State), ∃ t, exec (pulseCtrlInstr k v) s = .next t ∧
    (t.pulse k).gate = decide (128 ≤ v.toNat) ∧
    (t.pulse k).dutyCycle.toNat = v.toNat / 16 % 8 + 1 ∧
    (t.pulse k).volume.toNat = v.toNat % 16 ∧
    (t.pulse k).dutyPosition = (s.pulse k).dutyPosition ∧
    (t.pulse k).toChannel = (s.pulse k).toChannel ∧
    (∀ ch, Gained ch (if 128 ≤ v.toNat ∧ ch = (s.pulse k).ch then [.level ch (v.toNat % 16) (s.pulse k).elapsedTime] else [])
      s t) ∧
    OnlyOscillators [.pulse k] s t ∧ t.draws = s.draws ∧
    (128 ≤ v.toNat → ∀ d, ∃ u new, exec (.pulseProcess k d) t = .next u ∧ (∀ ch, Gained ch (ofChannel ch new) t u) ∧
      ∀ r ∈ new, r = .level (s.pulse k).ch (v.toNat % 16) r.time)

/-- P1_FREQ_LO, P2_FREQ_LO, M1_FREQ_LO, M2_FREQ_LO and SAW_FREQ_LO (41_pulse.md R131, 42_sawtooth.md R161, 30_encoding.md R75). -/
def Obligations.FreqLoWrite : Prop :=
  ∀ (o : OscId) (v : Byte) (s : State), ∃ t, exec (freqLoInstr o v) s = .next t ∧
    (t.channel o).freqLow = v ∧
    (t.channel o).frequency.toNat = v.toNat + 256 * (s.channel o).freqHigh.toNat ∧
    (t.channel o).freqHigh = (s.channel o).freqHigh ∧
    (t.channel o).enabled = (s.channel o).enabled ∧
    (t.channel o).divider = (s.channel o).divider ∧
    (t.channel o).elapsedTime = (s.channel o).elapsedTime ∧
    (t.channel o).ch = (s.channel o).ch ∧
    WaveKept o s t ∧ t.sink = s.sink ∧ OnlyOscillators [o] s t ∧ t.draws = s.draws

/-- P1_FREQ_HI, P2_FREQ_HI, M1_FREQ_HI, M2_FREQ_HI and SAW_FREQ_HI (41_pulse.md R132, 42_sawtooth.md R162, 30_encoding.md R76):
bits 6:4 are ignored. -/
def Obligations.FreqHiWrite : Prop :=
  ∀ (o : OscId) (v : Byte) (s : State), ∃ t, exec (freqHiInstr o v) s = .next t ∧
    (t.channel o).enabled = decide (128 ≤ v.toNat) ∧
    (t.channel o).freqHigh.toNat = v.toNat % 16 ∧
    (t.channel o).frequency.toNat = (s.channel o).freqLow.toNat + 256 * (v.toNat % 16) ∧
    (t.channel o).freqLow = (s.channel o).freqLow ∧
    (t.channel o).divider = (s.channel o).divider ∧
    (t.channel o).elapsedTime = (s.channel o).elapsedTime ∧
    (t.channel o).ch = (s.channel o).ch ∧
    WaveKept o s t ∧ t.sink = s.sink ∧ OnlyOscillators [o] s t ∧ t.draws = s.draws

/-- SAW_RATE (42_sawtooth.md R160, 30_encoding.md R77): bits 7:6 are ignored, nothing is emitted. -/
def Obligations.SawRateWrite : Prop :=
  ∀ (v : Byte) (s : State), ∃ t, exec (.sawRate v) s = .next t ∧
    t.ps.saw.phaseInput.toNat = v.toNat % 64 ∧
    t.ps.saw.phaseAccumulator = s.ps.saw.phaseAccumulator ∧
    t.ps.saw.resetSequence = s.ps.saw.resetSequence ∧
    t.ps.saw.toChannel = s.ps.saw.toChannel ∧
    t.sink = s.sink ∧ OnlyOscillators [.saw] s t ∧ t.draws = s.draws

/-- PULSE_WRITE_OTHER and SAW_WRITE_OTHER (41_pulse.md R133, 42_sawtooth.md R163): an oscillator-level write of any index but 0, 1
and 2 is that instruction, it changes nothing, and no bus word of either chip reaches it. For the sawtooth the no-op is the spec's
own decision D19. -/
def Obligations.OtherIndexWrites : Prop :=
  ∀ (o : OscId) (n : Nat) (v : Byte) (s : State), 3 ≤ n →
    decode s.cfg (.oscWrite o n v.toNat) = .ok (otherInstr o n v) ∧ exec (otherInstr o n v) s = .next s ∧
    (validConfig s.cfg = true → ∀ c w, decode s.cfg (.bus c w) ≠ .ok (otherInstr o n v))

/-- PS_WRITE_UNMAPPED and PM_WRITE_UNMAPPED (43_pulsesaw_chip.md R191, 44_pulsemul_chip.md R211, 20_memory.md R58): a bus write at
an address no component of the chip claims is that instruction, and it changes nothing. -/
def Obligations.UnmappedWrites : Prop :=
  ∀ (a : Addr) (v : Byte) (s : State),
    ((∀ r ∈ psRegions s.cfg, ¬ (r.1 ≤ a.toNat ∧ a.toNat < r.1 + r.2)) →
      decode s.cfg (.bus .pulseSaw (busWriteWord a.toNat v.toNat)) = .ok (.psWriteUnmapped a v) ∧
      exec (.psWriteUnmapped a v) s = .next s) ∧
    ((∀ r ∈ pmRegions s.cfg, ¬ (r.1 ≤ a.toNat ∧ a.toNat < r.1 + r.2)) →
      decode s.cfg (.bus .pulseMul (busWriteWord a.toNat v.toNat)) = .ok (.pmWriteUnmapped a v) ∧
      exec (.pmWriteUnmapped a v) s = .next s)

/-! ## Reads -/

/-- PS_READ (43_pulsesaw_chip.md R192): a read word at any address, whatever its `V`, is never mapped and changes no state. The
value that comes with it is left out: no claim may depend on it (93_implementation_defined.md U1, log 16). -/
def Obligations.PsReadNeverMapped : Prop :=
  ∀ (a : Addr) (v : Byte) (s : State),
    decode s.cfg (.bus .pulseSaw (busReadWord a.toNat + v.toNat)) = .ok (.psRead a) ∧
    ∃ t r, exec (.psRead a) s = .next t ∧ OnlyAnswered r s t ∧ r.mapped = false

/-- PM_READ_UNMAPPED (44_pulsemul_chip.md R214, 20_memory.md R58): a read at an address that is neither a multiplier address nor in
the auxiliary memory, a pulse register's among them, is not mapped and changes no state. The value that comes with it is left out:
no claim may depend on it (93_implementation_defined.md U1, log 16). -/
def Obligations.PmReadUnmapped : Prop :=
  ∀ (a : Addr) (v : Byte) (s : State),
    a.toNat ≠ s.cfg.pmMulLo → a.toNat ≠ s.cfg.pmMulHi →
    ¬ (s.cfg.pmAuxBase ≤ a.toNat ∧ a.toNat < s.cfg.pmAuxBase + s.cfg.pmAuxSize) →
      decode s.cfg (.bus .pulseMul (busReadWord a.toNat + v.toNat)) = .ok (.pmReadUnmapped a) ∧
      ∃ t r, exec (.pmReadUnmapped a) s = .next t ∧ OnlyAnswered r s t ∧ r.mapped = false

/-- MUL_A and MUL_B (44_pulsemul_chip.md R212): one operand is written, the other keeps its value, nothing is emitted. -/
def Obligations.MulOperandWrites : Prop :=
  ∀ (v : Byte) (s : State),
    (∃ t, exec (.mulA v) s = .next t ∧ t.pm.mul.mulA = v ∧ t.pm.mul.mulB = s.pm.mul.mulB ∧ OthersKept [] s t ∧
      MemoryKept s t ∧ NowsKept s t ∧ DriverKept s t ∧ t.reads = s.reads ∧ t.sink = s.sink ∧ t.draws = s.draws) ∧
    (∃ t, exec (.mulB v) s = .next t ∧ t.pm.mul.mulB = v ∧ t.pm.mul.mulA = s.pm.mul.mulA ∧ OthersKept [] s t ∧
      MemoryKept s t ∧ NowsKept s t ∧ DriverKept s t ∧ t.reads = s.reads ∧ t.sink = s.sink ∧ t.draws = s.draws)

/-- MUL_LO_READ and MUL_HI_READ (44_pulsemul_chip.md R215, R216): the two bytes of the exact product of the current operands, with
no side effect. That the product is computed at each read, from operands that may change between two, is the spec's own decision
D9 (log 17), and that a read changes nothing is its decision D10. -/
def Obligations.MulProductReads : Prop :=
  ∀ s : State, ∃ lo hi : Byte, ∃ t u,
    exec .mulLoRead s = .next t ∧ OnlyAnswered { value := lo, mapped := true } s t ∧
    exec .mulHiRead s = .next u ∧ OnlyAnswered { value := hi, mapped := true } s u ∧
    lo.toNat = s.pm.mul.mulA.toNat * s.pm.mul.mulB.toNat % 256 ∧
    hi.toNat = s.pm.mul.mulA.toNat * s.pm.mul.mulB.toNat / 256 ∧
    lo.toNat + 256 * hi.toNat = s.pm.mul.mulA.toNat * s.pm.mul.mulB.toNat

/-- AUX_WRITE (44_pulsemul_chip.md R213): the addressed byte reads as the stored value, no other byte changes, and there is no other
effect. -/
def Obligations.AuxWriteStores : Prop :=
  ∀ (n : Nat) (v : Byte) (s : State), n < s.cfg.pmAuxSize → ∃ t, exec (.auxWrite n v) s = .next t ∧
    auxRead t.pm.aux n = v ∧ (∀ j, j ≠ n → auxRead t.pm.aux j = auxRead s.pm.aux j) ∧
    OthersKept [] s t ∧ MulKept s t ∧ NowsKept s t ∧ DriverKept s t ∧ t.reads = s.reads ∧ t.sink = s.sink ∧
    t.draws = s.draws

/-- AUX_READ (44_pulsemul_chip.md R217, 20_memory.md R61): the byte read is the one the last AUX_WRITE stored there, a byte never
written answers its AUX_INIT draw (the spec's own decision D8, log 7), and the read changes no state. -/
def Obligations.AuxReadLoads : Prop :=
  ∀ (n : Nat) (s : State), n < s.cfg.pmAuxSize →
    (∃ t, exec (.auxRead n) s = .next t ∧ OnlyAnswered { value := auxRead s.pm.aux n, mapped := true } s t) ∧
    (∀ v t, exec (.auxWrite n v) s = .next t →
      ∃ u, exec (.auxRead n) t = .next u ∧ OnlyAnswered { value := v, mapped := true } t u) ∧
    (Memory.lookup n s.pm.aux = none →
      ∃ t, exec (.auxRead n) s = .next t ∧ OnlyAnswered { value := Config.auxInit n, mapped := true } s t)

/-- AUX_WRITE and AUX_READ at an index the memory has no byte for, which no command decodes to, fault: the MODEL's choice (log 20),
from 10_state.md R36, which names the bytes `aux[0 .. PM_AUX_SIZE-1]`. -/
def Obligations.AuxIndexOutsideFaults : Prop :=
  ∀ (n : Nat) (v : Byte) (s : State), s.cfg.pmAuxSize ≤ n →
    exec (.auxWrite n v) s = .fault .auxIndexOutside ∧ exec (.auxRead n) s = .fault .auxIndexOutside ∧
    ∀ cmd i, decode s.cfg cmd = .ok i → i ≠ .auxWrite n v ∧ i ≠ .auxRead n

/-! ## process on an oscillator -/

/-- PULSE_PROCESS and SAW_PROCESS on an oscillator that is Disabled or Idle (40_framework.md R102): only `elapsedTime` grows. -/
def Obligations.ProcessGuard : Prop :=
  ∀ (o : OscId) (d : Nat) (s : State), (s.channel o).enabled = false ∨ (s.channel o).frequency = 0 →
    ∃ t, exec (oscProcessInstr o d) s = .next t ∧
      t.channel o = { s.channel o with elapsedTime := (s.channel o).elapsedTime + d } ∧
      WaveKept o s t ∧ t.sink = s.sink ∧ OnlyOscillators [o] s t ∧ t.draws = s.draws

/-- PULSE_PROCESS and SAW_PROCESS on an Armed oscillator: the exact expiry count, the time of each expiry and the state left
(40_framework.md R106, which the spec marks as derived from R103 and R104). -/
def Obligations.ExpiryCountAndTimes : Prop :=
  ∀ (o : OscId) (d : Nat) (s : State), Armed s o →
    ∃ t, exec (oscProcessInstr o d) s = .next t ∧ OnlyOscillators [o] s t ∧ t.draws = s.draws ∧
      (d < (s.channel o).divider →
        t.channel o =
          { s.channel o with divider := (s.channel o).divider - d, elapsedTime := (s.channel o).elapsedTime + d } ∧
        WaveKept o s t ∧ t.sink = s.sink) ∧
      ((s.channel o).divider ≤ d →
        t.channel o =
          { s.channel o with
            divider := (s.channel o).frequency.toNat + 1 -
              (d - (s.channel o).divider) % ((s.channel o).frequency.toNat + 1)
            elapsedTime := (s.channel o).elapsedTime + d } ∧
        ∃ new, (∀ ch, Gained ch (ofChannel ch new) s t) ∧ (∀ r ∈ new, ∃ l, r = .level (s.channel o).ch l r.time) ∧
          new.map Record.time =
            (List.range (1 + (d - (s.channel o).divider) / ((s.channel o).frequency.toNat + 1))).map fun j =>
              (s.channel o).elapsedTime + (s.channel o).divider + j * ((s.channel o).frequency.toNat + 1))

/-- PULSE_PROCESS in every operating state (41_pulse.md R134, 40_framework.md R103, with the count and the times of R106, which the
spec marks as derived): the duty position steps once per expiry, 15 to 0, the level of each
expiry compares the position after the step, and where the pulse is not Armed nothing is emitted and the position stays. -/
def Obligations.PulseProcess : Prop :=
  ∀ (k : PulseId) (d : Nat) (s : State), ∃ t, exec (.pulseProcess k d) s = .next t ∧
    (t.pulse k).toChannel = afterProcess d (s.pulse k).toChannel ∧
    (t.pulse k).gate = (s.pulse k).gate ∧ (t.pulse k).dutyCycle = (s.pulse k).dutyCycle ∧
    (t.pulse k).volume = (s.pulse k).volume ∧
    (t.pulse k).dutyPosition.toNat =
      ((s.pulse k).dutyPosition.toNat + expiryCount d (s.pulse k).toChannel) % 16 ∧
    (∀ ch, Gained ch (ofChannel ch
      ((List.range (expiryCount d (s.pulse k).toChannel)).map fun j =>
        .level (s.pulse k).ch
          (if (s.pulse k).gate = true ∨
              (s.pulse k).dutyCycle.toNat ≤ ((s.pulse k).dutyPosition.toNat + (j + 1)) % 16 then
            (s.pulse k).volume.toNat else 0)
          (expiryTime (s.pulse k).toChannel j))) s t) ∧
    OnlyOscillators [.pulse k] s t ∧ t.draws = s.draws

/-- SAW_PROCESS in every operating state (42_sawtooth.md R164, 40_framework.md R103, with the count and the times of R106, which the
spec marks as derived): each expiry adds `phaseInput` modulo 256 on the odd steps, the 14th
step forces zero before the emission, the level is the top 5 bits, and where the sawtooth is not Armed nothing moves but time. -/
def Obligations.SawProcess : Prop :=
  ∀ (d : Nat) (s : State), SequenceInvariant s → ∃ t, exec (.sawProcess d) s = .next t ∧
    t.ps.saw.toChannel = afterProcess d s.ps.saw.toChannel ∧
    t.ps.saw.phaseInput = s.ps.saw.phaseInput ∧
    sawPair t = (sawStep s.ps.saw.phaseInput.toNat)^[expiryCount d s.ps.saw.toChannel] (sawPair s) ∧
    (∀ ch, Gained ch (ofChannel ch
      ((List.range (expiryCount d s.ps.saw.toChannel)).map fun j =>
        .level s.ps.saw.ch (((sawStep s.ps.saw.phaseInput.toNat)^[j + 1] (sawPair s)).1 / 8)
          (expiryTime s.ps.saw.toChannel j))) s t) ∧
    OnlyOscillators [.saw] s t ∧ t.draws = s.draws

/-- The 14-expiry cycle (42_sawtooth.md R167, which the spec marks as derived from R164). From `resetSequence = 0`, each of the first 14 expiries leaves the accumulator and the
sequence of the rule's table and emits its level, whatever `phaseInput` and the accumulator were. From any start, 14 expiries
return the sequence, and bring the accumulator to the value that many expiries from zero produce. -/
def Obligations.SawFourteenExpiries : Prop :=
  (∀ (n d : Nat) (s : State), Armed s .saw → s.ps.saw.resetSequence = 0 → n ≤ 14 →
    expiries s.ps.saw.divider s.ps.saw.frequency.toNat d = n →
    ∃ t, exec (.sawProcess d) s = .next t ∧
      t.ps.saw.phaseAccumulator.toNat =
        (if n = 14 then 0 else (s.ps.saw.phaseAccumulator.toNat + n / 2 * s.ps.saw.phaseInput.toNat) % 256) ∧
      t.ps.saw.resetSequence.toNat = n % 14 ∧
      ∀ ch, Gained ch (ofChannel ch
        ((List.range n).map fun j =>
          .level s.ps.saw.ch
            (if j = 13 then 0
             else (s.ps.saw.phaseAccumulator.toNat + (j + 1) / 2 * s.ps.saw.phaseInput.toNat) % 256 / 8)
            (expiryTime s.ps.saw.toChannel j))) s t) ∧
  (∀ (d : Nat) (s : State), Armed s .saw → SequenceInvariant s →
    expiries s.ps.saw.divider s.ps.saw.frequency.toNat d = 14 →
    ∃ t, exec (.sawProcess d) s = .next t ∧ t.ps.saw.resetSequence = s.ps.saw.resetSequence ∧
      sawPair t = (sawStep s.ps.saw.phaseInput.toNat)^[s.ps.saw.resetSequence.toNat] (0, 0))

/-- Batching invariance of an oscillator (40_framework.md R110, which the spec marks as derived from R106): `process(a)` then `process(b)` is `process(a + b)`, in state and in
events, for every split and in every operating state. -/
def Obligations.BatchingInvariance : Prop :=
  ∀ (o : OscId) (a b : Nat) (s : State), ∃ t u w,
    exec (oscProcessInstr o a) s = .next t ∧ exec (oscProcessInstr o b) t = .next u ∧
    exec (oscProcessInstr o (a + b)) s = .next w ∧ OscKept o u w ∧ TracesKept u w

/-- Batching invariance of a chip (40_framework.md R110, which the spec marks as derived from R106, 43_pulsesaw_chip.md R193,
44_pulsemul_chip.md R218): all oscillators of the chip and every channel's trace. -/
def Obligations.ChipBatchingInvariance : Prop :=
  ∀ (c : Chip) (a b : Nat) (s : State), ChannelsInvariant s → ∃ t u w,
    exec (processInstr c a) s = .next t ∧ exec (processInstr c b) t = .next u ∧
    exec (processInstr c (a + b)) s = .next w ∧ OthersKept [] u w ∧ TracesKept u w

/-- The bound on the passes of the drain (40_framework.md R108): each pass emits one record, and there are at most `1 + d / 2`. -/
def Obligations.PassBound : Prop :=
  ∀ (o : OscId) (d : Nat) (s : State), ∃ t new, exec (oscProcessInstr o d) s = .next t ∧
    (∀ ch, Gained ch (ofChannel ch new) s t) ∧ (∀ r ∈ new, r.channel = (s.channel o).ch) ∧ new.length ≤ 1 + d / 2

/-- The divider after `process` on an Armed oscillator (40_framework.md R109, 10_state.md R29): at least 1, and at most
`frequency + 1` once an expiry has reloaded it, or where it was so before. Otherwise it is what is left of a countdown from an older
frequency, which R29 and R266 let exceed `frequency + 1`; R109's upper bound does not hold there (log 21). -/
def Obligations.DividerAfterProcess : Prop :=
  ∀ (o : OscId) (d : Nat) (s : State), Armed s o → ∃ t, exec (oscProcessInstr o d) s = .next t ∧
    1 ≤ (t.channel o).divider ∧
    ((s.channel o).divider ≤ d ∨ (s.channel o).divider ≤ (s.channel o).frequency.toNat + 1 →
      (t.channel o).divider ≤ (s.channel o).frequency.toNat + 1) ∧
    (d < (s.channel o).divider → (t.channel o).divider = (s.channel o).divider - d)

/-- The zero divider (40_framework.md R107, 70_reset_and_hazards.md R264): an Armed oscillator whose divider is 0 takes one expiry
at once in any `process(d)`, stamped with the current `elapsedTime`; in `process(0)` that is all, and the divider is reloaded. -/
def Obligations.FirstExpiryAtOnce : Prop :=
  ∀ (o : OscId) (d : Nat) (s : State), Armed s o → (s.channel o).divider = 0 →
    ∃ t l later, exec (oscProcessInstr o d) s = .next t ∧
      Gained (s.channel o).ch (.level (s.channel o).ch l (s.channel o).elapsedTime :: later) s t ∧
      (d = 0 → later = [] ∧ t.channel o = { s.channel o with divider := (s.channel o).frequency.toNat + 1 })

/-- The duty table (41_pulse.md R137): of any 16 successive expiries of a pulse with `gate == 0` and a nonzero volume, exactly
`16 - dutyCycle` emit the volume and the others emit 0. -/
def Obligations.DutyTable : Prop :=
  ∀ (k : PulseId) (d : Nat) (s : State), Armed s (.pulse k) → (s.pulse k).gate = false → (s.pulse k).volume ≠ 0 →
    expiries (s.pulse k).divider (s.pulse k).frequency.toNat d = 16 →
    ∃ t new, exec (.pulseProcess k d) s = .next t ∧ Gained (s.pulse k).ch new s t ∧ new.length = 16 ∧
      (new.countP fun r => r == .level (s.pulse k).ch (s.pulse k).volume.toNat r.time) =
        16 - (s.pulse k).dutyCycle.toNat ∧
      (new.countP fun r => r == .level (s.pulse k).ch 0 r.time) = (s.pulse k).dutyCycle.toNat

/-- The waveform periods (41_pulse.md R138, 42_sawtooth.md R168, 70_reset_and_hazards.md R272): an Armed pulse repeats every
`16 * (f + 1)` cycles, an Armed sawtooth whose accumulator is on its cycle every `14 * (f + 1)`. -/
def Obligations.WaveformPeriods : Prop :=
  (∀ (k : PulseId) (s : State), Armed s (.pulse k) → 1 ≤ (s.pulse k).divider →
    (s.pulse k).divider ≤ (s.pulse k).frequency.toNat + 1 →
    ∃ t, exec (.pulseProcess k (16 * ((s.pulse k).frequency.toNat + 1))) s = .next t ∧
      t.pulse k =
        { s.pulse k with elapsedTime := (s.pulse k).elapsedTime + 16 * ((s.pulse k).frequency.toNat + 1) }) ∧
  (∀ s : State, Armed s .saw → SequenceInvariant s → 1 ≤ s.ps.saw.divider →
    s.ps.saw.divider ≤ s.ps.saw.frequency.toNat + 1 →
    s.ps.saw.phaseAccumulator.toNat = s.ps.saw.resetSequence.toNat / 2 * s.ps.saw.phaseInput.toNat % 256 →
    ∃ t, exec (.sawProcess (14 * (s.ps.saw.frequency.toNat + 1))) s = .next t ∧
      t.ps.saw = { s.ps.saw with elapsedTime := s.ps.saw.elapsedTime + 14 * (s.ps.saw.frequency.toNat + 1) })

/-! ## Chip operations and their fan-out -/

/-- PS_PROCESS and PM_PROCESS (43_pulsesaw_chip.md R193, 44_pulsemul_chip.md R218). -/
def Obligations.ChipProcess : Prop :=
  ∀ (c : Chip) (d : Nat) (s : State),
    ∃ t, exec (processInstr c d) s = .next t ∧ ChipProcessed c d s t ∧ NowsKept s t ∧
      ∀ o ∈ oscillators c, (t.channel o).elapsedTime = (s.channel o).elapsedTime + d

/-- The fan-out order does not matter (40_framework.md R124, 43_pulsesaw_chip.md R193; that an oscillator's records stay one block is
the spec's own decision D15): whatever order a chip passes a call to its
oscillators in, the state is the same, and each oscillator's own records are the same contiguous block. -/
def Obligations.FanOutOrderIrrelevant : Prop :=
  ∀ (c : Chip) (order : List OscId) (s : State), order.Perm (oscillators c) →
    ∀ f, (f = oscReset ∨ f = oscEndFrame ∨ ∃ d, f = oscProcess d) →
      (fanOut f order s).1 = (fanOut f (oscillators c) s).1 ∧
      (fanOut f order s).2 = order.map (fun o => (f o s).2)

/-- Every order has a code, and a code stands for an order: nothing but "any order" is said of FANOUT_ORDER (40_framework.md R124).
The codes are the model's own (log 8). -/
def Obligations.FanoutCodesAreAllOrders : Prop :=
  ∀ l : List (List Record), (∀ code, (arrange code l).Perm l) ∧ ∀ l', l'.Perm l → ∃ code, arrange code l = l'

/-- A channel's projection of the event trace does not depend on the draws (40_framework.md R124). The premise is about the batches,
the model's own form of the trace (DESIGN CHOICE, logs 8 and 18); StepKeepsSinkTidy keeps it. -/
def Obligations.ProjectionIndependentOfDraw : Prop :=
  ∀ s : State, SinkInvariant s → ∀ ch, ofChannel ch s.eventTrace = s.channelTrace ch

/-- The draws never matter (20_memory.md R62, 40_framework.md R122): from two states that differ only in which orders have been
drawn, every instruction ends alike, and next states again differ in nothing else. The field `draws` and the batches that carry a
draw's number are the model's own (DESIGN CHOICE, logs 8 and 18). -/
def Obligations.DrawsNeverMatter : Prop :=
  ∀ (i : Instr) (s s' : State), SameButDraws s s' →
    (∀ t, exec i s = .next t → ∃ t', exec i s' = .next t' ∧ SameButDraws t t' ∧ TracesKept t t') ∧
    (∀ r, exec i s = .fault r → exec i s' = .fault r) ∧ (∀ r, exec i s = .refused r → exec i s' = .refused r)

/-- PULSE_RESET and SAW_RESET (41_pulse.md R135, 42_sawtooth.md R165): every field 0, `ch` kept, nothing emitted. That the
sawtooth's `elapsedTime` is among them is the spec's own decision D12 (log 17). -/
def Obligations.OscReset : Prop :=
  ∀ (o : OscId) (s : State), ∃ t, exec (oscResetInstr o) s = .next t ∧ ZeroOsc o (s.channel o).ch t ∧ t.sink = s.sink ∧
    OnlyOscillators [o] s t ∧ t.draws = s.draws

/-- PS_RESET, PM_RESET and RST (43_pulsesaw_chip.md R194, 44_pulsemul_chip.md R220, 40_framework.md R118, 30_encoding.md R72): every
oscillator of the chip is reset, the multiplier's operands become 0 on the PulseMulChip alone, the auxiliary memory is unchanged,
the chip's `now` is 0, nothing is emitted. That RESET reaches the partitioner's `now` is read from R72 (log 23). -/
def Obligations.ChipReset : Prop :=
  ∀ (c : Chip) (i : Instr) (s : State), i = resetInstr c ∨ i = .rst c → ∃ t, exec i s = .next t ∧
    (∀ o ∈ oscillators c, ZeroOsc o (s.channel o).ch t) ∧ OthersKept (oscillators c) s t ∧
    (c = .pulseMul → t.pm.mul.mulA = 0 ∧ t.pm.mul.mulB = 0) ∧ (c = .pulseSaw → MulKept s t) ∧
    t.now c = 0 ∧ (∀ c', c' ≠ c → t.now c' = s.now c') ∧
    MemoryKept s t ∧ t.sink = s.sink ∧ DriverKept s t ∧ t.reads = s.reads

/-- PULSE_ENDFRAME and SAW_ENDFRAME (40_framework.md R114, 41_pulse.md R136, 42_sawtooth.md R166): the FrameEnd record, and in the
per-frame
time base `elapsedTime` to 0; every other field carries over. What endFrame does is the spec's own decision D11 (log 6). -/
def Obligations.OscEndFrame : Prop :=
  ∀ (o : OscId) (s : State), ∃ t, exec (oscEndFrameInstr o) s = .next t ∧ WaveKept o s t ∧
    t.channel o =
      { s.channel o with
        elapsedTime := if s.cfg.timeBase = .perFrame then 0 else (s.channel o).elapsedTime } ∧
    (∀ ch, Gained ch (ofChannel ch [.frameEnd (s.channel o).ch (s.channel o).elapsedTime]) s t) ∧
    OnlyOscillators [o] s t ∧ t.draws = s.draws

/-- PS_ENDFRAME and PM_ENDFRAME (43_pulsesaw_chip.md R195, 44_pulsemul_chip.md R219): one FrameEnd record for each oscillator of the
chip; the multiplier and the memory are unaffected. -/
def Obligations.ChipEndFrame : Prop :=
  ∀ (c : Chip) (s : State), ∃ t, exec (endFrameInstr c) s = .next t ∧
    (∀ o ∈ oscillators c, WaveKept o s t ∧
      t.channel o =
        { s.channel o with
          elapsedTime := if s.cfg.timeBase = .perFrame then 0 else (s.channel o).elapsedTime }) ∧
    (∀ ch, Gained ch (ofChannel ch ((oscillators c).map fun o =>
      .frameEnd (s.channel o).ch (s.channel o).elapsedTime)) s t) ∧
    OnlyOscillators (oscillators c) s t

/-! ## The partitioner -/

/-- W (40_framework.md R115, the spec's own decision D14): `process` up to the timestamp, `now` at the timestamp, then the chip's own write; below `now` it is
refused. -/
def Obligations.PartitionerWrite : Prop :=
  ∀ (c : Chip) (time : Nat) (a : Addr) (v : Byte) (s : State),
    (s.now c ≤ time →
      ∃ m u, ChipProcessed c (time - s.now c) s m ∧ m.now c = time ∧ (∀ c', c' ≠ c → m.now c' = s.now c') ∧
        exec (decodeWrite s.cfg c a v) m = .next u ∧ exec (.w c time a v) s = .next u) ∧
    (time < s.now c → exec (.w c time a v) s = .refused .timestampBeforeNow)

/-- EF (40_framework.md R116, the spec's own decisions D11 and D14): `process` up to the timestamp, the chip's end of frame, and in the per-frame time base `now` to 0;
below `now` it is refused. -/
def Obligations.PartitionerEndFrame : Prop :=
  ∀ (c : Chip) (time : Nat) (s : State),
    (s.now c ≤ time →
      ∃ m x u, ChipProcessed c (time - s.now c) s m ∧ m.now c = time ∧ (∀ c', c' ≠ c → m.now c' = s.now c') ∧
        exec (endFrameInstr c) m = .next x ∧ exec (.ef c time) s = .next u ∧
        (s.cfg.timeBase = .cumulative → u = x) ∧ (s.cfg.timeBase = .perFrame → u = x.setNow c 0)) ∧
    (time < s.now c → exec (.ef c time) s = .refused .timestampBeforeNow)

/-- R (40_framework.md R117, the spec's own decision D10): the chip's own read and nothing else; no `process`, and `now` is unchanged; below `now` it is
refused. -/
def Obligations.PartitionerRead : Prop :=
  ∀ (c : Chip) (time : Nat) (a : Addr) (s : State),
    (s.now c ≤ time →
      ∃ u r, exec (.r c time a) s = .next u ∧ exec (decodeRead s.cfg c a) s = .next u ∧ OnlyAnswered r s u) ∧
    (time < s.now c → exec (.r c time a) s = .refused .timestampBeforeNow)

/-- Timestamps may not go backwards, and equal ones are allowed (40_framework.md R119, the spec's own decision D14): W, EF
and R are refused exactly below `now`. -/
def Obligations.TimestampBeforeNowRefused : Prop :=
  ∀ (c : Chip) (time : Nat) (a : Addr) (v : Byte) (s : State),
    (exec (.w c time a v) s = .refused .timestampBeforeNow ↔ time < s.now c) ∧
    (exec (.ef c time) s = .refused .timestampBeforeNow ↔ time < s.now c) ∧
    (exec (.r c time a) s = .refused .timestampBeforeNow ↔ time < s.now c)

/-! ## Over all instructions -/

/-- Emission points (40_framework.md R111, 20_memory.md R57): an instruction that is no CTRL write, no `process`, no `endFrame` and no
partitioner W or EF sends nothing to the sink. -/
def Obligations.EmissionPoints : Prop :=
  ∀ (i : Instr) (s t : State), exec i s = .next t →
    (∀ k v, i ≠ pulseCtrlInstr k v) → (∀ o d, i ≠ oscProcessInstr o d) → (∀ c d, i ≠ processInstr c d) →
    (∀ o, i ≠ oscEndFrameInstr o) → (∀ c, i ≠ endFrameInstr c) → (∀ c time a v, i ≠ .w c time a v) →
    (∀ c time, i ≠ .ef c time) → t.sink = s.sink

/-- Commands take no time (40_framework.md R121, R101): an oscillator's `elapsedTime` grows only by a `process` that reaches it, at
the oscillator, at its chip or in its chip's partitioner, and by exactly that call's operand. -/
def Obligations.CommandsTakeNoTime : Prop :=
  ∀ (i : Instr) (o : OscId) (s t : State), exec i s = .next t →
    (s.channel o).elapsedTime < (t.channel o).elapsedTime →
    ∃ d, (t.channel o).elapsedTime = (s.channel o).elapsedTime + d ∧
      (i = oscProcessInstr o d ∨ i = processInstr (oscChip o) d ∨
        ∃ time, s.now (oscChip o) + d = time ∧ (i = .ef (oscChip o) time ∨ ∃ a v, i = .w (oscChip o) time a v))

/-! ## The step -/

/-- When the driver's next command decodes to an instruction and does not mix the interface levels, the step is that instruction, and
the driver's position advances by one (10_state.md R21, 20_memory.md R56); a command that mixes them is refused (40_framework.md
R125, the model's choice of log 12). -/
def Obligations.StepRunsDecoded : Prop :=
  ∀ (s : State) (cmd : Command) (i : Instr), validConfig s.cfg = true → s.program[s.pos]? = some cmd →
    decode s.cfg cmd = .ok i →
    (s.mixesLevels cmd = false →
      (∀ t, exec i s = .next t → step s = .next { t with pos := s.pos + 1 }) ∧
      (∀ r, exec i s = .fault r → step s = .fault r) ∧ (∀ r, exec i s = .refused r → step s = .refused r)) ∧
    (s.mixesLevels cmd = true → step s = .refused .mixedLevels)

/-- A step is refused by name in the cases of 60_exceptions.md R241 and in no other: a configuration that breaks a constraint, a
negative delta, a word, address or value that is too wide, a timestamp before `now`, and a command that acts on a chip's time past
its partitioner in a partitioner-level program. Three clauses are the model's choice: that a step, and not construction alone,
refuses a bad configuration (log 15), which commands beside PROCESS mix the levels of R125, chip by chip (log 12), and which refusal
is named where several conditions hold (log 24). -/
def Obligations.RefusedExactlyByName : Prop :=
  ∀ (s : State) (r : Refusal), step s = .refused r ↔
    (validConfig s.cfg = false ∧ r = .badConfiguration) ∨
    (validConfig s.cfg = true ∧ ∃ cmd, s.program[s.pos]? = some cmd ∧
      ((r = .negativeDelta ∧
          ((∃ c d, cmd = .process c d ∧ d < 0) ∨ ∃ o d, cmd = .oscProcess o d ∧ d < 0)) ∨
       (r = .valueOutOfRange ∧
          ((∃ c w, cmd = .bus c w ∧ 2 ^ 25 ≤ w) ∨ (∃ c t a v, cmd = .partWrite c t a v ∧ (2 ^ 16 ≤ a ∨ 2 ^ 8 ≤ v)) ∨
           (∃ c t a, cmd = .partRead c t a ∧ 2 ^ 16 ≤ a) ∨ ∃ o n v, cmd = .oscWrite o n v ∧ 2 ^ 8 ≤ v)) ∨
       (r = .timestampBeforeNow ∧
          ((∃ c t a v, cmd = .partWrite c t a v ∧ a < 2 ^ 16 ∧ v < 2 ^ 8 ∧ t < s.now c) ∨
           (∃ c t a, cmd = .partRead c t a ∧ a < 2 ^ 16 ∧ t < s.now c) ∨
           ∃ c t, cmd = .partEndFrame c t ∧ t < s.now c)) ∨
       (r = .mixedLevels ∧ ∃ c, (∃ p ∈ s.program, isPartitionerCommand c p = true) ∧
          ((∃ d, cmd = .process c d ∧ 0 ≤ d) ∨ cmd = .endFrame c ∨
           ∃ o, oscChip o = c ∧ ((∃ d, cmd = .oscProcess o d ∧ 0 ≤ d) ∨ cmd = .oscReset o ∨ cmd = .oscEndFrame o)))))

/-- The block raises no exception, trap or fault (60_exceptions.md R240): no step faults, whatever the state. -/
def Obligations.StepNeverFaults : Prop :=
  ∀ (s : State) (r : Fault), step s ≠ .fault r

/-! ## Encoding -/

/-- Decode and encode agree: every well-formed instruction is what its encoding decodes to, with every operand, under every
configuration that keeps the constraints of 00_scope.md R7 (30_encoding.md R71 to R73, R79 to R81). -/
def Obligations.DecodeEncodeAgree : Prop :=
  ∀ (cfg : Config) (i : Instr), validConfig cfg = true → i.wellFormed cfg = true → decode cfg (encode cfg i) = .ok i

/-- Every 25-bit word decodes to exactly one instruction of a chip, a well-formed one (30_encoding.md R81, which the spec marks as derived from R71, R79, R80 and R7), whose encoding is the
word again, a read's ignored `V` apart (R71). -/
def Obligations.EveryBusWordDecodes : Prop :=
  ∀ (cfg : Config) (c : Chip) (w : Nat), validConfig cfg = true → w < 2 ^ 25 →
    ∃ i, decode cfg (.bus c w) = .ok i ∧ i.wellFormed cfg = true ∧
      (2 ^ 24 ≤ w → encode cfg i = .bus c w) ∧ (w < 2 ^ 24 → encode cfg i = .bus c (w - w % 2 ^ 8))

/-- Words written out from the tables of 30_encoding.md R79, R80 and the vectors V1, V18 and V19 decode to the instructions they
stand for. -/
def Obligations.DecodesSampleWords : Prop :=
  decode Config.default (.bus .pulseSaw 0x190008F) = .ok (.p1Ctrl 0x8F) ∧
  decode Config.default (.bus .pulseSaw 0x1A00205) = .ok (.p2FreqHi 0x05) ∧
  decode Config.default (.bus .pulseSaw 0x1B0012C) = .ok (.sawFreqLo 0x2C) ∧
  decode Config.default (.bus .pulseSaw 0x1900355) = .ok (.psWriteUnmapped 0x9003 0x55) ∧
  decode Config.default (.bus .pulseSaw 0x0A00000) = .ok (.psRead 0xA000) ∧
  decode Config.default (.bus .pulseMul 0x150009C) = .ok (.m1Ctrl 0x9C) ∧
  decode Config.default (.bus .pulseMul 0x1520664) = .ok (.mulB 0x64) ∧
  decode Config.default (.bus .pulseMul 0x15C034E) = .ok (.auxWrite 3 0x4E) ∧
  decode Config.default (.bus .pulseMul 0x0520500) = .ok .mulLoRead ∧
  decode Config.default (.bus .pulseMul 0x0600000) = .ok (.pmReadUnmapped 0x6000)

/-- At most one row of a chip's address map claims an address (00_scope.md R7, 30_encoding.md R81). -/
def Obligations.AddressMapsDisjoint : Prop :=
  ∀ (cfg : Config) (a i j : Nat) (x y : Nat × Nat), validConfig cfg = true →
    (((psRegions cfg)[i]? = some x ∧ (psRegions cfg)[j]? = some y) ∨
      ((pmRegions cfg)[i]? = some x ∧ (pmRegions cfg)[j]? = some y)) →
    x.1 ≤ a → a < x.1 + x.2 → y.1 ≤ a → a < y.1 + y.2 → i = j

/-- The pseudo-instruction FREQ (30_encoding.md R88): its two writes, performed at one time, leave the frequency and the enable bit
asked for, and between them no time passes. -/
def Obligations.FreqPseudoInstruction : Prop :=
  ∀ (o : OscId) (time f e : Nat) (s : State), validConfig s.cfg = true → f ≤ 4095 → e ≤ 1 → s.now (oscChip o) ≤ time →
    ∃ c1 c2 t u, assemble s.cfg (oscChip o) (.freq time o f e) = .ok [c1, c2] ∧
      perform c1 s = .next t ∧ perform c2 t = .next u ∧
      (u.channel o).frequency.toNat = f ∧ (u.channel o).enabled = decide (e = 1) ∧
      (u.channel o).elapsedTime = (t.channel o).elapsedTime

/-! ## Reset and invariants -/

/-- The state after reset, as constructed with the default parameters (10_state.md R42, 70_reset_and_hazards.md R261). The five
channel identifiers are the model's choice (log 5). -/
def Obligations.ResetStateValues : Prop :=
  (∀ o, ZeroOsc o (boundChannel Config.default o) State.reset) ∧
  State.reset.pm.mul.mulA = 0 ∧ State.reset.pm.mul.mulB = 0 ∧
  (∀ i, auxRead State.reset.pm.aux i = Config.auxInit i) ∧
  State.reset.psNow = 0 ∧ State.reset.pmNow = 0 ∧ State.reset.eventTrace = []

/-- The state constructed with any parameters that keep the constraints of 00_scope.md R7 meets the invariants, and with the default
parameters it is the reset state (10_state.md R42, 70_reset_and_hazards.md R261; that construction yields the reset state is the
spec's own decision D13, log 17). Two clauses are about the model's own forms, which no rule gives: MemoryInvariant, the
canonical form of the auxiliary memory (DESIGN CHOICE, log 7), and SinkInvariant, the batches the sink keeps the records in (DESIGN
CHOICE, log 18, with log 8). -/
def Obligations.ConstructionMeetsInvariants : Prop :=
  ∀ (cfg : Config) (s : State), construct cfg = .next s →
    FrequencyInvariant s ∧ SequenceInvariant s ∧ DividerInvariant s ∧ DutyInvariant s ∧ MemoryInvariant s ∧
    ChannelsInvariant s ∧ SinkInvariant s ∧ LevelsInvariant s ∧
    (∀ c, EqualTimes c s ∧ TimesTrackNow c s) ∧ construct Config.default = .next State.reset

/-- Every step keeps the frequency invariant, the ranges of `resetSequence` and `divider`, and that of `dutyCycle` (10_state.md R23,
R28, R29, R22), from every state, reached or not. -/
def Obligations.StepKeepsRegisterInvariants : Prop :=
  ∀ s t : State, step s = .next t →
    (FrequencyInvariant s → FrequencyInvariant t) ∧ (SequenceInvariant s → SequenceInvariant t) ∧
    (DividerInvariant s → DividerInvariant t) ∧ (DutyInvariant s → DutyInvariant t)

/-- Every step keeps the auxiliary memory in canonical form. The form is the model's own (DESIGN CHOICE, log 7); the bytes it lists are
those of 10_state.md R36, written by 44_pulsemul_chip.md R213. -/
def Obligations.StepKeepsMemoryCanonical : Prop :=
  ∀ s t : State, MemoryInvariant s → step s = .next t → MemoryInvariant t

/-- No step changes the parameters, the driver's command list or a channel identifier (10_state.md R31, 00_scope.md R6). -/
def Obligations.StepKeepsChannels : Prop :=
  ∀ s t : State, step s = .next t →
    t.cfg = s.cfg ∧ t.program = s.program ∧ (∀ o, (t.channel o).ch = (s.channel o).ch) ∧
    (ChannelsInvariant s → ChannelsInvariant t)

/-- Every step keeps the sink's batches tidy: different blocks of one batch hold records of different channels. The batches
are the model's own form of the event trace (DESIGN CHOICE, log 18, with the orders of log 8), which no rule gives: 40_framework.md
R124 says only that an oscillator's records from one call are one block and that blocks come in any order, and 00_scope.md R7 that
the channel identifiers differ. -/
def Obligations.StepKeepsSinkTidy : Prop :=
  ∀ s t : State, ChannelsInvariant s → SinkInvariant s → step s = .next t → SinkInvariant t

/-- Every step keeps the levels of each channel's trace in range: 0..15 for a pulse, 0..31 for the sawtooth (40_framework.md R111). -/
def Obligations.StepKeepsLevelRange : Prop :=
  ∀ s t : State, ChannelsInvariant s → LevelsInvariant s → step s = .next t → LevelsInvariant t

/-- In a program at partitioner level for a chip, or one that holds no command acting on the chip's time past its partitioner, `now`
stays equal to the `elapsedTime` of every oscillator of the chip, in either time base (10_state.md R37, R41, 40_framework.md R125;
the per-frame base R116). That such commands are refused at partitioner level is the model's choice of log 12, and that the
chip-level RESET sets `now` to 0 is its reading of R72 (log 23). -/
def Obligations.StepKeepsTimesTrackNow : Prop :=
  ∀ (c : Chip) (s t : State), PartitionerDriven c s → TimesTrackNow c s → step s = .next t →
    PartitionerDriven c t ∧ TimesTrackNow c t

/-- In a program that gives no oscillator of a chip time of its own, all oscillators of the chip keep equal `elapsedTime`
(10_state.md R41). -/
def Obligations.StepKeepsEqualTimes : Prop :=
  ∀ (c : Chip) (s t : State), NoLoneTime c s → EqualTimes c s → step s = .next t → NoLoneTime c t ∧ EqualTimes c t

/-- The order of a channel's records in time (40_framework.md R112, 20_memory.md R66): in the cumulative time base a step that is no
reset lets no oscillator's time go back, and the records a channel gains carry times that do not decrease and lie between the
oscillator's times before and after. -/
def Obligations.RecordsInTimeOrder : Prop :=
  ∀ (s t : State) (o : OscId), ChannelsInvariant s → s.cfg.timeBase = .cumulative → step s = .next t →
    (∀ cmd, s.program[s.pos]? = some cmd →
      (∀ c, cmd ≠ .reset c) ∧ (∀ c, cmd ≠ .partReset c) ∧ (∀ o', cmd ≠ .oscReset o')) →
    (s.channel o).elapsedTime ≤ (t.channel o).elapsedTime ∧
    ∃ new, Gained (s.channel o).ch new s t ∧ (new.map Record.time).Pairwise (· ≤ ·) ∧
      ∀ r ∈ new, (s.channel o).elapsedTime ≤ r.time ∧ r.time ≤ (t.channel o).elapsedTime

/-- Silence must be written (70_reset_and_hazards.md R268): clearing `enabled`, any frequency write, every reset and a CTRL write with
`gate = 0` leave the level the sink holds for every channel, and a CTRL write of 0x80 makes it 0 at once. -/
def Obligations.SilenceMustBeWritten : Prop :=
  ∀ (o : OscId) (c : Chip) (k : PulseId) (v : Byte) (s t : State),
    (exec (freqHiInstr o v) s = .next t ∨ exec (freqLoInstr o v) s = .next t ∨ exec (oscResetInstr o) s = .next t ∨
      exec (resetInstr c) s = .next t ∨ exec (.rst c) s = .next t ∨
      (v.toNat < 128 ∧ exec (pulseCtrlInstr k v) s = .next t) →
        ∀ ch, t.heldLevel ch = s.heldLevel ch) ∧
    (exec (pulseCtrlInstr k 0x80) s = .next t → t.heldLevel (s.pulse k).ch = some 0)
end

