-- ==== Sys2Proof/Laws/State.lean ====
section
/-! SUPPORT. What each update of the state does to each of its fields. -/

namespace Sys2Proof.Machine

/-! ### `setPulse` -/

@[simp] theorem State.setPulse_cfg (s : State) (k : PulseId) (p : PulseOscillator) :
    (s.setPulse k p).cfg = s.cfg := by
  cases k <;> rfl
@[simp] theorem State.setPulse_psNow (s : State) (k : PulseId) (p : PulseOscillator) :
    (s.setPulse k p).psNow = s.psNow := by
  cases k <;> rfl
@[simp] theorem State.setPulse_pmNow (s : State) (k : PulseId) (p : PulseOscillator) :
    (s.setPulse k p).pmNow = s.pmNow := by
  cases k <;> rfl
@[simp] theorem State.setPulse_sink (s : State) (k : PulseId) (p : PulseOscillator) :
    (s.setPulse k p).sink = s.sink := by
  cases k <;> rfl
@[simp] theorem State.setPulse_reads (s : State) (k : PulseId) (p : PulseOscillator) :
    (s.setPulse k p).reads = s.reads := by
  cases k <;> rfl
@[simp] theorem State.setPulse_program (s : State) (k : PulseId) (p : PulseOscillator) :
    (s.setPulse k p).program = s.program := by
  cases k <;> rfl
@[simp] theorem State.setPulse_pos (s : State) (k : PulseId) (p : PulseOscillator) :
    (s.setPulse k p).pos = s.pos := by
  cases k <;> rfl
@[simp] theorem State.setPulse_draws (s : State) (k : PulseId) (p : PulseOscillator) :
    (s.setPulse k p).draws = s.draws := by
  cases k <;> rfl
@[simp] theorem State.setPulse_now (s : State) (k : PulseId) (p : PulseOscillator) (q : Chip) :
    (s.setPulse k p).now q = s.now q := by
  cases k <;> cases q <;> rfl
@[simp] theorem State.setPulse_saw (s : State) (k : PulseId) (p : PulseOscillator) :
    (s.setPulse k p).ps.saw = s.ps.saw := by
  cases k <;> rfl
@[simp] theorem State.setPulse_mul (s : State) (k : PulseId) (p : PulseOscillator) :
    (s.setPulse k p).pm.mul = s.pm.mul := by
  cases k <;> rfl
@[simp] theorem State.setPulse_aux (s : State) (k : PulseId) (p : PulseOscillator) :
    (s.setPulse k p).pm.aux = s.pm.aux := by
  cases k <;> rfl
@[simp] theorem State.pulse_setPulse_same (s : State) (k : PulseId) (p : PulseOscillator) :
    (s.setPulse k p).pulse k = p := by
  cases k <;> rfl
theorem State.pulse_setPulse_of_ne (s : State) (k : PulseId) (p : PulseOscillator) (k' : PulseId) (h : k' ≠ k) :
    (s.setPulse k p).pulse k' = s.pulse k' := by
  cases k <;> cases k' <;> first | rfl | exact absurd rfl h

/-! ### `setSaw` -/

@[simp] theorem State.setSaw_cfg (s : State) (o : SawtoothOscillator) :
    (s.setSaw o).cfg = s.cfg := rfl
@[simp] theorem State.setSaw_psNow (s : State) (o : SawtoothOscillator) :
    (s.setSaw o).psNow = s.psNow := rfl
@[simp] theorem State.setSaw_pmNow (s : State) (o : SawtoothOscillator) :
    (s.setSaw o).pmNow = s.pmNow := rfl
@[simp] theorem State.setSaw_sink (s : State) (o : SawtoothOscillator) :
    (s.setSaw o).sink = s.sink := rfl
@[simp] theorem State.setSaw_reads (s : State) (o : SawtoothOscillator) :
    (s.setSaw o).reads = s.reads := rfl
@[simp] theorem State.setSaw_program (s : State) (o : SawtoothOscillator) :
    (s.setSaw o).program = s.program := rfl
@[simp] theorem State.setSaw_pos (s : State) (o : SawtoothOscillator) :
    (s.setSaw o).pos = s.pos := rfl
@[simp] theorem State.setSaw_draws (s : State) (o : SawtoothOscillator) :
    (s.setSaw o).draws = s.draws := rfl
@[simp] theorem State.setSaw_now (s : State) (o : SawtoothOscillator) (q : Chip) :
    (s.setSaw o).now q = s.now q := by
  cases q <;> rfl
@[simp] theorem State.setSaw_pm (s : State) (o : SawtoothOscillator) :
    (s.setSaw o).pm = s.pm := rfl
@[simp] theorem State.setSaw_saw (s : State) (o : SawtoothOscillator) :
    (s.setSaw o).ps.saw = o := rfl
@[simp] theorem State.setSaw_pulse (s : State) (o : SawtoothOscillator) (k : PulseId) :
    (s.setSaw o).pulse k = s.pulse k := by
  cases k <;> rfl

/-! ### `setChannel` -/

@[simp] theorem State.setChannel_cfg (s : State) (o : OscId) (c : Channel) :
    (s.setChannel o c).cfg = s.cfg := by
  rcases o with (_ | _ | _ | _) | _ <;> rfl
@[simp] theorem State.setChannel_psNow (s : State) (o : OscId) (c : Channel) :
    (s.setChannel o c).psNow = s.psNow := by
  rcases o with (_ | _ | _ | _) | _ <;> rfl
@[simp] theorem State.setChannel_pmNow (s : State) (o : OscId) (c : Channel) :
    (s.setChannel o c).pmNow = s.pmNow := by
  rcases o with (_ | _ | _ | _) | _ <;> rfl
@[simp] theorem State.setChannel_sink (s : State) (o : OscId) (c : Channel) :
    (s.setChannel o c).sink = s.sink := by
  rcases o with (_ | _ | _ | _) | _ <;> rfl
@[simp] theorem State.setChannel_reads (s : State) (o : OscId) (c : Channel) :
    (s.setChannel o c).reads = s.reads := by
  rcases o with (_ | _ | _ | _) | _ <;> rfl
@[simp] theorem State.setChannel_program (s : State) (o : OscId) (c : Channel) :
    (s.setChannel o c).program = s.program := by
  rcases o with (_ | _ | _ | _) | _ <;> rfl
@[simp] theorem State.setChannel_pos (s : State) (o : OscId) (c : Channel) :
    (s.setChannel o c).pos = s.pos := by
  rcases o with (_ | _ | _ | _) | _ <;> rfl
@[simp] theorem State.setChannel_draws (s : State) (o : OscId) (c : Channel) :
    (s.setChannel o c).draws = s.draws := by
  rcases o with (_ | _ | _ | _) | _ <;> rfl
@[simp] theorem State.setChannel_now (s : State) (o : OscId) (c : Channel) (q : Chip) :
    (s.setChannel o c).now q = s.now q := by
  rcases o with (_ | _ | _ | _) | _ <;> cases q <;> rfl
@[simp] theorem State.setChannel_mul (s : State) (o : OscId) (c : Channel) :
    (s.setChannel o c).pm.mul = s.pm.mul := by
  rcases o with (_ | _ | _ | _) | _ <;> rfl
@[simp] theorem State.setChannel_aux (s : State) (o : OscId) (c : Channel) :
    (s.setChannel o c).pm.aux = s.pm.aux := by
  rcases o with (_ | _ | _ | _) | _ <;> rfl
@[simp] theorem State.channel_setChannel_same (s : State) (o : OscId) (c : Channel) :
    (s.setChannel o c).channel o = c := by
  rcases o with (_ | _ | _ | _) | _ <;> rfl
theorem State.channel_setChannel_of_ne (s : State) (o : OscId) (c : Channel) (o' : OscId) (h : o' ≠ o) :
    (s.setChannel o c).channel o' = s.channel o' := by
  rcases o with (_ | _ | _ | _) | _ <;> rcases o' with (_ | _ | _ | _) | _ <;> first | rfl | exact absurd rfl h

/-! ### `setMul` -/

@[simp] theorem State.setMul_cfg (s : State) (u : MultiplierUnit) :
    (s.setMul u).cfg = s.cfg := rfl
@[simp] theorem State.setMul_psNow (s : State) (u : MultiplierUnit) :
    (s.setMul u).psNow = s.psNow := rfl
@[simp] theorem State.setMul_pmNow (s : State) (u : MultiplierUnit) :
    (s.setMul u).pmNow = s.pmNow := rfl
@[simp] theorem State.setMul_sink (s : State) (u : MultiplierUnit) :
    (s.setMul u).sink = s.sink := rfl
@[simp] theorem State.setMul_reads (s : State) (u : MultiplierUnit) :
    (s.setMul u).reads = s.reads := rfl
@[simp] theorem State.setMul_program (s : State) (u : MultiplierUnit) :
    (s.setMul u).program = s.program := rfl
@[simp] theorem State.setMul_pos (s : State) (u : MultiplierUnit) :
    (s.setMul u).pos = s.pos := rfl
@[simp] theorem State.setMul_draws (s : State) (u : MultiplierUnit) :
    (s.setMul u).draws = s.draws := rfl
@[simp] theorem State.setMul_ps (s : State) (u : MultiplierUnit) :
    (s.setMul u).ps = s.ps := rfl
@[simp] theorem State.setMul_pulse (s : State) (u : MultiplierUnit) (k : PulseId) :
    (s.setMul u).pulse k = s.pulse k := by
  cases k <;> rfl
@[simp] theorem State.setMul_channel (s : State) (u : MultiplierUnit) (q : OscId) :
    (s.setMul u).channel q = s.channel q := by
  rcases q with (_ | _ | _ | _) | _ <;> rfl
@[simp] theorem State.setMul_now (s : State) (u : MultiplierUnit) (q : Chip) :
    (s.setMul u).now q = s.now q := by
  cases q <;> rfl
@[simp] theorem State.setMul_mul (s : State) (u : MultiplierUnit) :
    (s.setMul u).pm.mul = u := rfl
@[simp] theorem State.setMul_aux (s : State) (u : MultiplierUnit) :
    (s.setMul u).pm.aux = s.pm.aux := rfl

/-! ### `setAux` -/

@[simp] theorem State.setAux_cfg (s : State) (m : Memory) :
    (s.setAux m).cfg = s.cfg := rfl
@[simp] theorem State.setAux_psNow (s : State) (m : Memory) :
    (s.setAux m).psNow = s.psNow := rfl
@[simp] theorem State.setAux_pmNow (s : State) (m : Memory) :
    (s.setAux m).pmNow = s.pmNow := rfl
@[simp] theorem State.setAux_sink (s : State) (m : Memory) :
    (s.setAux m).sink = s.sink := rfl
@[simp] theorem State.setAux_reads (s : State) (m : Memory) :
    (s.setAux m).reads = s.reads := rfl
@[simp] theorem State.setAux_program (s : State) (m : Memory) :
    (s.setAux m).program = s.program := rfl
@[simp] theorem State.setAux_pos (s : State) (m : Memory) :
    (s.setAux m).pos = s.pos := rfl
@[simp] theorem State.setAux_draws (s : State) (m : Memory) :
    (s.setAux m).draws = s.draws := rfl
@[simp] theorem State.setAux_ps (s : State) (m : Memory) :
    (s.setAux m).ps = s.ps := rfl
@[simp] theorem State.setAux_pulse (s : State) (m : Memory) (k : PulseId) :
    (s.setAux m).pulse k = s.pulse k := by
  cases k <;> rfl
@[simp] theorem State.setAux_channel (s : State) (m : Memory) (q : OscId) :
    (s.setAux m).channel q = s.channel q := by
  rcases q with (_ | _ | _ | _) | _ <;> rfl
@[simp] theorem State.setAux_now (s : State) (m : Memory) (q : Chip) :
    (s.setAux m).now q = s.now q := by
  cases q <;> rfl
@[simp] theorem State.setAux_mul (s : State) (m : Memory) :
    (s.setAux m).pm.mul = s.pm.mul := rfl
@[simp] theorem State.setAux_aux (s : State) (m : Memory) :
    (s.setAux m).pm.aux = m := rfl

/-! ### `setNow` -/

@[simp] theorem State.setNow_cfg (s : State) (c : Chip) (t : Nat) :
    (s.setNow c t).cfg = s.cfg := by
  cases c <;> rfl
@[simp] theorem State.setNow_sink (s : State) (c : Chip) (t : Nat) :
    (s.setNow c t).sink = s.sink := by
  cases c <;> rfl
@[simp] theorem State.setNow_reads (s : State) (c : Chip) (t : Nat) :
    (s.setNow c t).reads = s.reads := by
  cases c <;> rfl
@[simp] theorem State.setNow_program (s : State) (c : Chip) (t : Nat) :
    (s.setNow c t).program = s.program := by
  cases c <;> rfl
@[simp] theorem State.setNow_pos (s : State) (c : Chip) (t : Nat) :
    (s.setNow c t).pos = s.pos := by
  cases c <;> rfl
@[simp] theorem State.setNow_draws (s : State) (c : Chip) (t : Nat) :
    (s.setNow c t).draws = s.draws := by
  cases c <;> rfl
@[simp] theorem State.setNow_ps (s : State) (c : Chip) (t : Nat) :
    (s.setNow c t).ps = s.ps := by
  cases c <;> rfl
@[simp] theorem State.setNow_pm (s : State) (c : Chip) (t : Nat) :
    (s.setNow c t).pm = s.pm := by
  cases c <;> rfl
@[simp] theorem State.setNow_pulse (s : State) (c : Chip) (t : Nat) (k : PulseId) :
    (s.setNow c t).pulse k = s.pulse k := by
  cases c <;> cases k <;> rfl
@[simp] theorem State.setNow_channel (s : State) (c : Chip) (t : Nat) (q : OscId) :
    (s.setNow c t).channel q = s.channel q := by
  cases c <;> rcases q with (_ | _ | _ | _) | _ <;> rfl
@[simp] theorem State.now_setNow_same (s : State) (c : Chip) (t : Nat) :
    (s.setNow c t).now c = t := by
  cases c <;> rfl
theorem State.now_setNow_of_ne (s : State) (c : Chip) (t : Nat) (c' : Chip) (h : c' ≠ c) :
    (s.setNow c t).now c' = s.now c' := by
  cases c <;> cases c' <;> first | rfl | exact absurd rfl h

/-! ### `send` -/

@[simp] theorem State.send_cfg (s : State) (l : List (List Record)) :
    (s.send l).cfg = s.cfg := by
  unfold State.send; split <;> rfl
@[simp] theorem State.send_psNow (s : State) (l : List (List Record)) :
    (s.send l).psNow = s.psNow := by
  unfold State.send; split <;> rfl
@[simp] theorem State.send_pmNow (s : State) (l : List (List Record)) :
    (s.send l).pmNow = s.pmNow := by
  unfold State.send; split <;> rfl
@[simp] theorem State.send_reads (s : State) (l : List (List Record)) :
    (s.send l).reads = s.reads := by
  unfold State.send; split <;> rfl
@[simp] theorem State.send_program (s : State) (l : List (List Record)) :
    (s.send l).program = s.program := by
  unfold State.send; split <;> rfl
@[simp] theorem State.send_pos (s : State) (l : List (List Record)) :
    (s.send l).pos = s.pos := by
  unfold State.send; split <;> rfl
@[simp] theorem State.send_draws (s : State) (l : List (List Record)) :
    (s.send l).draws = s.draws := by
  unfold State.send; split <;> rfl
@[simp] theorem State.send_ps (s : State) (l : List (List Record)) :
    (s.send l).ps = s.ps := by
  unfold State.send; split <;> rfl
@[simp] theorem State.send_pm (s : State) (l : List (List Record)) :
    (s.send l).pm = s.pm := by
  unfold State.send; split <;> rfl
@[simp] theorem State.send_pulse (s : State) (l : List (List Record)) (k : PulseId) :
    (s.send l).pulse k = s.pulse k := by
  unfold State.send; split <;> cases k <;> rfl
@[simp] theorem State.send_channel (s : State) (l : List (List Record)) (q : OscId) :
    (s.send l).channel q = s.channel q := by
  unfold State.send; split <;> rcases q with (_ | _ | _ | _) | _ <;> rfl
@[simp] theorem State.send_now (s : State) (l : List (List Record)) (q : Chip) :
    (s.send l).now q = s.now q := by
  unfold State.send; split <;> cases q <;> rfl

/-! ### `answer` -/

@[simp] theorem State.answer_cfg (s : State) (r : ReadResult) :
    (s.answer r).cfg = s.cfg := rfl
@[simp] theorem State.answer_psNow (s : State) (r : ReadResult) :
    (s.answer r).psNow = s.psNow := rfl
@[simp] theorem State.answer_pmNow (s : State) (r : ReadResult) :
    (s.answer r).pmNow = s.pmNow := rfl
@[simp] theorem State.answer_sink (s : State) (r : ReadResult) :
    (s.answer r).sink = s.sink := rfl
@[simp] theorem State.answer_program (s : State) (r : ReadResult) :
    (s.answer r).program = s.program := rfl
@[simp] theorem State.answer_pos (s : State) (r : ReadResult) :
    (s.answer r).pos = s.pos := rfl
@[simp] theorem State.answer_draws (s : State) (r : ReadResult) :
    (s.answer r).draws = s.draws := rfl
@[simp] theorem State.answer_ps (s : State) (r : ReadResult) :
    (s.answer r).ps = s.ps := rfl
@[simp] theorem State.answer_pm (s : State) (r : ReadResult) :
    (s.answer r).pm = s.pm := rfl
@[simp] theorem State.answer_pulse (s : State) (r : ReadResult) (k : PulseId) :
    (s.answer r).pulse k = s.pulse k := by
  cases k <;> rfl
@[simp] theorem State.answer_channel (s : State) (r : ReadResult) (q : OscId) :
    (s.answer r).channel q = s.channel q := by
  rcases q with (_ | _ | _ | _) | _ <;> rfl
@[simp] theorem State.answer_now (s : State) (r : ReadResult) (q : Chip) :
    (s.answer r).now q = s.now q := by
  cases q <;> rfl
@[simp] theorem State.answer_reads (s : State) (r : ReadResult) :
    (s.answer r).reads = s.reads ++ [r] := rfl

/-! ### `countDraw` -/

@[simp] theorem State.countDraw_cfg (s : State) :
    (s.countDraw).cfg = s.cfg := rfl
@[simp] theorem State.countDraw_psNow (s : State) :
    (s.countDraw).psNow = s.psNow := rfl
@[simp] theorem State.countDraw_pmNow (s : State) :
    (s.countDraw).pmNow = s.pmNow := rfl
@[simp] theorem State.countDraw_sink (s : State) :
    (s.countDraw).sink = s.sink := rfl
@[simp] theorem State.countDraw_reads (s : State) :
    (s.countDraw).reads = s.reads := rfl
@[simp] theorem State.countDraw_program (s : State) :
    (s.countDraw).program = s.program := rfl
@[simp] theorem State.countDraw_pos (s : State) :
    (s.countDraw).pos = s.pos := rfl
@[simp] theorem State.countDraw_ps (s : State) :
    (s.countDraw).ps = s.ps := rfl
@[simp] theorem State.countDraw_pm (s : State) :
    (s.countDraw).pm = s.pm := rfl
@[simp] theorem State.countDraw_pulse (s : State) (k : PulseId) :
    (s.countDraw).pulse k = s.pulse k := by
  cases k <;> rfl
@[simp] theorem State.countDraw_channel (s : State) (q : OscId) :
    (s.countDraw).channel q = s.channel q := by
  rcases q with (_ | _ | _ | _) | _ <;> rfl
@[simp] theorem State.countDraw_now (s : State) (q : Chip) :
    (s.countDraw).now q = s.now q := by
  cases q <;> rfl
@[simp] theorem State.countDraw_draws (s : State) :
    s.countDraw.draws = s.draws + 1 := rfl

/-! ### `advance` -/

@[simp] theorem State.advance_cfg (s : State) :
    (s.advance).cfg = s.cfg := rfl
@[simp] theorem State.advance_psNow (s : State) :
    (s.advance).psNow = s.psNow := rfl
@[simp] theorem State.advance_pmNow (s : State) :
    (s.advance).pmNow = s.pmNow := rfl
@[simp] theorem State.advance_sink (s : State) :
    (s.advance).sink = s.sink := rfl
@[simp] theorem State.advance_reads (s : State) :
    (s.advance).reads = s.reads := rfl
@[simp] theorem State.advance_program (s : State) :
    (s.advance).program = s.program := rfl
@[simp] theorem State.advance_draws (s : State) :
    (s.advance).draws = s.draws := rfl
@[simp] theorem State.advance_ps (s : State) :
    (s.advance).ps = s.ps := rfl
@[simp] theorem State.advance_pm (s : State) :
    (s.advance).pm = s.pm := rfl
@[simp] theorem State.advance_pulse (s : State) (k : PulseId) :
    (s.advance).pulse k = s.pulse k := by
  cases k <;> rfl
@[simp] theorem State.advance_channel (s : State) (q : OscId) :
    (s.advance).channel q = s.channel q := by
  rcases q with (_ | _ | _ | _) | _ <;> rfl
@[simp] theorem State.advance_now (s : State) (q : Chip) :
    (s.advance).now q = s.now q := by
  cases q <;> rfl
@[simp] theorem State.advance_pos (s : State) :
    s.advance.pos = s.pos + 1 := rfl

end Sys2Proof.Machine
end

