-- ==== Sys2Proof/Laws/Ops.lean ====
section
/-! SUPPORT. One lemma or a few for each shared operation, saying what it can do, so that proofs cite it and do not unfold it. -/

namespace Sys2Proof.Machine

/-! ## Operands -/

theorem ctrlDutyCycle_toNat (v : Byte) : (ctrlDutyCycle v).toNat = v.toNat / 16 % 8 + 1 := by
  have h1 : (1 : BitVec 4).toNat = 1 := rfl
  simp only [ctrlDutyCycle, BitVec.toNat_add, BitVec.toNat_setWidth, BitVec.extractLsb'_toNat, Nat.shiftRight_eq_div_pow, h1,
    Nat.reducePow]
  omega

theorem ctrlVolume_toNat (v : Byte) : (ctrlVolume v).toNat = v.toNat % 16 := by
  simp [ctrlVolume, BitVec.extractLsb'_toNat]

theorem freqHighField_toNat (v : Byte) : (freqHighField v).toNat = v.toNat % 16 := by
  simp [freqHighField, BitVec.extractLsb'_toNat]

theorem ratePhaseInput_toNat (v : Byte) : (ratePhaseInput v).toNat = v.toNat % 64 := by
  simp [ratePhaseInput, BitVec.extractLsb'_toNat]

theorem assembleFrequency_toNat (lo : BitVec 8) (hi : BitVec 4) :
    (assembleFrequency lo hi).toNat = lo.toNat + 256 * hi.toNat := by
  have hl := lo.isLt
  have hh := hi.isLt
  simp only [assembleFrequency, BitVec.toNat_or, BitVec.toNat_shiftLeft, BitVec.toNat_setWidth]
  rw [Nat.mod_eq_of_lt (by omega : lo.toNat < 2 ^ 12), Nat.mod_eq_of_lt (by omega : hi.toNat < 2 ^ 12), Nat.or_comm,
    Nat.mod_eq_of_lt (by rw [Nat.shiftLeft_eq]; omega), ← Nat.shiftLeft_add_eq_or_of_lt hl, Nat.shiftLeft_eq]
  omega

theorem product_toNat (a b : Byte) : (product a b).toNat = a.toNat * b.toNat := by
  have ha := a.isLt
  have hb := b.isLt
  have : a.toNat * b.toNat ≤ 255 * 255 := Nat.mul_le_mul (by omega) (by omega)
  simp only [product, BitVec.toNat_mul, BitVec.toNat_setWidth]
  rw [Nat.mod_eq_of_lt (by omega : a.toNat < 2 ^ 16), Nat.mod_eq_of_lt (by omega : b.toNat < 2 ^ 16)]
  omega

theorem productLow_toNat (a b : Byte) : (productLow a b).toNat = a.toNat * b.toNat % 256 := by
  simp [productLow, BitVec.extractLsb'_toNat, product_toNat]

theorem productHigh_toNat (a b : Byte) : (productHigh a b).toNat = a.toNat * b.toNat / 256 := by
  have ha := a.isLt
  have hb := b.isLt
  have : a.toNat * b.toNat ≤ 255 * 255 := Nat.mul_le_mul (by omega) (by omega)
  simp only [productHigh, BitVec.extractLsb'_toNat, product_toNat, Nat.shiftRight_eq_div_pow]
  omega

/-! ## The auxiliary memory -/

theorem Memory.lookup_insert_same (i : Nat) (v : Byte) (m : Memory) :
    Memory.lookup i (Memory.insert i v m) = some v := by
  induction m with
  | nil => simp [Memory.insert, Memory.lookup]
  | cons c m ih =>
    obtain ⟨j, b⟩ := c
    by_cases h1 : i < j
    · simp [Memory.insert, Memory.lookup, h1]
    · by_cases h2 : i = j
      · simp [Memory.insert, Memory.lookup, h2]
      · simp [Memory.insert, Memory.lookup, h1, h2, ih]

theorem Memory.lookup_insert_of_ne {i j : Nat} (v : Byte) (m : Memory) (h : j ≠ i) :
    Memory.lookup j (Memory.insert i v m) = Memory.lookup j m := by
  induction m with
  | nil => simp [Memory.insert, Memory.lookup, h]
  | cons c m ih =>
    obtain ⟨k, b⟩ := c
    by_cases h1 : i < k
    · simp [Memory.insert, Memory.lookup, h1, h]
    · by_cases h2 : i = k
      · subst h2
        simp [Memory.insert, Memory.lookup, h]
      · simp [Memory.insert, Memory.lookup, h1, h2, ih]

theorem auxRead_insert_same (i : Nat) (v : Byte) (m : Memory) : auxRead (Memory.insert i v m) i = v := by
  simp [auxRead, Memory.lookup_insert_same]

theorem auxRead_insert_of_ne {i j : Nat} (v : Byte) (m : Memory) (h : j ≠ i) :
    auxRead (Memory.insert i v m) j = auxRead m j := by
  simp [auxRead, Memory.lookup_insert_of_ne v m h]

theorem Memory.mem_insert {i : Nat} {v : Byte} {m : Memory} {c : Host.Cell} (h : c ∈ Memory.insert i v m) :
    c = (i, v) ∨ c ∈ m := by
  induction m with
  | nil => simpa [Memory.insert] using h
  | cons d m ih =>
    obtain ⟨j, b⟩ := d
    simp only [Memory.insert] at h
    split at h
    · simpa using h
    · split at h
      · rcases List.mem_cons.1 h with h | h
        · exact .inl h
        · exact .inr (List.mem_cons_of_mem _ h)
      · rcases List.mem_cons.1 h with h | h
        · exact .inr (h ▸ List.mem_cons_self)
        · rcases ih h with h | h
          · exact .inl h
          · exact .inr (List.mem_cons_of_mem _ h)

/-- A store keeps the canonical form. -/
theorem Memory.wf_insert {size i : Nat} (v : Byte) {m : Memory} (hi : i < size) (hm : Memory.wf size m = true) :
    Memory.wf size (Memory.insert i v m) = true := by
  induction m with
  | nil => simp [Memory.insert, Memory.wf, hi]
  | cons c m ih =>
    obtain ⟨j, b⟩ := c
    simp only [Memory.wf, Bool.and_eq_true, decide_eq_true_eq, List.all_eq_true] at hm
    obtain ⟨⟨hj, hall⟩, hwf⟩ := hm
    simp only [Memory.insert]
    split
    · rename_i hlt
      simp only [Memory.wf, Bool.and_eq_true, decide_eq_true_eq, List.all_eq_true, List.mem_cons]
      refine ⟨⟨hi, ?_⟩, ⟨hj, hall⟩, hwf⟩
      rintro x (rfl | hx)
      · exact hlt
      · exact Nat.lt_trans hlt (hall x hx)
    · split
      · rename_i heq
        subst heq
        simp only [Memory.wf, Bool.and_eq_true, decide_eq_true_eq, List.all_eq_true]
        exact ⟨⟨hi, hall⟩, hwf⟩
      · rename_i hlt hne
        simp only [Memory.wf, Bool.and_eq_true, decide_eq_true_eq, List.all_eq_true]
        refine ⟨⟨hj, fun x hx => ?_⟩, ih hwf⟩
        rcases Memory.mem_insert hx with rfl | hx
        · change j < i
          omega
        · exact hall x hx

/-- The memory at construction is in canonical form, whatever its size. -/
theorem Memory.wf_nil (size : Nat) : Memory.wf size [] = true := rfl

/-! ## The divider drain -/

/-- `n` expiries of an oscillator's own fields. -/
def expireTimes {ω : Type} (expire : ω → ω) : Nat → ω → ω
  | 0, w => w
  | n + 1, w => expireTimes expire n (expire w)

theorem expireTimes_succ {ω : Type} (expire : ω → ω) (n : Nat) (w : ω) :
    expireTimes expire (n + 1) w = expire (expireTimes expire n w) := by
  induction n generalizing w with
  | zero => rfl
  | succ n ih => rw [expireTimes, ih]; rfl

theorem expireTimes_add {ω : Type} (expire : ω → ω) (m n : Nat) (w : ω) :
    expireTimes expire (m + n) w = expireTimes expire n (expireTimes expire m w) := by
  induction m generalizing w with
  | zero => rw [Nat.zero_add]; rfl
  | succ m ih => rw [Nat.succ_add, expireTimes, ih]; rfl

/-- The `n` records of `n` expiries: the `k`-th, counted from 0, carries the level after `k + 1` expiries and the time
`first + k * q`. -/
def expiryRecords {ω : Type} (expire : ω → ω) (level : ω → Nat) (ch first q n : Nat) (w : ω) : List Record :=
  (List.range n).map fun k => .level ch (level (expireTimes expire (k + 1) w)) (first + k * q)

theorem expiryRecords_succ {ω : Type} (expire : ω → ω) (level : ω → Nat) (ch first q n : Nat) (w : ω) :
    expiryRecords expire level ch first q (n + 1) w =
      .level ch (level (expire w)) first :: expiryRecords expire level ch (first + q) q n (expire w) := by
  simp only [expiryRecords, List.range_succ_eq_map, List.map_cons, List.map_map]
  congr 1
  · simp [expireTimes]
  · apply List.map_congr_left
    intro k _
    simp only [Function.comp, Nat.succ_eq_add_one, expireTimes, Nat.add_mul, Nat.one_mul]
    congr 1
    omega

/-- A slice that ends before the divider does (40_framework.md R106, `d < v`). -/
theorem drain_of_lt {ω : Type} (expire : ω → ω) (level : ω → Nat) (fuel d : Nat) (c : Channel) (w : ω)
    (h : d < c.divider) :
    drain expire level fuel d c w = { chan := c.settle d, wave := w, records := [] } := by
  cases fuel with
  | zero => rfl
  | succ n => simp [drain, Nat.not_le.2 h]

/-- What the drain does on a slice that reaches the divider (40_framework.md R106): `n = 1 + (d - v) / q` expiries, `q = f + 1`
apart. -/
theorem drain_of_ge {ω : Type} (expire : ω → ω) (level : ω → Nat) (n : Nat) :
    ∀ (fuel d : Nat) (c : Channel) (w : ω), c.divider ≤ d → (d - c.divider) / (c.frequency.toNat + 1) = n → n < fuel →
      drain expire level fuel d c w =
        { chan := { c with
            divider := c.frequency.toNat + 1 - (d - c.divider) % (c.frequency.toNat + 1)
            elapsedTime := c.elapsedTime + d }
          wave := expireTimes expire (n + 1) w
          records := expiryRecords expire level c.ch (c.elapsedTime + c.divider) (c.frequency.toNat + 1) (n + 1) w } := by
  induction n with
  | zero =>
    intro fuel d c w hd hn hf
    obtain ⟨m, rfl⟩ : ∃ m, fuel = m + 1 := ⟨fuel - 1, by omega⟩
    have hlt : d - c.divider < c.frequency.toNat + 1 := by
      rcases Nat.div_eq_zero_iff.1 hn with h | h
      · omega
      · exact h
    rw [drain, if_pos hd, drain_of_lt]
    · simp only [Channel.settle, Channel.reload, Nat.mod_eq_of_lt hlt, expireTimes]
      have e : c.elapsedTime + c.divider + (d - c.divider) = c.elapsedTime + d := by omega
      simp [expiryRecords, expireTimes, e]
    · simpa [Channel.reload] using hlt
  | succ n ih =>
    intro fuel d c w hd hn hf
    obtain ⟨m, rfl⟩ : ∃ m, fuel = m + 1 := ⟨fuel - 1, by omega⟩
    have hge : c.frequency.toNat + 1 ≤ d - c.divider := by
      by_contra hlt
      rw [Nat.div_eq_of_lt (by omega)] at hn
      omega
    have hn' : (d - c.divider - (c.frequency.toNat + 1)) / (c.frequency.toNat + 1) = n := by
      rw [Nat.div_eq_sub_div (by omega) hge] at hn
      omega
    have step := ih m (d - c.divider) c.reload (expire w) (by simpa [Channel.reload] using hge)
      (by simpa [Channel.reload] using hn') (by omega)
    rw [drain, if_pos hd, step, expiryRecords_succ (n := n + 1)]
    simp only [Channel.reload]
    have e : c.elapsedTime + c.divider + (d - c.divider) = c.elapsedTime + d := by omega
    have m : (d - c.divider - (c.frequency.toNat + 1)) % (c.frequency.toNat + 1) =
        (d - c.divider) % (c.frequency.toNat + 1) := (Nat.mod_eq_sub_mod hge).symm
    rw [e, m]
    rfl

end Sys2Proof.Machine
end

