-- ==== Sys2Proof/Laws/Decode.lean ====
section
/-! SUPPORT. The fields of a bus word, the address maps under a valid configuration, and what the decoder does with the words the
encoder builds. -/

namespace Sys2Proof.Machine

/-! ## Bus words -/

/-- The fields of a write word (30_encoding.md R71). -/
theorem busWriteWord_fields {a v : Nat} (ha : a < 2 ^ 16) (hv : v < 2 ^ 8) :
    busWriteWord a v < 2 ^ 25 ∧ busIsWrite (BitVec.ofNat 25 (busWriteWord a v)) = true ∧
      busAddr (BitVec.ofNat 25 (busWriteWord a v)) = BitVec.ofNat 16 a ∧
      busData (BitVec.ofNat 25 (busWriteWord a v)) = BitVec.ofNat 8 v := by
  have hlt : busWriteWord a v < 2 ^ 25 := by unfold busWriteWord; omega
  refine ⟨hlt, ?_, ?_, ?_⟩
  · simp only [busIsWrite, BitVec.getLsbD_ofNat, Nat.testBit_eq_decide_div_mod_eq]
    unfold busWriteWord
    simp only [decide_eq_true_eq, Bool.and_eq_true]
    exact ⟨by omega, by omega⟩
  · apply BitVec.eq_of_toNat_eq
    simp only [busAddr, BitVec.extractLsb'_toNat, BitVec.toNat_ofNat, Nat.shiftRight_eq_div_pow, Nat.mod_eq_of_lt hlt]
    simp only [busWriteWord]
    omega
  · apply BitVec.eq_of_toNat_eq
    simp only [busData, BitVec.extractLsb'_toNat, BitVec.toNat_ofNat, Nat.shiftRight_eq_div_pow, Nat.mod_eq_of_lt hlt]
    simp only [busWriteWord]
    omega

/-- The fields of a read word, whatever its `V` (30_encoding.md R71). -/
theorem busReadWord_fields {a v : Nat} (ha : a < 2 ^ 16) (hv : v < 2 ^ 8) :
    busReadWord a + v < 2 ^ 25 ∧ busIsWrite (BitVec.ofNat 25 (busReadWord a + v)) = false ∧
      busAddr (BitVec.ofNat 25 (busReadWord a + v)) = BitVec.ofNat 16 a := by
  have hlt : busReadWord a + v < 2 ^ 25 := by unfold busReadWord; omega
  refine ⟨hlt, ?_, ?_⟩
  · simp only [busIsWrite, BitVec.getLsbD_ofNat, Nat.testBit_eq_decide_div_mod_eq]
    unfold busReadWord
    simp only [Bool.and_eq_false_iff, decide_eq_false_iff_not]
    exact .inr (by omega)
  · apply BitVec.eq_of_toNat_eq
    simp only [busAddr, BitVec.extractLsb'_toNat, BitVec.toNat_ofNat, Nat.shiftRight_eq_div_pow, Nat.mod_eq_of_lt hlt]
    simp only [busReadWord]
    omega

/-- The fields of any word (30_encoding.md R71). -/
theorem busWord_fields {w : Nat} (h : w < 2 ^ 25) :
    busIsWrite (BitVec.ofNat 25 w) = decide (2 ^ 24 ≤ w) ∧ (busAddr (BitVec.ofNat 25 w)).toNat = w / 256 % 65536 ∧
      (busData (BitVec.ofNat 25 w)).toNat = w % 256 := by
  refine ⟨?_, ?_, ?_⟩
  · simp only [busIsWrite, BitVec.getLsbD_ofNat, Nat.testBit_eq_decide_div_mod_eq]
    rw [Bool.eq_iff_iff]
    simp
    omega
  · simp only [busAddr, BitVec.extractLsb'_toNat, BitVec.toNat_ofNat, Nat.shiftRight_eq_div_pow, Nat.mod_eq_of_lt h]
  · simp only [busData, BitVec.extractLsb'_toNat, BitVec.toNat_ofNat, Nat.shiftRight_eq_div_pow, Nat.mod_eq_of_lt h]
    omega

theorem decode_busWriteWord (cfg : Config) (c : Chip) {a v : Nat} (ha : a < 2 ^ 16) (hv : v < 2 ^ 8) :
    decode cfg (.bus c (busWriteWord a v)) = .ok (decodeWrite cfg c (BitVec.ofNat 16 a) (BitVec.ofNat 8 v)) := by
  obtain ⟨h1, h2, h3, h4⟩ := busWriteWord_fields ha hv
  simp only [decode, if_pos h1, decodeBus, h2, h3, h4, if_true]

theorem decode_busReadWord (cfg : Config) (c : Chip) {a v : Nat} (ha : a < 2 ^ 16) (hv : v < 2 ^ 8) :
    decode cfg (.bus c (busReadWord a + v)) = .ok (decodeRead cfg c (BitVec.ofNat 16 a)) := by
  obtain ⟨h1, h2, h3⟩ := busReadWord_fields ha hv
  simp only [decode, if_pos h1, decodeBus, h2, h3]
  rfl

/-- The read word that the encoder builds, with `V` zero. -/
theorem decode_busReadWord_zero (cfg : Config) (c : Chip) {a : Nat} (ha : a < 2 ^ 16) :
    decode cfg (.bus c (busReadWord a)) = .ok (decodeRead cfg c (BitVec.ofNat 16 a)) := by
  have h := decode_busReadWord cfg c (v := 0) ha (by decide)
  rwa [Nat.add_zero] at h

/-! ## The address maps -/

/-- What an address selects on a PulseSawChip: nothing, or a register. -/
theorem psTarget_cases (cfg : Config) (a : Addr) :
    psTarget cfg a = none ∨ ∃ o n, psTarget cfg a = some (.reg o n) := by
  unfold psTarget
  split
  · exact .inr ⟨_, _, rfl⟩
  · split
    · exact .inr ⟨_, _, rfl⟩
    · split
      · exact .inr ⟨_, _, rfl⟩
      · exact .inl rfl

/-- A byte of the auxiliary memory that an address selects exists. -/
theorem pmTarget_aux {cfg : Config} {a : Addr} {n : Nat} (h : pmTarget cfg a = some (.aux n)) :
    n < cfg.pmAuxSize ∧ a.toNat = cfg.pmAuxBase + n := by
  unfold pmTarget at h
  repeat' split at h
  all_goals first
    | (cases h; done)
    | skip
  simp only [Option.some.injEq, BusTarget.aux.injEq] at h
  omega

theorem pmTarget_mulLo {cfg : Config} {a : Addr} (h : pmTarget cfg a = some .mulLo) : a.toNat = cfg.pmMulLo := by
  unfold pmTarget at h
  repeat' split at h
  all_goals first
    | assumption
    | cases h

theorem pmTarget_mulHi {cfg : Config} {a : Addr} (h : pmTarget cfg a = some .mulHi) : a.toNat = cfg.pmMulHi := by
  unfold pmTarget at h
  repeat' split at h
  all_goals first
    | assumption
    | cases h

theorem pmTarget_of_pmReadTarget {cfg : Config} {a : Addr} {x : BusTarget} (h : pmReadTarget cfg a = some x) :
    pmTarget cfg a = some x := by
  unfold pmReadTarget at h
  split at h
  · cases h
  · exact h

theorem regIndex_eq (a : Addr) : regIndex a = a.toNat % 4 := by
  simp only [regIndex, BitVec.toNat_and]
  exact Nat.and_two_pow_sub_one_eq_mod _ 2

/-- The constraints of 00_scope.md R7, one by one. -/
theorem validConfig_facts {cfg : Config} (h : validConfig cfg = true) :
    (∀ o, oscBase cfg o % 4 = 0 ∧ oscBase cfg o ≤ 65533) ∧ (psRegions cfg).Pairwise Apart ∧
      (pmRegions cfg).Pairwise Apart ∧ cfg.pmMulLo < 65536 ∧ cfg.pmMulHi < 65536 ∧
      cfg.pmAuxBase + cfg.pmAuxSize ≤ 65536 ∧ (channelIds cfg).Nodup := by
  simp only [validConfig, Bool.and_eq_true, decide_eq_true_eq, channelBases, List.all_cons, List.all_nil, and_true] at h
  obtain ⟨⟨⟨⟨⟨a1, a2, a3, a4, a5⟩, b⟩, c⟩, d1, d2, d3⟩, e⟩ := h
  refine ⟨?_, b, c, d1, d2, d3, e⟩
  intro o
  rcases o with (_ | _ | _ | _) | _ <;> simp only [oscBase] <;> omega

/-- The PulseSawChip's ranges do not meet. -/
theorem psRegions_apart {cfg : Config} (h : validConfig cfg = true) :
    (cfg.psP1Base + 3 ≤ cfg.psP2Base ∨ cfg.psP2Base + 3 ≤ cfg.psP1Base) ∧
      (cfg.psP1Base + 3 ≤ cfg.psSawBase ∨ cfg.psSawBase + 3 ≤ cfg.psP1Base) ∧
      (cfg.psP2Base + 3 ≤ cfg.psSawBase ∨ cfg.psSawBase + 3 ≤ cfg.psP2Base) := by
  have b := (validConfig_facts h).2.1
  simpa [psRegions, Apart, and_assoc] using b

/-- The PulseMulChip's ranges do not meet. -/
theorem pmRegions_apart {cfg : Config} (h : validConfig cfg = true) :
    (cfg.pmP1Base + 3 ≤ cfg.pmP2Base ∨ cfg.pmP2Base + 3 ≤ cfg.pmP1Base) ∧
      (cfg.pmP1Base + 3 ≤ cfg.pmMulLo ∨ cfg.pmMulLo + 1 ≤ cfg.pmP1Base) ∧
      (cfg.pmP1Base + 3 ≤ cfg.pmMulHi ∨ cfg.pmMulHi + 1 ≤ cfg.pmP1Base) ∧
      (cfg.pmAuxSize = 0 ∨ cfg.pmP1Base + 3 ≤ cfg.pmAuxBase ∨ cfg.pmAuxBase + cfg.pmAuxSize ≤ cfg.pmP1Base) ∧
      (cfg.pmP2Base + 3 ≤ cfg.pmMulLo ∨ cfg.pmMulLo + 1 ≤ cfg.pmP2Base) ∧
      (cfg.pmP2Base + 3 ≤ cfg.pmMulHi ∨ cfg.pmMulHi + 1 ≤ cfg.pmP2Base) ∧
      (cfg.pmAuxSize = 0 ∨ cfg.pmP2Base + 3 ≤ cfg.pmAuxBase ∨ cfg.pmAuxBase + cfg.pmAuxSize ≤ cfg.pmP2Base) ∧
      (cfg.pmMulLo + 1 ≤ cfg.pmMulHi ∨ cfg.pmMulHi + 1 ≤ cfg.pmMulLo) ∧
      (cfg.pmAuxSize = 0 ∨ cfg.pmMulLo + 1 ≤ cfg.pmAuxBase ∨ cfg.pmAuxBase + cfg.pmAuxSize ≤ cfg.pmMulLo) ∧
      (cfg.pmAuxSize = 0 ∨ cfg.pmMulHi + 1 ≤ cfg.pmAuxBase ∨ cfg.pmAuxBase + cfg.pmAuxSize ≤ cfg.pmMulHi) := by
  have b := (validConfig_facts h).2.2.1
  simpa only [pmRegions, Apart, and_assoc, List.pairwise_cons, List.forall_mem_cons, List.not_mem_nil, false_implies,
    implies_true, and_true, List.Pairwise.nil, OfNat.ofNat_ne_zero, one_ne_zero, false_or] using b

theorem toNat_ofNat_16 {n : Nat} (h : n < 65536) : (BitVec.ofNat 16 n).toNat = n := by
  rw [BitVec.toNat_ofNat]
  omega

/-- The address of register `n` of an oscillator selects it on its chip. -/
theorem chipTarget_reg {cfg : Config} (h : validConfig cfg = true) (o : OscId) {n : Nat} (hn : n ≤ 2) :
    chipTarget cfg (oscChip o) (BitVec.ofNat 16 (oscBase cfg o + n)) = some (.reg o n) := by
  have ho := (validConfig_facts h).1 o
  have ht : (BitVec.ofNat 16 (oscBase cfg o + n)).toNat = oscBase cfg o + n := toNat_ofNat_16 (by omega)
  have hr : regIndex (BitVec.ofNat 16 (oscBase cfg o + n)) = n := by rw [regIndex_eq, ht]; omega
  obtain ⟨b1, b2, b3⟩ := psRegions_apart h
  have c := (pmRegions_apart h).1
  generalize BitVec.ofNat 16 (oscBase cfg o + n) = A at *
  rcases o with (_ | _ | _ | _) | _ <;> simp only [oscBase] at ho ht <;>
    simp only [oscChip, chipTarget, psTarget, pmTarget, InChannel, hr]
  · rw [if_pos (by omega)]
  · rw [if_neg (by omega), if_pos (by omega)]
  · rw [if_pos (by omega)]
  · rw [if_neg (by omega), if_pos (by omega)]
  · rw [if_neg (by omega), if_neg (by omega), if_pos (by omega)]

/-! ## What a target's decoding can be -/

/-- An oscillator-level write decodes to the write of that register. -/
theorem decode_oscWrite (cfg : Config) (o : OscId) (n : Nat) (v : Byte) :
    decode cfg (.oscWrite o n v.toNat) = .ok (oscWriteInstr o n v) := by
  simp only [decode]
  rw [if_pos v.isLt]
  simp

theorem mem_oscillators (o : OscId) (c : Chip) : o ∈ oscillators c ↔ oscChip o = c := by
  cases c <;> rcases o with (_ | _ | _ | _) | _ <;> decide

end Sys2Proof.Machine
end

