-- ==== Sys2Proof/Laws/Oscillators.lean ====
section
/-! SUPPORT. What the oscillator operations, the sink and the fanned-out chip calls can do, said once. -/

namespace Sys2Proof.Machine

/-! ## The sink -/

theorem ofChannel_append (ch : Nat) (l l' : List Record) : ofChannel ch (l ++ l') = ofChannel ch l ++ ofChannel ch l' :=
  List.filter_append ..

theorem ofChannel_eq_self {ch : Nat} {l : List Record} (h : ∀ r ∈ l, r.channel = ch) : ofChannel ch l = l :=
  List.filter_eq_self.2 fun r hr => by simp [h r hr]

theorem ofChannel_eq_nil {ch : Nat} {l : List Record} (h : ∀ r ∈ l, r.channel ≠ ch) : ofChannel ch l = [] :=
  List.filter_eq_nil_iff.2 fun r hr => by simp [h r hr]

@[simp] theorem ofChannel_nil (ch : Nat) : ofChannel ch [] = [] := rfl

theorem channelTrace_congr {s t : State} (h : t.sink = s.sink) (ch : Nat) : t.channelTrace ch = s.channelTrace ch := by
  simp [State.channelTrace, h]

theorem flatten_of_all_isEmpty {l : List (List Record)} (h : l.all List.isEmpty = true) : l.flatten = [] := by
  induction l with
  | nil => rfl
  | cons x l ih =>
    simp only [List.all_cons, Bool.and_eq_true, List.isEmpty_iff] at h
    simp [h.1, ih h.2]

/-- What sending a call's blocks adds to each channel's trace. -/
theorem channelTrace_send (s : State) (l : List (List Record)) (ch : Nat) :
    (s.send l).channelTrace ch = s.channelTrace ch ++ ofChannel ch l.flatten := by
  unfold State.send
  split
  · rename_i h
    simp [flatten_of_all_isEmpty h]
  · simp [State.channelTrace]

/-- Sending blocks without a record does nothing. -/
theorem send_of_all_isEmpty (s : State) {l : List (List Record)} (h : l.all List.isEmpty = true) : s.send l = s := by
  simp [State.send, h]

/-- What the sink holds after a call: nothing new, or one batch of the call's blocks. -/
theorem sink_send (s : State) (l : List (List Record)) :
    (s.send l).sink = s.sink ∨ (s.send l).sink = s.sink ++ [{ command := s.pos, draw := s.draws, blocks := l }] := by
  unfold State.send
  split
  · exact .inl rfl
  · exact .inr rfl

/-! ## process on the common fields -/

theorem operating_eq_armed_iff (c : Channel) : c.operating = .armed ↔ c.enabled = true ∧ 0 < c.frequency.toNat := by
  have hz : c.frequency = 0 ↔ c.frequency.toNat = 0 :=
    ⟨fun h => by rw [h]; rfl, fun h => BitVec.eq_of_toNat_eq (by rw [h]; rfl)⟩
  unfold Channel.operating
  split
  · rename_i he
    simp [he]
  · rename_i he
    have he : c.enabled = true := by simpa using he
    split
    · rename_i hf
      simp [hz.1 hf]
    · rename_i hf
      have : 0 < c.frequency.toNat := Nat.pos_of_ne_zero fun h => hf (hz.2 h)
      simp [he, this]

/-- Not Armed: only time passes (40_framework.md R102). -/
theorem processChannel_of_not_armed {ω : Type} (expire : ω → ω) (level : ω → Nat) (d : Nat) (c : Channel) (w : ω)
    (h : c.operating ≠ .armed) :
    processChannel expire level d c w = { chan := c.wait d, wave := w, records := [] } := by
  unfold processChannel
  split
  · exact absurd ‹_› h
  · rfl
  · rfl

/-- Armed, and the slice ends before the divider does (40_framework.md R106). -/
theorem processChannel_of_lt {ω : Type} (expire : ω → ω) (level : ω → Nat) (d : Nat) (c : Channel) (w : ω)
    (ha : c.operating = .armed) (h : d < c.divider) :
    processChannel expire level d c w = { chan := c.settle d, wave := w, records := [] } := by
  simp [processChannel, ha, drain_of_lt _ _ _ _ _ _ h]

/-- Armed, and the slice reaches the divider (40_framework.md R106). -/
theorem processChannel_of_ge {ω : Type} (expire : ω → ω) (level : ω → Nat) (d : Nat) (c : Channel) (w : ω)
    (ha : c.operating = .armed) (h : c.divider ≤ d) :
    processChannel expire level d c w =
      { chan := { c with
          divider := c.frequency.toNat + 1 - (d - c.divider) % (c.frequency.toNat + 1)
          elapsedTime := c.elapsedTime + d }
        wave := expireTimes expire (1 + (d - c.divider) / (c.frequency.toNat + 1)) w
        records := expiryRecords expire level c.ch (c.elapsedTime + c.divider) (c.frequency.toNat + 1)
          (1 + (d - c.divider) / (c.frequency.toNat + 1)) w } := by
  have hn : (d - c.divider) / (c.frequency.toNat + 1) < d + 1 :=
    Nat.lt_succ_of_le (Nat.le_trans (Nat.div_le_self ..) (Nat.sub_le ..))
  simp only [processChannel, ha]
  rw [drain_of_ge expire level _ _ _ _ _ h rfl hn, Nat.add_comm 1]

/-- `process` in every operating state, by the number of expiries (40_framework.md R101, R106). -/
theorem processChannel_cases {ω : Type} (expire : ω → ω) (level : ω → Nat) (d : Nat) (c : Channel) (w : ω) :
    ∃ v n, processChannel expire level d c w =
      { chan := { c with divider := v, elapsedTime := c.elapsedTime + d }
        wave := expireTimes expire n w
        records := expiryRecords expire level c.ch (c.elapsedTime + c.divider) (c.frequency.toNat + 1) n w } := by
  by_cases ha : c.operating = .armed
  · by_cases h : c.divider ≤ d
    · exact ⟨_, _, processChannel_of_ge expire level d c w ha h⟩
    · refine ⟨c.divider - d, 0, ?_⟩
      rw [processChannel_of_lt expire level d c w ha (Nat.lt_of_not_le h)]
      rfl
  · refine ⟨c.divider, 0, ?_⟩
    rw [processChannel_of_not_armed expire level d c w ha]
    rfl

theorem mem_expiryRecords {ω : Type} {expire : ω → ω} {level : ω → Nat} {ch first q n : Nat} {w : ω} {r : Record}
    (h : r ∈ expiryRecords expire level ch first q n w) :
    ∃ k, k < n ∧ r = .level ch (level (expireTimes expire (k + 1) w)) (first + k * q) := by
  obtain ⟨k, hk, rfl⟩ := List.mem_map.1 h
  exact ⟨k, List.mem_range.1 hk, rfl⟩

/-! ## The oscillators -/

/-- A pulse after `process(d)`, with the records emitted. -/
def pulseDrained (d : Nat) (p : PulseOscillator) : Drained PulseWave :=
  processChannel PulseWave.expire PulseWave.level d p.toChannel p.toPulseWave

/-- A sawtooth after `process(d)`, with the records emitted. -/
def sawDrained (d : Nat) (o : SawtoothOscillator) : Drained SawWave :=
  processChannel SawWave.expire SawWave.level d o.toChannel o.toSawWave

/-- The pulse a drain leaves. -/
def Drained.toPulse (r : Drained PulseWave) : PulseOscillator := { toChannel := r.chan, toPulseWave := r.wave }

/-- The sawtooth a drain leaves. -/
def Drained.toSaw (r : Drained SawWave) : SawtoothOscillator := { toChannel := r.chan, toSawWave := r.wave }

theorem oscProcess_pulse (d : Nat) (k : PulseId) (s : State) :
    oscProcess d (.pulse k) s = (s.setPulse k (pulseDrained d (s.pulse k)).toPulse, (pulseDrained d (s.pulse k)).records) :=
  rfl

theorem oscProcess_saw (d : Nat) (s : State) :
    oscProcess d .saw s = (s.setSaw (sawDrained d s.ps.saw).toSaw, (sawDrained d s.ps.saw).records) :=
  rfl

/-- `process(d)` on the PulseSawChip, oscillator by oscillator. -/
theorem chipProcess_pulseSaw (d : Nat) (s : State) :
    chipProcess .pulseSaw d s =
      (State.send [(pulseDrained d s.ps.p1).records, (pulseDrained d s.ps.p2).records, (sawDrained d s.ps.saw).records]
        { s with ps :=
          { p1 := (pulseDrained d s.ps.p1).toPulse
            p2 := (pulseDrained d s.ps.p2).toPulse
            saw := (sawDrained d s.ps.saw).toSaw } }).countDraw :=
  rfl

/-- `process(d)` on the PulseMulChip, oscillator by oscillator. -/
theorem chipProcess_pulseMul (d : Nat) (s : State) :
    chipProcess .pulseMul d s =
      (State.send [(pulseDrained d s.pm.p1).records, (pulseDrained d s.pm.p2).records]
        { s with pm :=
          { s.pm with p1 := (pulseDrained d s.pm.p1).toPulse, p2 := (pulseDrained d s.pm.p2).toPulse } }).countDraw :=
  rfl

/-- `reset()` on the PulseSawChip. -/
theorem chipReset_pulseSaw (s : State) :
    chipReset .pulseSaw s =
      { s with
        ps := { p1 := .initial s.ps.p1.ch, p2 := .initial s.ps.p2.ch, saw := .initial s.ps.saw.ch }
        draws := s.draws + 1 } :=
  rfl

/-- `reset()` on the PulseMulChip. -/
theorem chipReset_pulseMul (s : State) :
    chipReset .pulseMul s =
      { s with
        pm := { s.pm with p1 := .initial s.pm.p1.ch, p2 := .initial s.pm.p2.ch, mul := { mulA := 0, mulB := 0 } }
        draws := s.draws + 1 } :=
  rfl

/-- `endFrame()` on the PulseSawChip. -/
theorem chipEndFrame_pulseSaw (s : State) :
    chipEndFrame .pulseSaw s =
      (State.send
        [[.frameEnd s.ps.p1.ch s.ps.p1.elapsedTime], [.frameEnd s.ps.p2.ch s.ps.p2.elapsedTime],
          [.frameEnd s.ps.saw.ch s.ps.saw.elapsedTime]]
        { s with ps :=
          { p1 := { s.ps.p1 with toChannel := s.ps.p1.toChannel.endFrame s.cfg.timeBase }
            p2 := { s.ps.p2 with toChannel := s.ps.p2.toChannel.endFrame s.cfg.timeBase }
            saw := { s.ps.saw with toChannel := s.ps.saw.toChannel.endFrame s.cfg.timeBase } } }).countDraw :=
  rfl

/-- `endFrame()` on the PulseMulChip. -/
theorem chipEndFrame_pulseMul (s : State) :
    chipEndFrame .pulseMul s =
      (State.send
        [[.frameEnd s.pm.p1.ch s.pm.p1.elapsedTime], [.frameEnd s.pm.p2.ch s.pm.p2.elapsedTime]]
        { s with pm :=
          { s.pm with
            p1 := { s.pm.p1 with toChannel := s.pm.p1.toChannel.endFrame s.cfg.timeBase }
            p2 := { s.pm.p2 with toChannel := s.pm.p2.toChannel.endFrame s.cfg.timeBase } } }).countDraw :=
  rfl

/-- `endFrame()` on the common fields, in either time base. -/
theorem endFrame_eq (base : TimeBase) (c : Channel) :
    c.endFrame base = { c with elapsedTime := if base = .perFrame then 0 else c.elapsedTime } := by
  cases base <;> rfl

/-- What a pulse's expiries leave of its own fields (41_pulse.md R134). -/
theorem expireTimes_pulse (n : Nat) (w : PulseWave) :
    expireTimes PulseWave.expire n w = { w with dutyPosition := w.dutyPosition + BitVec.ofNat 4 n } := by
  induction n generalizing w with
  | zero => simp [expireTimes]
  | succ n ih =>
    rw [expireTimes, ih]
    simp only [PulseWave.expire, PulseWave.mk.injEq, true_and]
    rw [BitVec.add_assoc, Nat.add_comm n, BitVec.ofNat_add]
    rfl

theorem level_pulse_le (w : PulseWave) : w.level ≤ 15 := by
  unfold PulseWave.level
  split
  · have := w.volume.isLt
    omega
  · omega

theorem level_saw_le (w : SawWave) : w.level ≤ 31 := by
  have := w.phaseAccumulator.isLt
  simp only [SawWave.level, BitVec.toNat_ushiftRight, Nat.shiftRight_eq_div_pow]
  omega

/-- The step, once its command is known. -/
theorem step_of_command {s : State} {cmd : Command} (hv : validConfig s.cfg = true) (hc : s.program[s.pos]? = some cmd) :
    step s = perform cmd s := by
  simp [step, hv, fetch, hc]

/-- Which commands act on a chip's time past its partitioner. -/
theorem actsPastPartitioner_iff (c : Chip) (cmd : Command) :
    actsPastPartitioner c cmd = true ↔
      (∃ d, cmd = .process c d) ∨ cmd = .endFrame c ∨
        ∃ o, oscChip o = c ∧ ((∃ d, cmd = .oscProcess o d) ∨ cmd = .oscReset o ∨ cmd = .oscEndFrame o) := by
  cases cmd <;> simp [actsPastPartitioner, actsOnLoneTime]

/-- When a command mixes the two interface levels. -/
theorem mixesLevels_iff (s : State) (cmd : Command) :
    s.mixesLevels cmd = true ↔ ∃ c, s.partitionerLevel c = true ∧ actsPastPartitioner c cmd = true := by
  simp only [State.mixesLevels, List.any_cons, List.any_nil, Bool.or_false, Bool.or_eq_true, Bool.and_eq_true]
  constructor
  · rintro (h | h)
    · exact ⟨.pulseSaw, h⟩
    · exact ⟨.pulseMul, h⟩
  · rintro ⟨_ | _, h⟩
    · exact .inl h
    · exact .inr h

/-- Everything a step that answers a next state can have done: nothing, where the driver has no command left, or run one decoded
instruction and moved the driver on. -/
theorem step_cases {s t : State} (h : step s = .next t) :
    validConfig s.cfg = true ∧
      ((s.program[s.pos]? = none ∧ t = s) ∨
        ∃ cmd i u, s.program[s.pos]? = some cmd ∧ decode s.cfg cmd = .ok i ∧ s.mixesLevels cmd = false ∧
          exec i s = .next u ∧ t = u.advance) := by
  unfold step at h
  split at h
  · rename_i hv
    refine ⟨hv, ?_⟩
    split at h
    · rename_i cmd hc
      refine .inr ?_
      unfold perform at h
      split at h
      · rename_i i hi
        split at h
        · cases h
        · rename_i hm
          cases he : exec i s with
          | next u =>
            rw [he] at h
            exact ⟨cmd, i, u, hc, hi, by simpa using hm, he, (Host.Outcome.next.inj h).symm⟩
          | fault r => rw [he] at h; cases h
          | refused r => rw [he] at h; cases h
      · cases h
    · rename_i hc
      exact .inl ⟨hc, (Host.Outcome.next.inj h).symm⟩
  · cases h

end Sys2Proof.Machine
end

