-- ==== Sys2Proof/Laws/Effects.lean ====
section
/-! SUPPORT. What an instruction can do: its meaning as the operation it runs, the operations' frames, and `Ran`, which says once
every next state that an instruction can have. -/

namespace Sys2Proof.Machine

/-! ## Meanings as operations -/

theorem exec_pulseCtrlInstr (k : PulseId) (v : Byte) (s : State) : exec (pulseCtrlInstr k v) s = .next (writeCtrl k v s) := by
  cases k <;> rfl

theorem exec_freqLoInstr (o : OscId) (v : Byte) (s : State) : exec (freqLoInstr o v) s = .next (writeFreqLo o v s) := by
  rcases o with (_ | _ | _ | _) | _ <;> rfl

theorem exec_freqHiInstr (o : OscId) (v : Byte) (s : State) : exec (freqHiInstr o v) s = .next (writeFreqHi o v s) := by
  rcases o with (_ | _ | _ | _) | _ <;> rfl

theorem exec_oscWriteInstr (o : OscId) (n : Nat) (v : Byte) (s : State) :
    exec (oscWriteInstr o n v) s = .next (oscWrite o n v s) := by
  unfold oscWriteInstr oscWrite
  split
  · rcases o with k | _
    · exact exec_pulseCtrlInstr k v s
    · rfl
  · split
    · exact exec_freqLoInstr o v s
    · split
      · exact exec_freqHiInstr o v s
      · rcases o with k | _ <;> rfl

theorem exec_oscProcessInstr (o : OscId) (d : Nat) (s : State) :
    exec (oscProcessInstr o d) s = .next (lone (oscProcess d) o s) := by
  rcases o with (_ | _ | _ | _) | _ <;> rfl

theorem exec_oscResetInstr (o : OscId) (s : State) : exec (oscResetInstr o) s = .next (lone oscReset o s) := by
  rcases o with (_ | _ | _ | _) | _ <;> rfl

theorem exec_oscEndFrameInstr (o : OscId) (s : State) : exec (oscEndFrameInstr o) s = .next (lone oscEndFrame o s) := by
  rcases o with (_ | _ | _ | _) | _ <;> rfl

theorem exec_processInstr (c : Chip) (d : Nat) (s : State) : exec (processInstr c d) s = .next (chipProcess c d s) := by
  cases c <;> rfl

theorem exec_resetInstr (c : Chip) (s : State) : exec (resetInstr c) s = .next ((chipReset c s).setNow c 0) := by
  cases c <;> rfl

theorem exec_endFrameInstr (c : Chip) (s : State) : exec (endFrameInstr c) s = .next (chipEndFrame c s) := by
  cases c <;> rfl

/-- A bus write through the decoder is the chip's write. -/
theorem exec_decodeWrite (c : Chip) (a : Addr) (v : Byte) (s : State) :
    exec (decodeWrite s.cfg c a v) s = .next (chipWrite c a v s) := by
  cases c
  · simp only [decodeWrite, decodePsWrite, chipWrite, chipTarget]
    rcases psTarget_cases s.cfg a with h | ⟨o, n, h⟩ <;> rw [h]
    · rfl
    · exact exec_oscWriteInstr o n v s
  · simp only [decodeWrite, decodePmWrite, chipWrite, chipTarget]
    rcases h : pmTarget s.cfg a with _ | (⟨o, n⟩ | _ | _ | n)
    · rfl
    · exact exec_oscWriteInstr o n v s
    · rfl
    · rfl
    · simp [exec, execAuxWrite, (pmTarget_aux h).1]

/-- A bus read through the decoder is the chip's read. -/
theorem exec_decodeRead (c : Chip) (a : Addr) (s : State) :
    exec (decodeRead s.cfg c a) s = .next (s.answer (chipRead c a s)) := by
  cases c
  · rfl
  · simp only [decodeRead, decodePmRead, chipRead]
    rcases h : pmReadTarget s.cfg a with _ | (⟨o, n⟩ | _ | _ | n)
    · rfl
    · rfl
    · rfl
    · rfl
    · simp [exec, execAuxRead, (pmTarget_aux (pmTarget_of_pmReadTarget h)).1]

/-! ## Frames -/

theorem othersKept_pulse {k : PulseId} {s t : State} (h1 : ∀ k', k' ≠ k → t.pulse k' = s.pulse k')
    (h2 : t.ps.saw = s.ps.saw) : OthersKept [.pulse k] s t := by
  rintro (k' | _) ho
  · exact h1 k' (by simpa using ho)
  · exact h2

theorem othersKept_saw {s t : State} (h : ∀ k, t.pulse k = s.pulse k) : OthersKept [.saw] s t := by
  rintro (k | _) ho
  · exact h k
  · exact absurd ho (by simp)

theorem channel_of_oscKept {o : OscId} {s t : State} (h : OscKept o s t) : t.channel o = s.channel o := by
  rcases o with k | _
  · exact congrArg PulseOscillator.toChannel h
  · exact congrArg SawtoothOscillator.toChannel h

/-- What an update of one oscillator's common fields leaves unchanged. -/
theorem onlyOscillators_setChannel (o : OscId) (c : Channel) (s : State) : OnlyOscillators [o] s (s.setChannel o c) := by
  refine ⟨fun o' ho => ?_, by simp [MulKept], by simp [MemoryKept], by simp [NowsKept], by simp [DriverKept], by simp⟩
  have ho : o' ≠ o := by simpa using ho
  rcases o with (_ | _ | _ | _) | _ <;> rcases o' with (_ | _ | _ | _) | _ <;> first
    | rfl
    | exact absurd rfl ho

theorem waveKept_setChannel (o : OscId) (c : Channel) (s : State) : WaveKept o s (s.setChannel o c) := by
  rcases o with (_ | _ | _ | _) | _ <;> rfl

/-- What an answer leaves unchanged. -/
theorem onlyAnswered_answer (r : ReadResult) (s : State) : OnlyAnswered r s (s.answer r) := by
  refine ⟨rfl, rfl, ?_, rfl, fun _ => rfl, ⟨rfl, rfl⟩, ⟨rfl, rfl, rfl⟩, rfl⟩
  rintro ((_ | _ | _ | _) | _) _ <;> rfl

/-! ## process on one oscillator -/

/-- The common fields of an oscillator after `process(d)`. -/
def drainedChan (d : Nat) (o : OscId) (s : State) : Channel :=
  match o with
  | .pulse k => (pulseDrained d (s.pulse k)).chan
  | .saw => (sawDrained d s.ps.saw).chan

/-- The records an oscillator's `process(d)` emits. -/
def drainedRecords (d : Nat) (o : OscId) (s : State) : List Record :=
  match o with
  | .pulse k => (pulseDrained d (s.pulse k)).records
  | .saw => (sawDrained d s.ps.saw).records

theorem channelTrace_loneProcess (d : Nat) (o : OscId) (s : State) (ch : Nat) :
    (lone (oscProcess d) o s).channelTrace ch = s.channelTrace ch ++ ofChannel ch (drainedRecords d o s) := by
  rcases o with k | _
  · rw [lone, channelTrace_send, oscProcess_pulse, channelTrace_congr (s := s) (by simp)]
    simp [drainedRecords]
  · rw [lone, channelTrace_send, oscProcess_saw, channelTrace_congr (s := s) (by simp)]
    simp [drainedRecords]

theorem channel_loneProcess (d : Nat) (o : OscId) (s : State) :
    (lone (oscProcess d) o s).channel o = drainedChan d o s := by
  rcases o with k | _
  · rw [lone, oscProcess_pulse, State.send_channel]
    simp [State.channel, drainedChan, Drained.toPulse]
  · rw [lone, oscProcess_saw, State.send_channel]
    simp [State.channel, drainedChan, Drained.toSaw]

theorem pulse_loneProcess (d : Nat) (k : PulseId) (s : State) :
    (lone (oscProcess d) (.pulse k) s).pulse k = (pulseDrained d (s.pulse k)).toPulse := by
  rw [lone, oscProcess_pulse, State.send_pulse]
  simp

theorem saw_loneProcess (d : Nat) (s : State) :
    (lone (oscProcess d) .saw s).ps.saw = (sawDrained d s.ps.saw).toSaw := by
  rw [lone, oscProcess_saw, State.send_ps]
  simp

/-- What `process(d)` on one oscillator leaves unchanged. -/
theorem onlyOscillators_loneProcess (d : Nat) (o : OscId) (s : State) :
    OnlyOscillators [o] s (lone (oscProcess d) o s) ∧ (lone (oscProcess d) o s).draws = s.draws := by
  rcases o with k | _
  · refine ⟨⟨othersKept_pulse ?_ ?_, ?_⟩, by simp [lone, oscProcess_pulse]⟩
    · intro k' h
      rw [lone, oscProcess_pulse, State.send_pulse, State.pulse_setPulse_of_ne _ _ _ _ h]
    · simp [lone, oscProcess_pulse]
    · simp [lone, oscProcess_pulse, MulKept, MemoryKept, NowsKept, DriverKept]
  · refine ⟨⟨othersKept_saw ?_, ?_⟩, by simp [lone, oscProcess_saw]⟩
    · simp [lone, oscProcess_saw]
    · simp [lone, oscProcess_saw, MulKept, MemoryKept, NowsKept, DriverKept]

theorem armed_iff (s : State) (o : OscId) : Armed s o ↔ (s.channel o).operating = .armed :=
  (operating_eq_armed_iff _).symm

/-- A reset emits nothing. -/
theorem loneReset_eq (o : OscId) (s : State) : lone oscReset o s = (oscReset o s).1 := by
  rcases o with k | _ <;> (rw [lone]; exact send_of_all_isEmpty _ rfl)

/-! ## Chip operations -/

/-- Each oscillator of the chip is as `process(d)` on it alone leaves it. -/
theorem oscKept_chipProcess {d : Nat} {c : Chip} {o : OscId} (s : State) (h : o ∈ oscillators c) :
    OscKept o (lone (oscProcess d) o s) (chipProcess c d s) := by
  cases c
  · rw [chipProcess_pulseSaw]
    rcases o with (_ | _ | _ | _) | _
    · simp only [OscKept, pulse_loneProcess]
      exact congrArg PulseSawChip.p1 (State.send_ps _ _)
    · simp only [OscKept, pulse_loneProcess]
      exact congrArg PulseSawChip.p2 (State.send_ps _ _)
    · exact absurd h (by decide)
    · exact absurd h (by decide)
    · simp only [OscKept, saw_loneProcess]
      exact congrArg PulseSawChip.saw (State.send_ps _ _)
  · rw [chipProcess_pulseMul]
    rcases o with (_ | _ | _ | _) | _
    · exact absurd h (by decide)
    · exact absurd h (by decide)
    · simp only [OscKept, pulse_loneProcess]
      exact congrArg PulseMulChip.p1 (State.send_pm _ _)
    · simp only [OscKept, pulse_loneProcess]
      exact congrArg PulseMulChip.p2 (State.send_pm _ _)
    · exact absurd h (by decide)

theorem othersKept_chipProcess (d : Nat) (c : Chip) (s : State) : OthersKept (oscillators c) s (chipProcess c d s) := by
  intro o ho
  cases c
  · rw [chipProcess_pulseSaw]
    rcases o with (_ | _ | _ | _) | _
    · exact absurd (by decide) ho
    · exact absurd (by decide) ho
    · exact congrArg PulseMulChip.p1 (State.send_pm _ _)
    · exact congrArg PulseMulChip.p2 (State.send_pm _ _)
    · exact absurd (by decide) ho
  · rw [chipProcess_pulseMul]
    rcases o with (_ | _ | _ | _) | _
    · exact congrArg PulseSawChip.p1 (State.send_ps _ _)
    · exact congrArg PulseSawChip.p2 (State.send_ps _ _)
    · exact absurd (by decide) ho
    · exact absurd (by decide) ho
    · exact congrArg PulseSawChip.saw (State.send_ps _ _)

theorem restKept_chipProcess (d : Nat) (c : Chip) (s : State) :
    MulKept s (chipProcess c d s) ∧ MemoryKept s (chipProcess c d s) ∧ NowsKept s (chipProcess c d s) ∧
      DriverKept s (chipProcess c d s) ∧ (chipProcess c d s).reads = s.reads := by
  cases c
  · rw [chipProcess_pulseSaw]
    simp [MulKept, MemoryKept, NowsKept, DriverKept]
  · rw [chipProcess_pulseMul]
    simp [MulKept, MemoryKept, NowsKept, DriverKept]

theorem channelTrace_chipProcess (d : Nat) (c : Chip) (s : State) (ch : Nat) :
    (chipProcess c d s).channelTrace ch =
      s.channelTrace ch ++ ofChannel ch ((oscillators c).flatMap fun o => drainedRecords d o s) := by
  cases c
  · rw [chipProcess_pulseSaw]
    change (State.send _ _).channelTrace ch = _
    rw [channelTrace_send]
    rfl
  · rw [chipProcess_pulseMul]
    change (State.send _ _).channelTrace ch = _
    rw [channelTrace_send]
    rfl

theorem channelTrace_chipEndFrame (c : Chip) (s : State) (ch : Nat) :
    (chipEndFrame c s).channelTrace ch =
      s.channelTrace ch ++
        ofChannel ch ((oscillators c).map fun o => .frameEnd (s.channel o).ch (s.channel o).elapsedTime) := by
  cases c
  · rw [chipEndFrame_pulseSaw]
    change (State.send _ _).channelTrace ch = _
    rw [channelTrace_send]
    rfl
  · rw [chipEndFrame_pulseMul]
    change (State.send _ _).channelTrace ch = _
    rw [channelTrace_send]
    rfl

theorem channelTrace_writeCtrl (k : PulseId) (v : Byte) (s : State) (ch : Nat) :
    (writeCtrl k v s).channelTrace ch =
      s.channelTrace ch ++
        ofChannel ch (if ctrlGate v then [.level (s.pulse k).ch (ctrlVolume v).toNat (s.pulse k).elapsedTime] else []) := by
  simp only [writeCtrl]
  rw [channelTrace_send, channelTrace_congr (s := s) (by simp)]
  simp [gateRecords, PulseWave.writeCtrl]
  rfl

/-! ## Every next state of an instruction -/

/-- What a bus write or an oscillator-level write can do. -/
inductive Wrote (s : State) : State → Prop where
  | nothing : Wrote s s
  | ctrl (k : PulseId) (v : Byte) : Wrote s (writeCtrl k v s)
  | rate (v : Byte) : Wrote s (writeRate v s)
  | freqLo (o : OscId) (v : Byte) : Wrote s (writeFreqLo o v s)
  | freqHi (o : OscId) (v : Byte) : Wrote s (writeFreqHi o v s)
  | mulA (v : Byte) : Wrote s (writeMulA v s)
  | mulB (v : Byte) : Wrote s (writeMulB v s)
  | aux (n : Nat) (v : Byte) (h : n < s.cfg.pmAuxSize) : Wrote s (writeAux n v s)

/-- What an instruction that answers a next state has done. -/
inductive Ran (s : State) : Instr → State → Prop where
  | wrote (i : Instr) (t : State) (h : Wrote s t) : Ran s i t
  | answered (i : Instr) (r : ReadResult) : Ran s i (s.answer r)
  | oscProcess (o : OscId) (d : Nat) : Ran s (oscProcessInstr o d) (lone (oscProcess d) o s)
  | oscReset (o : OscId) : Ran s (oscResetInstr o) (lone oscReset o s)
  | oscEndFrame (o : OscId) : Ran s (oscEndFrameInstr o) (lone oscEndFrame o s)
  | process (c : Chip) (d : Nat) : Ran s (processInstr c d) (chipProcess c d s)
  | reset (c : Chip) : Ran s (resetInstr c) ((chipReset c s).setNow c 0)
  | endFrame (c : Chip) : Ran s (endFrameInstr c) (chipEndFrame c s)
  | w (c : Chip) (time : Nat) (a : Addr) (v : Byte) (t : State) (h : s.now c ≤ time)
      (hw : Wrote (advanceTo c time s) t) : Ran s (.w c time a v) t
  | ef (c : Chip) (time : Nat) (h : s.now c ≤ time) : Ran s (.ef c time) (frameEndAt c time s)
  | rst (c : Chip) : Ran s (.rst c) ((chipReset c s).setNow c 0)

theorem wrote_oscWrite (o : OscId) (n : Nat) (v : Byte) (s : State) : Wrote s (oscWrite o n v s) := by
  unfold oscWrite
  split
  · rcases o with k | _
    · exact .ctrl k v
    · exact .rate v
  · split
    · exact .freqLo o v
    · split
      · exact .freqHi o v
      · exact .nothing

theorem wrote_chipWrite (c : Chip) (a : Addr) (v : Byte) (s : State) : Wrote s (chipWrite c a v s) := by
  unfold chipWrite
  rcases h : chipTarget s.cfg c a with _ | (⟨o, n⟩ | _ | _ | n)
  · exact .nothing
  · exact wrote_oscWrite o n v s
  · exact .mulA v
  · exact .mulB v
  · refine .aux n v ?_
    cases c
    · rcases psTarget_cases s.cfg a with q | ⟨_, _, q⟩ <;> simp only [chipTarget] at h <;> rw [q] at h <;> cases h
    · exact (pmTarget_aux h).1

/-- Every next state of every instruction. -/
theorem ran_of_next {i : Instr} {s t : State} (h : exec i s = .next t) : Ran s i t := by
  cases i
  case auxWrite n v =>
    simp only [exec, execAuxWrite] at h
    split at h <;> cases h
    exact .wrote _ _ (.aux n v ‹_›)
  case auxRead n =>
    simp only [exec, execAuxRead] at h
    split at h <;> cases h
    exact .answered _ _
  case w c time a v =>
    simp only [exec, execW] at h
    split at h <;> cases h
    exact .w c time a v _ (by omega) (wrote_chipWrite c a v _)
  case ef c time =>
    simp only [exec, execEf] at h
    split at h <;> cases h
    exact .ef c time (by omega)
  case r c time a =>
    simp only [exec, execR] at h
    split at h <;> cases h
    exact .answered _ _
  all_goals cases h
  case p1Ctrl v => exact .wrote _ _ (.ctrl .psP1 v)
  case p2Ctrl v => exact .wrote _ _ (.ctrl .psP2 v)
  case m1Ctrl v => exact .wrote _ _ (.ctrl .pmP1 v)
  case m2Ctrl v => exact .wrote _ _ (.ctrl .pmP2 v)
  case p1FreqLo v => exact .wrote _ _ (.freqLo (.pulse .psP1) v)
  case p2FreqLo v => exact .wrote _ _ (.freqLo (.pulse .psP2) v)
  case m1FreqLo v => exact .wrote _ _ (.freqLo (.pulse .pmP1) v)
  case m2FreqLo v => exact .wrote _ _ (.freqLo (.pulse .pmP2) v)
  case sawFreqLo v => exact .wrote _ _ (.freqLo .saw v)
  case p1FreqHi v => exact .wrote _ _ (.freqHi (.pulse .psP1) v)
  case p2FreqHi v => exact .wrote _ _ (.freqHi (.pulse .psP2) v)
  case m1FreqHi v => exact .wrote _ _ (.freqHi (.pulse .pmP1) v)
  case m2FreqHi v => exact .wrote _ _ (.freqHi (.pulse .pmP2) v)
  case sawFreqHi v => exact .wrote _ _ (.freqHi .saw v)
  case sawRate v => exact .wrote _ _ (.rate v)
  case mulA v => exact .wrote _ _ (.mulA v)
  case mulB v => exact .wrote _ _ (.mulB v)
  case psWriteUnmapped | pmWriteUnmapped | pulseWriteOther | sawWriteOther => exact .wrote _ _ .nothing
  case psRead | mulLoRead | mulHiRead | pmReadUnmapped => exact .answered _ _
  case pulseProcess k d => exact .oscProcess (.pulse k) d
  case sawProcess d => exact .oscProcess .saw d
  case pulseReset k => exact .oscReset (.pulse k)
  case sawReset => exact .oscReset .saw
  case pulseEndFrame k => exact .oscEndFrame (.pulse k)
  case sawEndFrame => exact .oscEndFrame .saw
  case psProcess d => exact .process .pulseSaw d
  case psReset => exact .reset .pulseSaw
  case pmProcess d => exact .process .pulseMul d
  case pmReset => exact .reset .pulseMul
  case psEndFrame => exact .endFrame .pulseSaw
  case pmEndFrame => exact .endFrame .pulseMul
  case rst c => exact .rst c

end Sys2Proof.Machine
end

