-- ==== Sys2Proof/Laws/PerInstr.lean ====
section
/-! SUPPORT. The statements made instruction by instruction: every well-formed instruction has a command that the decoder
accepts. -/

namespace Sys2Proof.Laws.Encodable

open Machine

/-- The command that encodes the instruction decodes to some instruction, where the instruction is well formed under parameters
that keep the constraints. -/
def Statement (i : Instr) : Prop :=
  ∀ cfg : Config, validConfig cfg = true → i.wellFormed cfg = true → ∃ j, decode cfg (encode cfg i) = .ok j

/-- A register write's command is accepted. -/
theorem encodeReg_accepted {cfg : Config} (h : validConfig cfg = true) (o : OscId) {n : Nat} (hn : n ≤ 2) (v : Byte) :
    ∃ j, decode cfg (encodeReg cfg o n v) = .ok j :=
  have ho := (validConfig_facts h).1 o
  ⟨_, decode_busWriteWord _ _ (by omega) v.isLt⟩

/-- The address of a byte of the auxiliary memory is an address of the bus. -/
theorem auxAddr_lt {cfg : Config} {n : Nat} (h : validConfig cfg = true) (hn : decide (n < cfg.pmAuxSize) = true) :
    cfg.pmAuxBase + n < 2 ^ 16 := by
  have := (validConfig_facts h).2.2.2.2.2.1
  have := of_decide_eq_true hn
  omega

theorem p1Ctrl (v : Byte) : Statement (.p1Ctrl v) :=
  fun _ h _ => encodeReg_accepted h _ (by decide) v

theorem p1FreqLo (v : Byte) : Statement (.p1FreqLo v) :=
  fun _ h _ => encodeReg_accepted h _ (by decide) v

theorem p1FreqHi (v : Byte) : Statement (.p1FreqHi v) :=
  fun _ h _ => encodeReg_accepted h _ (by decide) v

theorem p2Ctrl (v : Byte) : Statement (.p2Ctrl v) :=
  fun _ h _ => encodeReg_accepted h _ (by decide) v

theorem p2FreqLo (v : Byte) : Statement (.p2FreqLo v) :=
  fun _ h _ => encodeReg_accepted h _ (by decide) v

theorem p2FreqHi (v : Byte) : Statement (.p2FreqHi v) :=
  fun _ h _ => encodeReg_accepted h _ (by decide) v

theorem sawRate (v : Byte) : Statement (.sawRate v) :=
  fun _ h _ => encodeReg_accepted h _ (by decide) v

theorem sawFreqLo (v : Byte) : Statement (.sawFreqLo v) :=
  fun _ h _ => encodeReg_accepted h _ (by decide) v

theorem sawFreqHi (v : Byte) : Statement (.sawFreqHi v) :=
  fun _ h _ => encodeReg_accepted h _ (by decide) v

theorem psWriteUnmapped (a : Addr) (v : Byte) : Statement (.psWriteUnmapped a v) := by
  intro _ _ _
  simp only [encode]
  exact ⟨_, decode_busWriteWord _ _ a.isLt v.isLt⟩

theorem psRead (a : Addr) : Statement (.psRead a) := by
  intro _ _ _
  simp only [encode]
  exact ⟨_, decode_busReadWord_zero _ _ a.isLt⟩

theorem m1Ctrl (v : Byte) : Statement (.m1Ctrl v) :=
  fun _ h _ => encodeReg_accepted h _ (by decide) v

theorem m1FreqLo (v : Byte) : Statement (.m1FreqLo v) :=
  fun _ h _ => encodeReg_accepted h _ (by decide) v

theorem m1FreqHi (v : Byte) : Statement (.m1FreqHi v) :=
  fun _ h _ => encodeReg_accepted h _ (by decide) v

theorem m2Ctrl (v : Byte) : Statement (.m2Ctrl v) :=
  fun _ h _ => encodeReg_accepted h _ (by decide) v

theorem m2FreqLo (v : Byte) : Statement (.m2FreqLo v) :=
  fun _ h _ => encodeReg_accepted h _ (by decide) v

theorem m2FreqHi (v : Byte) : Statement (.m2FreqHi v) :=
  fun _ h _ => encodeReg_accepted h _ (by decide) v

theorem mulA (v : Byte) : Statement (.mulA v) := by
  intro _ h _
  simp only [encode]
  exact ⟨_, decode_busWriteWord _ _ (validConfig_facts h).2.2.2.1 v.isLt⟩

theorem mulB (v : Byte) : Statement (.mulB v) := by
  intro _ h _
  simp only [encode]
  exact ⟨_, decode_busWriteWord _ _ (validConfig_facts h).2.2.2.2.1 v.isLt⟩

theorem auxWrite (n : Nat) (v : Byte) : Statement (.auxWrite n v) := by
  intro _ h hw
  simp only [encode]
  exact ⟨_, decode_busWriteWord _ _ (auxAddr_lt h hw) v.isLt⟩

theorem pmWriteUnmapped (a : Addr) (v : Byte) : Statement (.pmWriteUnmapped a v) := by
  intro _ _ _
  simp only [encode]
  exact ⟨_, decode_busWriteWord _ _ a.isLt v.isLt⟩

theorem mulLoRead : Statement .mulLoRead := by
  intro _ h _
  simp only [encode]
  exact ⟨_, decode_busReadWord_zero _ _ (validConfig_facts h).2.2.2.1⟩

theorem mulHiRead : Statement .mulHiRead := by
  intro _ h _
  simp only [encode]
  exact ⟨_, decode_busReadWord_zero _ _ (validConfig_facts h).2.2.2.2.1⟩

theorem auxRead (n : Nat) : Statement (.auxRead n) := by
  intro _ h hw
  simp only [encode]
  exact ⟨_, decode_busReadWord_zero _ _ (auxAddr_lt h hw)⟩

theorem pmReadUnmapped (a : Addr) : Statement (.pmReadUnmapped a) := by
  intro _ _ _
  simp only [encode]
  exact ⟨_, decode_busReadWord_zero _ _ a.isLt⟩

theorem psProcess (d : Nat) : Statement (.psProcess d) :=
  fun _ _ _ => ⟨_, rfl⟩

theorem psReset : Statement .psReset :=
  fun _ _ _ => ⟨_, rfl⟩

theorem psEndFrame : Statement .psEndFrame :=
  fun _ _ _ => ⟨_, rfl⟩

theorem pmProcess (d : Nat) : Statement (.pmProcess d) :=
  fun _ _ _ => ⟨_, rfl⟩

theorem pmReset : Statement .pmReset :=
  fun _ _ _ => ⟨_, rfl⟩

theorem pmEndFrame : Statement .pmEndFrame :=
  fun _ _ _ => ⟨_, rfl⟩

theorem w (c : Chip) (t : Nat) (a : Addr) (v : Byte) : Statement (.w c t a v) :=
  fun _ _ _ => ⟨_, if_pos ⟨a.isLt, v.isLt⟩⟩

theorem ef (c : Chip) (t : Nat) : Statement (.ef c t) :=
  fun _ _ _ => ⟨_, rfl⟩

theorem r (c : Chip) (t : Nat) (a : Addr) : Statement (.r c t a) :=
  fun _ _ _ => ⟨_, if_pos a.isLt⟩

theorem rst (c : Chip) : Statement (.rst c) :=
  fun _ _ _ => ⟨_, rfl⟩

theorem pulseWriteOther (k : PulseId) (n : Nat) (v : Byte) : Statement (.pulseWriteOther k n v) :=
  fun _ _ _ => ⟨_, if_pos v.isLt⟩

theorem pulseProcess (k : PulseId) (d : Nat) : Statement (.pulseProcess k d) :=
  fun _ _ _ => ⟨_, rfl⟩

theorem pulseReset (k : PulseId) : Statement (.pulseReset k) :=
  fun _ _ _ => ⟨_, rfl⟩

theorem pulseEndFrame (k : PulseId) : Statement (.pulseEndFrame k) :=
  fun _ _ _ => ⟨_, rfl⟩

theorem sawWriteOther (n : Nat) (v : Byte) : Statement (.sawWriteOther n v) :=
  fun _ _ _ => ⟨_, if_pos v.isLt⟩

theorem sawProcess (d : Nat) : Statement (.sawProcess d) :=
  fun _ _ _ => ⟨_, rfl⟩

theorem sawReset : Statement .sawReset :=
  fun _ _ _ => ⟨_, rfl⟩

theorem sawEndFrame : Statement .sawEndFrame :=
  fun _ _ _ => ⟨_, rfl⟩

end Sys2Proof.Laws.Encodable
end

