-- ==== Sys2Proof/Tests/Slice0.lean ====
section
/-! SUPPORT. Own tests: the well-formedness smoke, one decoded command per instruction written out from the spec's encoding, single
steps with results from 95_test_vectors.md, and for each statement with hypotheses a concrete input that meets them. -/

namespace Sys2Proof.Tests

open Sys2Proof Sys2Proof.Machine

/-! ## Well-formedness: an ill-formed term for each check -/

theorem test_wf_psWriteUnmapped : Instr.wellFormed Config.default (.psWriteUnmapped 0x9002 0x55) = false := by decide
theorem test_wf_psWriteUnmapped_ok : Instr.wellFormed Config.default (.psWriteUnmapped 0x9003 0x55) = true := by decide
theorem test_wf_pmWriteUnmapped : Instr.wellFormed Config.default (.pmWriteUnmapped 0x5FFF 0x55) = false := by decide
theorem test_wf_pmReadUnmapped : Instr.wellFormed Config.default (.pmReadUnmapped 0x5205) = false := by decide
theorem test_wf_pmReadUnmapped_pulse : Instr.wellFormed Config.default (.pmReadUnmapped 0x5000) = true := by decide
theorem test_wf_auxWrite : Instr.wellFormed Config.default (.auxWrite 1024 0x4E) = false := by decide
theorem test_wf_auxRead : Instr.wellFormed Config.default (.auxRead 1024) = false := by decide
theorem test_wf_pulseWriteOther : Instr.wellFormed Config.default (.pulseWriteOther .psP1 2 0xFF) = false := by decide
theorem test_wf_sawWriteOther : Instr.wellFormed Config.default (.sawWriteOther 2 0xFF) = false := by decide

/-! ## Decoding: a word or a record for every instruction (30_encoding.md R79, R80, R72, R86, R89; vectors V1, V8, V18, V19) -/

theorem test_decode_p1 :
    decode Config.default (.bus .pulseSaw 0x190008F) = .ok (.p1Ctrl 0x8F) ∧
    decode Config.default (.bus .pulseSaw 0x1900110) = .ok (.p1FreqLo 0x10) ∧
    decode Config.default (.bus .pulseSaw 0x1900280) = .ok (.p1FreqHi 0x80) := ⟨rfl, rfl, rfl⟩

theorem test_decode_p2 :
    decode Config.default (.bus .pulseSaw 0x1A0008F) = .ok (.p2Ctrl 0x8F) ∧
    decode Config.default (.bus .pulseSaw 0x1A001AB) = .ok (.p2FreqLo 0xAB) ∧
    decode Config.default (.bus .pulseSaw 0x1A00205) = .ok (.p2FreqHi 0x05) := ⟨rfl, rfl, rfl⟩

theorem test_decode_saw :
    decode Config.default (.bus .pulseSaw 0x1B0002A) = .ok (.sawRate 0x2A) ∧
    decode Config.default (.bus .pulseSaw 0x1B0012C) = .ok (.sawFreqLo 0x2C) ∧
    decode Config.default (.bus .pulseSaw 0x1B00280) = .ok (.sawFreqHi 0x80) := ⟨rfl, rfl, rfl⟩

theorem test_decode_ps_unmapped :
    decode Config.default (.bus .pulseSaw 0x1900355) = .ok (.psWriteUnmapped 0x9003 0x55) ∧
    decode Config.default (.bus .pulseSaw 0x1B003FF) = .ok (.psWriteUnmapped 0xB003 0xFF) ∧
    decode Config.default (.bus .pulseSaw 0x0900000) = .ok (.psRead 0x9000) ∧
    decode Config.default (.bus .pulseSaw 0x0B00277) = .ok (.psRead 0xB002) := ⟨rfl, rfl, rfl, rfl⟩

theorem test_decode_m1 :
    decode Config.default (.bus .pulseMul 0x150009C) = .ok (.m1Ctrl 0x9C) ∧
    decode Config.default (.bus .pulseMul 0x1500104) = .ok (.m1FreqLo 0x04) ∧
    decode Config.default (.bus .pulseMul 0x1500280) = .ok (.m1FreqHi 0x80) := ⟨rfl, rfl, rfl⟩

theorem test_decode_m2 :
    decode Config.default (.bus .pulseMul 0x150049C) = .ok (.m2Ctrl 0x9C) ∧
    decode Config.default (.bus .pulseMul 0x1500504) = .ok (.m2FreqLo 0x04) ∧
    decode Config.default (.bus .pulseMul 0x1500680) = .ok (.m2FreqHi 0x80) := ⟨rfl, rfl, rfl⟩

theorem test_decode_mul :
    decode Config.default (.bus .pulseMul 0x15205C8) = .ok (.mulA 200) ∧
    decode Config.default (.bus .pulseMul 0x1520664) = .ok (.mulB 100) ∧
    decode Config.default (.bus .pulseMul 0x0520500) = .ok .mulLoRead ∧
    decode Config.default (.bus .pulseMul 0x0520600) = .ok .mulHiRead := ⟨rfl, rfl, rfl, rfl⟩

theorem test_decode_aux :
    decode Config.default (.bus .pulseMul 0x15C034E) = .ok (.auxWrite 3 0x4E) ∧
    decode Config.default (.bus .pulseMul 0x15FFF01) = .ok (.auxWrite 1023 0x01) ∧
    decode Config.default (.bus .pulseMul 0x05C0300) = .ok (.auxRead 3) := ⟨rfl, rfl, rfl⟩

theorem test_decode_pm_unmapped :
    decode Config.default (.bus .pulseMul 0x1500355) = .ok (.pmWriteUnmapped 0x5003 0x55) ∧
    decode Config.default (.bus .pulseMul 0x0500000) = .ok (.pmReadUnmapped 0x5000) ∧
    decode Config.default (.bus .pulseMul 0x0520700) = .ok (.pmReadUnmapped 0x5207) ∧
    decode Config.default (.bus .pulseMul 0x0600000) = .ok (.pmReadUnmapped 0x6000) := ⟨rfl, rfl, rfl, rfl⟩

theorem test_decode_ctl :
    decode Config.default (.process .pulseSaw 17) = .ok (.psProcess 17) ∧
    decode Config.default (.reset .pulseSaw) = .ok .psReset ∧
    decode Config.default (.endFrame .pulseSaw) = .ok .psEndFrame ∧
    decode Config.default (.process .pulseMul 0) = .ok (.pmProcess 0) ∧
    decode Config.default (.reset .pulseMul) = .ok .pmReset ∧
    decode Config.default (.endFrame .pulseMul) = .ok .pmEndFrame := ⟨rfl, rfl, rfl, rfl, rfl, rfl⟩

theorem test_decode_part :
    decode Config.default (.partWrite .pulseSaw 350 0x9000 0xB5) = .ok (.w .pulseSaw 350 0x9000 0xB5) ∧
    decode Config.default (.partEndFrame .pulseMul 30) = .ok (.ef .pulseMul 30) ∧
    decode Config.default (.partRead .pulseMul 20 0x5205) = .ok (.r .pulseMul 20 0x5205) ∧
    decode Config.default (.partReset .pulseSaw) = .ok (.rst .pulseSaw) := ⟨rfl, rfl, rfl, rfl⟩

theorem test_decode_osc_pulse :
    decode Config.default (.oscWrite (.pulse .psP1) 3 0xFF) = .ok (.pulseWriteOther .psP1 3 0xFF) ∧
    decode Config.default (.oscWrite (.pulse .pmP2) 0 0x3A) = .ok (.m2Ctrl 0x3A) ∧
    decode Config.default (.oscProcess (.pulse .pmP1) 5) = .ok (.pulseProcess .pmP1 5) ∧
    decode Config.default (.oscReset (.pulse .psP2)) = .ok (.pulseReset .psP2) ∧
    decode Config.default (.oscEndFrame (.pulse .psP1)) = .ok (.pulseEndFrame .psP1) := ⟨rfl, rfl, rfl, rfl, rfl⟩

theorem test_decode_osc_saw :
    decode Config.default (.oscWrite .saw 3 0x55) = .ok (.sawWriteOther 3 0x55) ∧
    decode Config.default (.oscProcess .saw 28) = .ok (.sawProcess 28) ∧
    decode Config.default (.oscReset .saw) = .ok .sawReset ∧
    decode Config.default (.oscEndFrame .saw) = .ok .sawEndFrame := ⟨rfl, rfl, rfl, rfl⟩

/-- The table's words for the host: a word of either chip, and one of neither. -/
theorem test_decodeTableWord :
    decodeTableWord 32 0x1520664 = some (.mulB 100) ∧ decodeTableWord 32 0x1A00205 = some (.p2FreqHi 0x05) ∧
    decodeTableWord 32 0x1000000 = some (.psWriteUnmapped 0 0) ∧ decodeTableWord 32 0x2000000 = none :=
  ⟨rfl, rfl, rfl, rfl⟩

theorem test_withFetchWord : step (State.reset.withFetchWord 32 0x190008F) =
    advanceResult (exec (.p1Ctrl 0x8F) (State.reset.withFetchWord 32 0x190008F)) := rfl

/-! ## Small states -/

/-- The next state, if there is one. -/
def got : Result → Option State
  | .next s => some s
  | .fault _ => none
  | .refused _ => none

/-- The pulse of vector V12: gate 0, duty cycle 1, volume 15, counting down from `v` with frequency `f`. -/
def tone (v : Nat) (f : BitVec 12) : PulseOscillator :=
  { enabled := true, freqLow := f.setWidth 8, freqHigh := (f >>> 8).setWidth 4, frequency := f, divider := v,
    elapsedTime := 0, ch := 0, gate := false, dutyCycle := 1, volume := 15, dutyPosition := 0 }

/-- Vector V16's sawtooth: Armed, one cycle before an expiry. -/
def ramp (acc : BitVec 8) (inp : BitVec 6) (seq : BitVec 4) : SawtoothOscillator :=
  { enabled := true, freqLow := 1, freqHigh := 0, frequency := 1, divider := 1, elapsedTime := 0, ch := 2,
    phaseAccumulator := acc, phaseInput := inp, resetSequence := seq }

/-- The reset state with PulseSawChip pulse 1 replaced. -/
def withTone (v : Nat) (f : BitVec 12) : State := State.reset.setPulse .psP1 (tone v f)

/-- The reset state with the sawtooth replaced. -/
def withRamp (acc : BitVec 8) (inp : BitVec 6) (seq : BitVec 4) : State := State.reset.setSaw (ramp acc inp seq)

/-- The reset state with the multiplier's operands set. -/
def withMul (a b : Byte) : State := State.reset.setMul { mulA := a, mulB := b }

/-- The reset state with a driver's program. -/
def withProgram (l : List Command) : State := { State.reset with program := l }

/-- A configuration in the per-frame time base. -/
def perFrame : State := { withTone 5 9 with cfg := { Config.default with timeBase := .perFrame } }

/-! ## Single steps (95_test_vectors.md) -/

/-- V10, `write(0, 0xA3)` on each pulse: gate 1, duty cycle 3, volume 3, one record. -/
theorem test_p1Ctrl : (got (exec (.p1Ctrl 0xA3) State.reset)).map (fun t => (t.ps.p1.gate, t.ps.p1.dutyCycle, t.ps.p1.volume,
    t.channelTrace 0)) = some (true, 3, 3, [.level 0 3 0]) := by decide
theorem test_p1Ctrl_gate_off : (got (exec (.p1Ctrl 0x7F) State.reset)).map (fun t => (t.ps.p1.gate, t.ps.p1.dutyCycle,
    t.ps.p1.volume, t.channelTrace 0)) = some (false, 8, 15, []) := by decide
theorem test_p2Ctrl : (got (exec (.p2Ctrl 0xA3) State.reset)).map (fun t => (t.ps.p2.dutyCycle, t.channelTrace 1)) =
    some (3, [.level 1 3 0]) := by decide
theorem test_m1Ctrl : (got (exec (.m1Ctrl 0xA3) State.reset)).map (fun t => (t.pm.p1.dutyCycle, t.channelTrace 3)) =
    some (3, [.level 3 3 0]) := by decide
theorem test_m2Ctrl : (got (exec (.m2Ctrl 0xA3) State.reset)).map (fun t => (t.pm.p2.dutyCycle, t.channelTrace 4)) =
    some (3, [.level 4 3 0]) := by decide

/-- V7, each half of the frequency with the other half already there. -/
theorem test_p1FreqLo : (got (exec (.p1FreqLo 0x34) (withTone 5 0x200))).map (fun t => t.ps.p1.frequency) = some 0x234 := by
  decide
theorem test_p1FreqHi : (got (exec (.p1FreqHi 0xF2) (withTone 5 0x034))).map (fun t => (t.ps.p1.frequency, t.ps.p1.enabled,
    t.ps.p1.freqHigh, t.ps.p1.divider)) = some (0x234, true, 2, 5) := by decide
theorem test_p2FreqLo : (got (exec (.p2FreqLo 0xAB) State.reset)).map (fun t => t.ps.p2.frequency) = some 0x0AB := by decide
theorem test_p2FreqHi : (got (exec (.p2FreqHi 0x8C) State.reset)).map (fun t => (t.ps.p2.frequency, t.ps.p2.enabled)) =
    some (0xC00, true) := by decide
theorem test_m1FreqLo : (got (exec (.m1FreqLo 0xAB) State.reset)).map (fun t => t.pm.p1.frequency) = some 0x0AB := by decide
theorem test_m1FreqHi : (got (exec (.m1FreqHi 0x7C) State.reset)).map (fun t => (t.pm.p1.frequency, t.pm.p1.enabled)) =
    some (0xC00, false) := by decide
theorem test_m2FreqLo : (got (exec (.m2FreqLo 0xAB) State.reset)).map (fun t => t.pm.p2.frequency) = some 0x0AB := by decide
theorem test_m2FreqHi : (got (exec (.m2FreqHi 0x8C) State.reset)).map (fun t => (t.pm.p2.frequency, t.pm.p2.enabled)) =
    some (0xC00, true) := by decide

/-- V11. -/
theorem test_sawRate : (got (exec (.sawRate 0xFF) State.reset)).map (fun t => t.ps.saw.phaseInput) = some 63 := by decide
theorem test_sawFreqLo : (got (exec (.sawFreqLo 0x10) State.reset)).map (fun t => t.ps.saw.frequency) = some 0x010 := by decide
theorem test_sawFreqHi : (got (exec (.sawFreqHi 0x83) (withRamp 0 0 0))).map (fun t => (t.ps.saw.frequency, t.ps.saw.enabled)) =
    some (0x301, true) := by decide

/-- V19: products and the memory; V8: unmapped reads (their value is not asserted). -/
theorem test_mulLoRead : (got (exec .mulLoRead (withMul 255 100))).map (·.reads) = some [⟨0x9C, true⟩] := by decide
theorem test_mulHiRead : (got (exec .mulHiRead (withMul 255 100))).map (·.reads) = some [⟨0x63, true⟩] := by decide
theorem test_mulA : (got (exec (.mulA 200) (withMul 1 2))).map (·.pm.mul) = some ⟨200, 2⟩ := by decide
theorem test_mulB : (got (exec (.mulB 100) (withMul 1 2))).map (·.pm.mul) = some ⟨1, 100⟩ := by decide
theorem test_auxWrite : (got (exec (.auxWrite 3 0x4E) State.reset)).map (·.pm.aux) = some [(3, 0x4E)] := by decide
theorem test_auxRead : (got (exec (.auxRead 3) (State.reset.setAux [(3, 0x4E)]))).map (·.reads) = some [⟨0x4E, true⟩] := by
  decide
theorem test_psRead : (got (exec (.psRead 0x9000) State.reset)).map (fun t => t.reads.map (·.mapped)) = some [false] := by decide
theorem test_pmReadUnmapped : (got (exec (.pmReadUnmapped 0x5000) State.reset)).map (fun t => t.reads.map (·.mapped)) =
    some [false] := by decide
theorem test_writes_of_nothing : exec (.psWriteUnmapped 0x9003 0x55) State.reset = .next State.reset ∧
    exec (.pmWriteUnmapped 0x5003 0x55) State.reset = .next State.reset ∧
    exec (.pulseWriteOther .psP1 3 0xFF) State.reset = .next State.reset ∧
    exec (.sawWriteOther 3 0x55) State.reset = .next State.reset := ⟨rfl, rfl, rfl, rfl⟩

/-- V12, the row with divider 1, frequency 16 and `process(18)`. -/
theorem test_pulseProcess : (got (exec (.pulseProcess .psP1 18) (withTone 1 16))).map (fun t => (t.ps.p1.divider,
    t.ps.p1.dutyPosition, t.channelTrace 0)) = some (17, 2, [.level 0 15 1, .level 0 15 18]) := by decide
/-- V12, the row with divider 5, frequency 9 and `process(4)`. -/
theorem test_pulseProcess_none : (got (exec (.pulseProcess .psP1 4) (withTone 5 9))).map (fun t => (t.ps.p1.divider,
    t.ps.p1.dutyPosition, t.channelTrace 0)) = some (1, 0, []) := by decide
/-- V16, the odd-step add that wraps, and the forced zero. -/
theorem test_sawProcess : (got (exec (.sawProcess 1) (withRamp 200 63 3))).map (fun t => (t.ps.saw.phaseAccumulator,
    t.ps.saw.resetSequence, t.channelTrace 2)) = some (7, 4, [.level 2 0 1]) := by decide
theorem test_sawProcess_zero : (got (exec (.sawProcess 1) (withRamp 100 20 13))).map (fun t => (t.ps.saw.phaseAccumulator,
    t.ps.saw.resetSequence, t.channelTrace 2)) = some (0, 0, [.level 2 0 1]) := by decide
theorem test_pulseReset : (got (exec (.pulseReset .psP1) (withTone 5 9))).map (·.ps.p1) = some (.initial 0) := by decide
theorem test_sawReset : (got (exec .sawReset (withRamp 200 63 3))).map (·.ps.saw) = some (.initial 2) := by decide
theorem test_pulseEndFrame : (got (exec (.pulseEndFrame .psP1) (withTone 5 9))).map (fun t => (t.ps.p1, t.channelTrace 0)) =
    some (tone 5 9, [.frameEnd 0 0]) := by decide
theorem test_sawEndFrame : (got (exec .sawEndFrame (withRamp 200 63 3))).map (fun t => t.channelTrace 2) =
    some [.frameEnd 2 0] := by decide

/-- V18's fan-out, with pulse 1 in the place of pulse 2. -/
theorem test_psProcess : (got (exec (.psProcess 10) (withTone 0 9))).map (fun t => (t.channelTrace 0, t.channelTrace 1,
    t.ps.p2.elapsedTime, t.ps.saw.elapsedTime)) = some ([.level 0 15 0, .level 0 15 10], [], 10, 10) := by decide
theorem test_psEndFrame : (got (exec .psEndFrame (withTone 0 9))).map (fun t => (t.channelTrace 0, t.channelTrace 2)) =
    some ([.frameEnd 0 0], [.frameEnd 2 0]) := by decide
theorem test_psReset : (got (exec .psReset (withTone 5 9))).map (·.ps) = some State.reset.ps := by decide
theorem test_pmProcess : (got (exec (.pmProcess 10) (withMul 3 7))).map (fun t => (t.pm.p2.elapsedTime, t.pm.mul)) =
    some (10, ⟨3, 7⟩) := by decide
theorem test_pmEndFrame : (got (exec .pmEndFrame State.reset)).map (fun t => (t.channelTrace 3, t.channelTrace 4)) =
    some ([.frameEnd 3 0], [.frameEnd 4 0]) := by decide
/-- V19: the reset zeroes the operands and keeps the memory. -/
theorem test_pmReset : (got (exec .pmReset ((withMul 3 7).setAux [(3, 0x4E)]))).map (fun t => (t.pm.mul, t.pm.aux)) =
    some (⟨0, 0⟩, [(3, 0x4E)]) := by decide

/-- V20: the expiries up to the write's own cycle come before it. -/
theorem test_w : (got (exec (.w .pulseSaw 10 0x9000 0x8A) (withTone 0 9))).map (fun t => (t.psNow, t.channelTrace 0)) =
    some (10, [.level 0 15 0, .level 0 15 10, .level 0 10 10]) := by decide
theorem test_ef : (got (exec (.ef .pulseSaw 10) (withTone 0 9))).map (fun t => (t.psNow, t.channelTrace 0)) =
    some (10, [.level 0 15 0, .level 0 15 10, .frameEnd 0 10]) := by decide
/-- V20, per-frame: time and `now` start again. -/
theorem test_ef_perFrame : (got (exec (.ef .pulseSaw 10) perFrame)).map (fun t => (t.psNow, t.ps.p1.elapsedTime,
    t.ps.saw.elapsedTime)) = some (0, 0, 0) := by decide
theorem test_r : (got (exec (.r .pulseMul 20 0x5205) (withMul 255 100))).map (fun t => (t.pmNow, t.reads)) =
    some (0, [⟨0x9C, true⟩]) := by decide
theorem test_rst : (got (exec (.rst .pulseSaw) ((withTone 5 9).setNow .pulseSaw 20))).map (fun t => (t.psNow, t.ps)) =
    some (0, State.reset.ps) := by decide

/-- R125: the other commands that act on a chip's time past its partitioner are refused in a partitioner-level program; those that do
not, and the other chip's, are not. -/
theorem test_mixed_levels : step (withProgram [.endFrame .pulseSaw, .partReset .pulseSaw]) = .refused .mixedLevels ∧
    step (withProgram [.oscProcess .saw 5, .partReset .pulseSaw]) = .refused .mixedLevels ∧
    step (withProgram [.oscReset .saw, .partReset .pulseSaw]) = .refused .mixedLevels ∧
    step (withProgram [.oscEndFrame .saw, .partReset .pulseSaw]) = .refused .mixedLevels ∧
    (withProgram [.partReset .pulseSaw]).mixesLevels (.bus .pulseSaw 0x190008F) = false ∧
    (withProgram [.partReset .pulseSaw]).mixesLevels (.reset .pulseSaw) = false ∧
    (withProgram [.partReset .pulseSaw]).mixesLevels (.process .pulseMul 5) = false := ⟨rfl, rfl, rfl, rfl, rfl, rfl, rfl⟩

/-- V21; also an input for each refusal RefusedExactlyByName names. -/
theorem test_refusals : step (withProgram [.process .pulseSaw (-1)]) = .refused .negativeDelta ∧
    step (withProgram [.partWrite .pulseSaw 0 0x9000 256]) = .refused .valueOutOfRange ∧
    step ((withProgram [.partEndFrame .pulseSaw 19]).setNow .pulseSaw 20) = .refused .timestampBeforeNow ∧
    step (withProgram [.process .pulseSaw 5, .partReset .pulseSaw]) = .refused .mixedLevels ∧
    construct { Config.default with psP2Base := 0x9002 } = .refused .badConfiguration := ⟨rfl, rfl, rfl, rfl, rfl⟩

/-- 30_encoding.md R88: `@5 PCTRL P1, 1, 3, 3` and `@5 SILENCE P1`. -/
theorem test_assemble : assemble Config.default .pulseSaw (.pctrl 5 .psP1 1 3 3) = .ok [.partWrite .pulseSaw 5 0x9000 0xA3] ∧
    assemble Config.default .pulseSaw (.silence 5 .psP1) = .ok [.partWrite .pulseSaw 5 0x9000 0x80] := ⟨rfl, rfl⟩

/-! ## Witnesses: concrete inputs that meet the hypotheses of each statement, one for each clause -/

/-- PulseCtrlWrite's last clause. -/
theorem witness_PulseCtrlWrite : 128 ≤ (0x80 : Byte).toNat := by decide

/-- OtherIndexWrites, at the lowest index. -/
theorem witness_OtherIndexWrites : 3 ≤ 3 ∧ validConfig State.reset.cfg = true := by decide

/-- UnmappedWrites, one past pulse 1's registers on each chip. -/
theorem witness_UnmappedWrites :
    (∀ r ∈ psRegions State.reset.cfg, ¬ (r.1 ≤ (0x9003 : Addr).toNat ∧ (0x9003 : Addr).toNat < r.1 + r.2)) ∧
    ∀ r ∈ pmRegions State.reset.cfg, ¬ (r.1 ≤ (0x5003 : Addr).toNat ∧ (0x5003 : Addr).toNat < r.1 + r.2) := by decide

/-- PmReadUnmapped, on either side of the auxiliary memory. -/
theorem witness_PmReadUnmapped : [(0x5BFF : Addr), 0x6000, 0x5000].all (fun a =>
    decide (a.toNat ≠ State.reset.cfg.pmMulLo ∧ a.toNat ≠ State.reset.cfg.pmMulHi ∧
      ¬ (State.reset.cfg.pmAuxBase ≤ a.toNat ∧ a.toNat < State.reset.cfg.pmAuxBase + State.reset.cfg.pmAuxSize))) = true := by
  decide

theorem witness_AuxWriteStores : 1023 < State.reset.cfg.pmAuxSize := by decide

theorem witness_AuxReadLoads : 1023 < State.reset.cfg.pmAuxSize ∧
    exec (.auxWrite 1023 0x01) State.reset = .next (writeAux 1023 0x01 State.reset) ∧
    Memory.lookup 1023 State.reset.pm.aux = none := ⟨by decide, rfl, rfl⟩

theorem witness_AuxIndexOutsideFaults : State.reset.cfg.pmAuxSize ≤ 1024 := by decide

/-- ProcessGuard, Disabled with a frequency and Idle. -/
theorem witness_ProcessGuard :
    (((withTone 5 9).setChannel (.pulse .psP1) { (tone 5 9).toChannel with enabled := false }).channel
      (.pulse .psP1)).enabled = false ∧ ((withTone 5 0).channel (.pulse .psP1)).frequency = 0 ∧
    ((withTone 5 0).channel (.pulse .psP1)).enabled = true := ⟨rfl, rfl, rfl⟩

/-- ExpiryCountAndTimes, the last `d` before an expiry and the first with one. -/
theorem witness_ExpiryCountAndTimes : Armed (withTone 5 9) (.pulse .psP1) ∧
    4 < ((withTone 5 9).channel (.pulse .psP1)).divider ∧ ((withTone 5 9).channel (.pulse .psP1)).divider ≤ 5 :=
  ⟨⟨rfl, by decide⟩, by decide, by decide⟩

/-- SawProcess and SawFourteenExpiries' second clause: a sequence at the end of its range, 14 expiries. -/
theorem witness_SawProcess : SequenceInvariant (withRamp 100 20 13) ∧ Armed (withRamp 100 20 13) .saw ∧
    expiries (withRamp 100 20 13).ps.saw.divider (withRamp 100 20 13).ps.saw.frequency.toNat 27 = 14 :=
  ⟨by unfold SequenceInvariant; decide, ⟨rfl, by decide⟩, by decide⟩

/-- SawFourteenExpiries' first clause, with 0, 13 and 14 expiries. -/
theorem witness_SawFourteenExpiries : Armed (withRamp 200 63 0) .saw ∧ (withRamp 200 63 0).ps.saw.resetSequence = 0 ∧
    expiries (withRamp 200 63 0).ps.saw.divider (withRamp 200 63 0).ps.saw.frequency.toNat 0 = 0 ∧
    expiries (withRamp 200 63 0).ps.saw.divider (withRamp 200 63 0).ps.saw.frequency.toNat 25 = 13 ∧
    expiries (withRamp 200 63 0).ps.saw.divider (withRamp 200 63 0).ps.saw.frequency.toNat 27 = 14 :=
  ⟨⟨rfl, by decide⟩, rfl, by decide, by decide, by decide⟩

/-- The reset state, with or without a tone, carries the channel identifiers it was constructed with. -/
theorem channels_withTone : ChannelsInvariant (withTone 5 9) := ⟨by decide, by rintro ((_ | _ | _ | _) | _) <;> rfl⟩

theorem witness_ChipBatchingInvariance : ChannelsInvariant (withTone 5 9) := channels_withTone

/-- DividerAfterProcess, in each of its clauses; the divider at `frequency + 1`, its largest value there. -/
theorem witness_DividerAfterProcess : Armed (withTone 10 9) (.pulse .psP1) ∧
    ((withTone 10 9).channel (.pulse .psP1)).divider ≤ 10 ∧
    ((withTone 10 9).channel (.pulse .psP1)).divider ≤ ((withTone 10 9).channel (.pulse .psP1)).frequency.toNat + 1 ∧
    9 < ((withTone 10 9).channel (.pulse .psP1)).divider := ⟨⟨rfl, by decide⟩, by decide, by decide, by decide⟩

theorem witness_FirstExpiryAtOnce : Armed (withTone 0 16) (.pulse .psP1) ∧
    ((withTone 0 16).channel (.pulse .psP1)).divider = 0 := ⟨⟨rfl, by decide⟩, rfl⟩

/-- DutyTable: 16 expiries of vector V12's pulse. -/
theorem witness_DutyTable : Armed (withTone 1 1) (.pulse .psP1) ∧ ((withTone 1 1).pulse .psP1).gate = false ∧
    ((withTone 1 1).pulse .psP1).volume ≠ 0 ∧
    expiries ((withTone 1 1).pulse .psP1).divider ((withTone 1 1).pulse .psP1).frequency.toNat 31 = 16 :=
  ⟨⟨rfl, by decide⟩, rfl, by decide, by decide⟩

/-- WaveformPeriods, at both ends of the divider's range, and for a sawtooth on its cycle. -/
theorem witness_WaveformPeriods : Armed (withTone 1 9) (.pulse .psP1) ∧ 1 ≤ ((withTone 1 9).pulse .psP1).divider ∧
    Armed (withTone 10 9) (.pulse .psP1) ∧
    ((withTone 10 9).pulse .psP1).divider ≤ ((withTone 10 9).pulse .psP1).frequency.toNat + 1 ∧
    Armed (withRamp 84 42 4) .saw ∧ SequenceInvariant (withRamp 84 42 4) ∧ 1 ≤ (withRamp 84 42 4).ps.saw.divider ∧
    (withRamp 84 42 4).ps.saw.divider ≤ (withRamp 84 42 4).ps.saw.frequency.toNat + 1 ∧
    (withRamp 84 42 4).ps.saw.phaseAccumulator.toNat =
      (withRamp 84 42 4).ps.saw.resetSequence.toNat / 2 * (withRamp 84 42 4).ps.saw.phaseInput.toNat % 256 :=
  ⟨⟨rfl, by decide⟩, by decide, ⟨rfl, by decide⟩, by decide, ⟨rfl, by decide⟩, by unfold SequenceInvariant; decide, by decide,
    by decide, by decide⟩

/-- FanOutOrderIrrelevant: the sawtooth first. -/
theorem witness_FanOutOrderIrrelevant : [OscId.saw, .pulse .psP2, .pulse .psP1].Perm (oscillators .pulseSaw) := by decide

theorem witness_FanoutCodesAreAllOrders :
    [[Record.frameEnd 1 0], [.frameEnd 0 0]].Perm [[Record.frameEnd 0 0], [.frameEnd 1 0]] := by decide

/-- A sink with one tidy batch of two blocks. -/
def framed (draw : Nat) : State :=
  { State.reset with sink := [{ command := 0, draw := draw, blocks := [[.frameEnd 0 0], [.frameEnd 1 0]] }], draws := draw }

theorem witness_ProjectionIndependentOfDraw : SinkInvariant (framed 0) := by
  intro b hb
  obtain rfl := List.mem_singleton.1 hb
  unfold Batch.Tidy
  decide

theorem witness_DrawsNeverMatter : SameButDraws (framed 0) (framed 7) ∧ framed 0 ≠ framed 7 :=
  ⟨⟨rfl, rfl, rfl, rfl, rfl, rfl, rfl, rfl, rfl⟩, by decide⟩

theorem witness_ChipReset : (Instr.psReset = resetInstr .pulseSaw) ∧ (Instr.pmReset = resetInstr .pulseMul) := ⟨rfl, rfl⟩

/-- The partitioner's statements: a timestamp equal to `now`, and one below it. -/
theorem witness_PartitionerWrite : (State.reset.setNow .pulseSaw 20).now .pulseSaw ≤ 20 ∧
    19 < (State.reset.setNow .pulseSaw 20).now .pulseSaw := by decide

theorem witness_PartitionerEndFrame : perFrame.now .pulseSaw ≤ 0 ∧ perFrame.cfg.timeBase = .perFrame ∧
    State.reset.cfg.timeBase = .cumulative ∧ 19 < (State.reset.setNow .pulseMul 20).now .pulseMul := by decide

theorem witness_PartitionerRead : (State.reset.setNow .pulseMul 20).now .pulseMul ≤ 20 ∧
    19 < (State.reset.setNow .pulseMul 20).now .pulseMul := by decide

theorem witness_TimestampBeforeNowRefused : 19 < (State.reset.setNow .pulseMul 20).now .pulseMul := by decide

/-- EmissionPoints: a FREQ_LO write is none of the instructions that may send. -/
theorem witness_EmissionPoints : exec (.p1FreqLo 0x10) State.reset = .next (writeFreqLo (.pulse .psP1) 0x10 State.reset) ∧
    (∀ k v, Instr.p1FreqLo 0x10 ≠ pulseCtrlInstr k v) ∧ (∀ o d, Instr.p1FreqLo 0x10 ≠ oscProcessInstr o d) ∧
    (∀ c d, Instr.p1FreqLo 0x10 ≠ processInstr c d) ∧ (∀ o, Instr.p1FreqLo 0x10 ≠ oscEndFrameInstr o) ∧
    (∀ c, Instr.p1FreqLo 0x10 ≠ endFrameInstr c) ∧ (∀ c time a v, Instr.p1FreqLo 0x10 ≠ .w c time a v) ∧
    ∀ c time, Instr.p1FreqLo 0x10 ≠ .ef c time := by
  refine ⟨rfl, ?_, ?_, ?_, ?_, ?_, ?_, ?_⟩
  · rintro (_ | _ | _ | _) v h <;> cases h
  · rintro (k | _) d h <;> cases h
  · rintro (_ | _) d h <;> cases h
  · rintro (k | _) h <;> cases h
  · rintro (_ | _) h <;> cases h
  · intro c time a v h; cases h
  · intro c time h; cases h

theorem witness_CommandsTakeNoTime : exec (.psProcess 10) State.reset = .next (chipProcess .pulseSaw 10 State.reset) ∧
    (State.reset.channel .saw).elapsedTime < ((chipProcess .pulseSaw 10 State.reset).channel .saw).elapsedTime :=
  ⟨rfl, by decide⟩

/-- StepRunsDecoded, with an instruction that answers a next state, with one that is refused, and with a command that mixes the
interface levels. -/
theorem witness_StepRunsDecoded : validConfig (withProgram [.bus .pulseSaw 0x190008F]).cfg = true ∧
    (withProgram [.bus .pulseSaw 0x190008F]).program[0]? = some (.bus .pulseSaw 0x190008F) ∧
    decode (withProgram [.bus .pulseSaw 0x190008F]).cfg (.bus .pulseSaw 0x190008F) = .ok (.p1Ctrl 0x8F) ∧
    exec (.p1Ctrl 0x8F) (withProgram [.bus .pulseSaw 0x190008F]) =
      .next (writeCtrl .psP1 0x8F (withProgram [.bus .pulseSaw 0x190008F])) ∧
    (withProgram [.bus .pulseSaw 0x190008F]).mixesLevels (.bus .pulseSaw 0x190008F) = false ∧
    exec (.ef .pulseSaw 19) (State.reset.setNow .pulseSaw 20) = .refused .timestampBeforeNow ∧
    decode State.reset.cfg (.endFrame .pulseSaw) = .ok .psEndFrame ∧
    (withProgram [.endFrame .pulseSaw, .partReset .pulseSaw]).mixesLevels (.endFrame .pulseSaw) = true :=
  ⟨by decide, rfl, rfl, rfl, rfl, rfl, rfl, rfl⟩

/-- DecodeEncodeAgree, at the last byte of the memory. -/
theorem witness_DecodeEncodeAgree : validConfig Config.default = true ∧
    Instr.wellFormed Config.default (.auxWrite 1023 0xFF) = true := by decide

/-- EveryBusWordDecodes: the largest word, the smallest write and the largest read. -/
theorem witness_EveryBusWordDecodes : validConfig Config.default = true ∧ 2 ^ 25 - 1 < 2 ^ 25 ∧ 2 ^ 24 ≤ 2 ^ 24 ∧
    2 ^ 24 - 1 < 2 ^ 24 := by decide

theorem witness_AddressMapsDisjoint : validConfig Config.default = true ∧
    (pmRegions Config.default)[4]? = some (0x5C00, 1024) ∧ 0x5C00 ≤ 0x5FFF ∧ 0x5FFF < 0x5C00 + 1024 := by decide

theorem witness_FreqPseudoInstruction : validConfig State.reset.cfg = true ∧ 4095 ≤ 4095 ∧ 1 ≤ 1 ∧
    State.reset.now (oscChip .saw) ≤ 0 := by decide

theorem witness_ConstructionMeetsInvariants : construct Config.default = .next State.reset := rfl

/-- The reset state meets the invariants a step keeps (StepKeepsRegisterInvariants to RecordsInTimeOrder). -/
theorem reset_invariants : FrequencyInvariant State.reset ∧ SequenceInvariant State.reset ∧ DividerInvariant State.reset ∧
    DutyInvariant State.reset ∧ MemoryInvariant State.reset ∧ ChannelsInvariant State.reset ∧ SinkInvariant State.reset ∧
    LevelsInvariant State.reset ∧ (∀ c, TimesTrackNow c State.reset) ∧ (∀ c, EqualTimes c State.reset) ∧
    (∀ c, PartitionerDriven c State.reset) ∧ (∀ c, NoLoneTime c State.reset) := by
  refine ⟨?_, ?_, ?_, ?_, rfl, ⟨by decide, ?_⟩, ?_, ?_, ?_, ?_, ?_, ?_⟩
  · rintro ((_ | _ | _ | _) | _) <;> rfl
  · unfold SequenceInvariant; decide
  · rintro ((_ | _ | _ | _) | _) <;> exact Nat.zero_le _
  · rintro (_ | _ | _ | _) <;> exact ⟨Nat.zero_le _, fun _ => ⟨rfl, rfl⟩⟩
  · rintro ((_ | _ | _ | _) | _) <;> rfl
  · intro b hb; cases hb
  · intro o r hr; cases hr
  · rintro (_ | _) ((_ | _ | _ | _) | _) _ <;> rfl
  · rintro (_ | _) ((_ | _ | _ | _) | _) _ ((_ | _ | _ | _) | _) _ <;> rfl
  · intro c; exact .inr fun p hp => nomatch hp
  · intro c p hp; cases hp

/-- The state just before a CTRL write from reset: `withProgram` changes no more than the program. -/
def beforeCtrl : State := withProgram [.bus .pulseSaw 0x190008F]

theorem witness_StepKeepsRegisterInvariants : FrequencyInvariant beforeCtrl ∧ SequenceInvariant beforeCtrl ∧
    DividerInvariant beforeCtrl ∧ DutyInvariant beforeCtrl ∧
    step beforeCtrl = .next (writeCtrl .psP1 0x8F beforeCtrl).advance :=
  ⟨reset_invariants.1, reset_invariants.2.1, reset_invariants.2.2.1, reset_invariants.2.2.2.1, rfl⟩

theorem witness_StepKeepsMemoryCanonical : MemoryInvariant (withProgram [.bus .pulseMul 0x15C034E]) ∧
    step (withProgram [.bus .pulseMul 0x15C034E]) =
      .next (writeAux 3 0x4E (withProgram [.bus .pulseMul 0x15C034E])).advance := ⟨rfl, rfl⟩

/-- StepKeepsChannels, StepKeepsSinkTidy and StepKeepsLevelRange. -/
theorem witness_StepKeepsChannels : ChannelsInvariant beforeCtrl ∧ SinkInvariant beforeCtrl ∧ LevelsInvariant beforeCtrl ∧
    step beforeCtrl = .next (writeCtrl .psP1 0x8F beforeCtrl).advance :=
  ⟨reset_invariants.2.2.2.2.2.1, reset_invariants.2.2.2.2.2.2.1, reset_invariants.2.2.2.2.2.2.2.1, rfl⟩

/-- StepKeepsTimesTrackNow and StepKeepsEqualTimes: a program of one partitioner command. PartitionerDriven holds of it by either of
its cases. -/
theorem witness_StepKeepsTimesTrackNow : (withProgram [.partEndFrame .pulseSaw 20]).partitionerLevel .pulseSaw = true ∧
    (∀ cmd ∈ (withProgram [.partEndFrame .pulseSaw 20]).program, actsPastPartitioner .pulseSaw cmd = false) ∧
    PartitionerDriven .pulseSaw (withProgram [.partEndFrame .pulseSaw 20]) ∧
    NoLoneTime .pulseSaw (withProgram [.partEndFrame .pulseSaw 20]) ∧
    TimesTrackNow .pulseSaw (withProgram [.partEndFrame .pulseSaw 20]) ∧
    EqualTimes .pulseSaw (withProgram [.partEndFrame .pulseSaw 20]) ∧
    step (withProgram [.partEndFrame .pulseSaw 20]) =
      .next (frameEndAt .pulseSaw 20 (withProgram [.partEndFrame .pulseSaw 20])).advance := by
  refine ⟨rfl, ?_, .inl rfl, ?_, reset_invariants.2.2.2.2.2.2.2.2.1 .pulseSaw,
    reset_invariants.2.2.2.2.2.2.2.2.2.1 .pulseSaw, rfl⟩
  · intro c hc; obtain rfl := List.mem_singleton.1 hc; rfl
  · intro c hc; obtain rfl := List.mem_singleton.1 hc; rfl

theorem witness_RecordsInTimeOrder : ChannelsInvariant beforeCtrl ∧ beforeCtrl.cfg.timeBase = .cumulative ∧
    step beforeCtrl = .next (writeCtrl .psP1 0x8F beforeCtrl).advance ∧
    ∀ cmd, beforeCtrl.program[beforeCtrl.pos]? = some cmd →
      (∀ c, cmd ≠ .reset c) ∧ (∀ c, cmd ≠ .partReset c) ∧ (∀ o', cmd ≠ .oscReset o') := by
  refine ⟨reset_invariants.2.2.2.2.2.1, rfl, rfl, ?_⟩
  intro cmd h
  obtain rfl : Command.bus .pulseSaw 0x190008F = cmd := Option.some.inj h
  exact ⟨fun _ => Command.noConfusion, fun _ => Command.noConfusion, fun _ => Command.noConfusion⟩

/-- SilenceMustBeWritten: each of its forms answers a next state. -/
theorem witness_SilenceMustBeWritten :
    exec (freqHiInstr .saw 0) State.reset = .next (writeFreqHi .saw 0 State.reset) ∧
    exec (freqLoInstr .saw 0) State.reset = .next (writeFreqLo .saw 0 State.reset) ∧
    exec (oscResetInstr .saw) State.reset = .next (lone oscReset .saw State.reset) ∧
    exec (resetInstr .pulseSaw) State.reset = .next ((chipReset .pulseSaw State.reset).setNow .pulseSaw 0) ∧
    exec (.rst .pulseSaw) State.reset = .next ((chipReset .pulseSaw State.reset).setNow .pulseSaw 0) ∧
    (0x7F : Byte).toNat < 128 ∧ exec (pulseCtrlInstr .psP1 0x7F) State.reset = .next (writeCtrl .psP1 0x7F State.reset) ∧
    exec (pulseCtrlInstr .psP1 0x80) State.reset = .next (writeCtrl .psP1 0x80 State.reset) :=
  ⟨rfl, rfl, rfl, rfl, rfl, by decide, rfl, rfl⟩

end Sys2Proof.Tests
end

/-! ## The address maps (00_scope.md R7, 30_encoding.md R81) -/

section
namespace Sys2Proof.Proofs.AddressMaps

open Sys2Proof.Machine

/-- No address lies in two ranges that are apart; a range of size 0 holds no address at all. -/
theorem not_apart_of_common {x y : Nat × Nat} {a : Nat} (hx : x.1 ≤ a ∧ a < x.1 + x.2) (hy : y.1 ≤ a ∧ a < y.1 + y.2) :
    ¬ Apart x y := by
  rintro (hempty | hempty | hbelow | habove) <;> omega

/-- In a list of ranges pairwise apart, a common address rules out that one range stands before the other. -/
theorem not_index_lt_of_common {l : List (Nat × Nat)} (hl : l.Pairwise Apart) {a i j : Nat} {x y : Nat × Nat}
    (hi : l[i]? = some x) (hj : l[j]? = some y) (hx : x.1 ≤ a ∧ a < x.1 + x.2) (hy : y.1 ≤ a ∧ a < y.1 + y.2) :
    ¬ i < j := by
  intro hij
  obtain ⟨hil, rfl⟩ := List.getElem?_eq_some_iff.1 hi
  obtain ⟨hjl, rfl⟩ := List.getElem?_eq_some_iff.1 hj
  exact not_apart_of_common hx hy (List.pairwise_iff_getElem.1 hl i j hil hjl hij)

/-- In a list of ranges pairwise apart, an address determines the row it lies in. -/
theorem index_eq_of_common {l : List (Nat × Nat)} (hl : l.Pairwise Apart) {a i j : Nat} {x y : Nat × Nat}
    (hi : l[i]? = some x) (hj : l[j]? = some y) (hx : x.1 ≤ a ∧ a < x.1 + x.2) (hy : y.1 ≤ a ∧ a < y.1 + y.2) :
    i = j :=
  Nat.le_antisymm (Nat.not_lt.1 (not_index_lt_of_common hl hj hi hy hx))
    (Nat.not_lt.1 (not_index_lt_of_common hl hi hj hx hy))

/-- Settles O47: a valid configuration has the rows of each chip's map pairwise apart. -/
theorem addressMapsDisjoint : Obligations.AddressMapsDisjoint := by
  intro cfg a i j x y hcfg hrows hxa hax hya hay
  obtain ⟨-, hps, hpm, -⟩ := validConfig_facts hcfg
  rcases hrows with ⟨hi, hj⟩ | ⟨hi, hj⟩
  · exact index_eq_of_common hps hi hj ⟨hxa, hax⟩ ⟨hya, hay⟩
  · exact index_eq_of_common hpm hi hj ⟨hxa, hax⟩ ⟨hya, hay⟩

end Sys2Proof.Proofs.AddressMaps
end

/-! ## What one command can do, by command (20_memory.md R56) -/

section
namespace Sys2Proof.Proofs.Commands

open Sys2Proof.Machine

/-- Every next state of every command. Where `Machine.Ran` answers by instruction, this answers by the command the driver issued,
which is what the levels of 40_framework.md R125 speak of. -/
inductive Performed (s : State) : Command → State → Prop where
  | busWrite (c : Chip) (w : Nat) (t : State) (hw : Wrote s t) : Performed s (.bus c w) t
  | busRead (c : Chip) (w : Nat) (r : ReadResult) : Performed s (.bus c w) (s.answer r)
  | process (c : Chip) (d : Nat) : Performed s (.process c d) (chipProcess c d s)
  | reset (c : Chip) : Performed s (.reset c) ((chipReset c s).setNow c 0)
  | endFrame (c : Chip) : Performed s (.endFrame c) (chipEndFrame c s)
  | partWrite (c : Chip) (time a v : Nat) (t : State) (htime : s.now c ≤ time) (hw : Wrote (advanceTo c time s) t) :
      Performed s (.partWrite c time a v) t
  | partRead (c : Chip) (time a : Nat) (r : ReadResult) : Performed s (.partRead c time a) (s.answer r)
  | partEndFrame (c : Chip) (time : Nat) (htime : s.now c ≤ time) : Performed s (.partEndFrame c time) (frameEndAt c time s)
  | partReset (c : Chip) : Performed s (.partReset c) ((chipReset c s).setNow c 0)
  | oscWrite (o : OscId) (n v : Nat) (t : State) (hw : Wrote s t) : Performed s (.oscWrite o n v) t
  | oscProcess (o : OscId) (d : Nat) : Performed s (.oscProcess o d) (lone (oscProcess d) o s)
  | oscReset (o : OscId) : Performed s (.oscReset o) (lone oscReset o s)
  | oscEndFrame (o : OscId) : Performed s (.oscEndFrame o) (lone oscEndFrame o s)

/-- A delta that decodes to an instruction is a natural number, the instruction's operand. -/
theorem of_decodeDelta_map {d : Int} {f : Nat → Instr} {i : Instr} (h : (decodeDelta d).map f = .ok i) :
    ∃ n : Nat, d = n ∧ i = f n := by
  cases d with
  | ofNat n => exact ⟨n, rfl, (Except.ok.inj h).symm⟩
  | negSucc n => cases h

/-- What a bus word's instruction can do: a write or a read of the chip. -/
theorem next_decodeBus {c : Chip} {w : BusWord} {s u : State} (h : exec (decodeBus s.cfg c w) s = .next u) :
    Wrote s u ∨ ∃ r, u = s.answer r := by
  unfold decodeBus at h
  split at h
  · rw [exec_decodeWrite] at h
    cases h
    exact .inl (wrote_chipWrite c _ _ s)
  · rw [exec_decodeRead] at h
    cases h
    exact .inr ⟨_, rfl⟩

/-- A command that decodes to an instruction with a next state has done what `Performed` says of it. -/
theorem performed_of_next {s u : State} {cmd : Command} {i : Instr} (hd : decode s.cfg cmd = .ok i)
    (he : exec i s = .next u) : Performed s cmd u := by
  cases cmd with
  | bus c w =>
    simp only [decode] at hd
    split at hd <;> cases hd
    rcases next_decodeBus he with hw | ⟨r, rfl⟩
    · exact .busWrite c w u hw
    · exact .busRead c w r
  | process c d =>
    obtain ⟨n, rfl, rfl⟩ := of_decodeDelta_map hd
    cases (exec_processInstr c n s).symm.trans he
    exact .process c n
  | reset c =>
    cases hd
    cases (exec_resetInstr c s).symm.trans he
    exact .reset c
  | endFrame c =>
    cases hd
    cases (exec_endFrameInstr c s).symm.trans he
    exact .endFrame c
  | partWrite c time a v =>
    simp only [decode] at hd
    split at hd <;> cases hd
    simp only [exec, execW] at he
    split at he <;> cases he
    exact .partWrite c time a v _ (by omega) (wrote_chipWrite c _ _ _)
  | partRead c time a =>
    simp only [decode] at hd
    split at hd <;> cases hd
    simp only [exec, execR] at he
    split at he <;> cases he
    exact .partRead c time a _
  | partEndFrame c time =>
    cases hd
    simp only [exec, execEf] at he
    split at he <;> cases he
    exact .partEndFrame c time (by omega)
  | partReset c =>
    cases hd
    cases he
    exact .partReset c
  | oscWrite o n v =>
    simp only [decode] at hd
    split at hd <;> cases hd
    cases (exec_oscWriteInstr o n _ s).symm.trans he
    exact .oscWrite o n v _ (wrote_oscWrite o n _ s)
  | oscProcess o d =>
    obtain ⟨n, rfl, rfl⟩ := of_decodeDelta_map hd
    cases (exec_oscProcessInstr o n s).symm.trans he
    exact .oscProcess o n
  | oscReset o =>
    cases hd
    cases (exec_oscResetInstr o s).symm.trans he
    exact .oscReset o
  | oscEndFrame o =>
    cases hd
    cases (exec_oscEndFrameInstr o s).symm.trans he
    exact .oscEndFrame o

/-- Everything a step with a next state can have done: nothing, or performed one command and moved the driver on. -/
theorem step_performed {s t : State} (h : step s = .next t) :
    t = s ∨ ∃ cmd u, cmd ∈ s.program ∧ s.mixesLevels cmd = false ∧ Performed s cmd u ∧ t = u.advance := by
  obtain ⟨-, ⟨-, rfl⟩ | ⟨cmd, i, u, hc, hd, hm, he, rfl⟩⟩ := step_cases h
  · exact .inl rfl
  · exact .inr ⟨cmd, u, List.mem_of_getElem? hc, hm, performed_of_next hd he, rfl⟩

end Sys2Proof.Proofs.Commands
end

/-! ## What a command decodes to is well formed (30_encoding.md R79 to R81) -/

section
namespace Sys2Proof.Proofs.DecodedWellFormed

open Sys2Proof.Machine Sys2Proof.Proofs.Commands

theorem wellFormed_oscWriteInstr (cfg : Config) (o : OscId) (n : Nat) (v : Byte) :
    (oscWriteInstr o n v).wellFormed cfg = true := by
  unfold oscWriteInstr
  split
  · rcases o with (_ | _ | _ | _) | _ <;> rfl
  · split
    · rcases o with (_ | _ | _ | _) | _ <;> rfl
    · split
      · rcases o with (_ | _ | _ | _) | _ <;> rfl
      · have hn : 3 ≤ n := by omega
        rcases o with k | _ <;> exact decide_eq_true hn

/-- A write to an address the map does not claim is the unmapped row's, a write to the memory names a byte of it. -/
theorem wellFormed_decodeWrite (cfg : Config) (c : Chip) (a : Addr) (v : Byte) :
    (decodeWrite cfg c a v).wellFormed cfg = true := by
  cases c with
  | pulseSaw =>
    simp only [decodeWrite, decodePsWrite]
    rcases psTarget_cases cfg a with h | ⟨o, n, h⟩ <;> rw [h]
    · simp [Instr.wellFormed, h]
    · exact wellFormed_oscWriteInstr cfg o n v
  | pulseMul =>
    simp only [decodeWrite, decodePmWrite]
    rcases h : pmTarget cfg a with _ | (⟨o, n⟩ | _ | _ | n)
    · simp [Instr.wellFormed, h]
    · exact wellFormed_oscWriteInstr cfg o n v
    · rfl
    · rfl
    · exact decide_eq_true (pmTarget_aux h).1

theorem pmReadTarget_ne_reg (cfg : Config) (a : Addr) (o : OscId) (n : Nat) : pmReadTarget cfg a ≠ some (.reg o n) := by
  unfold pmReadTarget
  split
  · exact Option.some_ne_none _ |>.symm
  · exact ‹∀ osc index, pmTarget cfg a = some (.reg osc index) → False› o n

theorem wellFormed_decodeRead (cfg : Config) (c : Chip) (a : Addr) : (decodeRead cfg c a).wellFormed cfg = true := by
  cases c with
  | pulseSaw => rfl
  | pulseMul =>
    simp only [decodeRead, decodePmRead]
    rcases h : pmReadTarget cfg a with _ | (⟨o, n⟩ | _ | _ | n)
    · simp [Instr.wellFormed, h]
    · exact absurd h (pmReadTarget_ne_reg cfg a o n)
    · rfl
    · rfl
    · exact decide_eq_true (pmTarget_aux (pmTarget_of_pmReadTarget h)).1

/-- Whatever the parameters, no command decodes to an instruction that is not well formed. -/
theorem wellFormed_of_decode {cfg : Config} {cmd : Command} {i : Instr} (h : decode cfg cmd = .ok i) :
    i.wellFormed cfg = true := by
  cases cmd with
  | bus c w =>
    simp only [decode] at h
    split at h <;> cases h
    unfold decodeBus
    split
    · exact wellFormed_decodeWrite cfg c _ _
    · exact wellFormed_decodeRead cfg c _
  | process c d =>
    obtain ⟨n, -, rfl⟩ := of_decodeDelta_map h
    cases c <;> rfl
  | reset c | endFrame c =>
    cases h
    cases c <;> rfl
  | partWrite c time a v | partRead c time a =>
    simp only [decode] at h
    split at h <;> cases h
    rfl
  | partEndFrame c time | partReset c =>
    cases h
    rfl
  | oscWrite o n v =>
    simp only [decode] at h
    split at h <;> cases h
    exact wellFormed_oscWriteInstr cfg o n _
  | oscProcess o d =>
    obtain ⟨n, -, rfl⟩ := of_decodeDelta_map h
    cases o <;> rfl
  | oscReset o | oscEndFrame o =>
    cases h
    cases o <;> rfl

/-- Settles O13: the two memory instructions check the index, and a decoded one's index is a byte of the memory. -/
theorem auxIndexOutsideFaults : Obligations.AuxIndexOutsideFaults := by
  intro n v s hn
  have hout : ¬ n < s.cfg.pmAuxSize := Nat.not_lt.2 hn
  refine ⟨if_neg hout, if_neg hout, fun cmd i hd => ⟨?_, ?_⟩⟩
  · rintro rfl
    exact hout (of_decide_eq_true (wellFormed_of_decode hd))
  · rintro rfl
    exact hout (of_decide_eq_true (wellFormed_of_decode hd))

end Sys2Proof.Proofs.DecodedWellFormed
end

/-! ## What a step can do to one oscillator (10_state.md R22 to R29) -/

section
namespace Sys2Proof.Proofs.Edits

open Relation (ReflTransGen)
open Sys2Proof.Machine Sys2Proof.Proofs.Commands

/-! ### The elementary changes -/

/-- The elementary changes of the fields common to both oscillator types. -/
inductive ChannelEdit : Channel → Channel → Prop where
  | wait (c : Channel) (d : Nat) : ChannelEdit c (c.wait d)
  | settle (c : Channel) (d : Nat) : ChannelEdit c (c.settle d)
  | reload (c : Channel) : ChannelEdit c c.reload
  | writeFreqLo (c : Channel) (v : Byte) : ChannelEdit c (c.writeFreqLo v)
  | writeFreqHi (c : Channel) (v : Byte) : ChannelEdit c (c.writeFreqHi v)
  | reset (c : Channel) : ChannelEdit c (.initial c.ch)
  | endFrame (c : Channel) (base : TimeBase) : ChannelEdit c (c.endFrame base)

/-- The elementary changes of a pulse's own fields. -/
inductive PulseEdit : PulseWave → PulseWave → Prop where
  | writeCtrl (w : PulseWave) (v : Byte) : PulseEdit w (w.writeCtrl v)
  | expire (w : PulseWave) : PulseEdit w w.expire
  | reset (w : PulseWave) : PulseEdit w .initial

/-- The elementary changes of a sawtooth's own fields. -/
inductive SawEdit : SawWave → SawWave → Prop where
  | writeRate (w : SawWave) (v : Byte) : SawEdit w (w.writeRate v)
  | expire (w : SawWave) : SawEdit w w.expire
  | reset (w : SawWave) : SawEdit w .initial

/-- What a chain of elementary changes keeps: whatever each of them keeps. -/
theorem keeps_of_chain {α : Type} {R : α → α → Prop} {P : α → Prop} (hP : ∀ a b, R a b → P a → P b) {a b : α}
    (hab : ReflTransGen R a b) (ha : P a) : P b := by
  induction hab with
  | refl => exact ha
  | tail _ hbc ih => exact hP _ _ hbc ih

/-- The drain is a chain of reloads that ends in a settling, with an expiry of the wave at each reload (40_framework.md R103). -/
theorem chain_drain {ω : Type} {expire : ω → ω} {level : ω → Nat} {R : ω → ω → Prop} (hR : ∀ w, R w (expire w))
    (fuel : Nat) :
    ∀ (d : Nat) (c : Channel) (w : ω), ReflTransGen ChannelEdit c (drain expire level fuel d c w).chan ∧
      ReflTransGen R w (drain expire level fuel d c w).wave := by
  induction fuel with
  | zero => exact fun d c w => ⟨.single (.settle c d), .refl⟩
  | succ fuel ih =>
    intro d c w
    unfold drain
    split
    · obtain ⟨hchan, hwave⟩ := ih (d - c.divider) c.reload (expire w)
      exact ⟨.head (.reload c) hchan, .head (hR w) hwave⟩
    · exact ⟨.single (.settle c d), .refl⟩

theorem chain_processChannel {ω : Type} {expire : ω → ω} {level : ω → Nat} {R : ω → ω → Prop} (hR : ∀ w, R w (expire w))
    (d : Nat) (c : Channel) (w : ω) : ReflTransGen ChannelEdit c (processChannel expire level d c w).chan ∧
      ReflTransGen R w (processChannel expire level d c w).wave := by
  unfold processChannel
  split
  · exact chain_drain hR (d + 1) d c w
  · exact ⟨.single (.wait c d), .refl⟩
  · exact ⟨.single (.wait c d), .refl⟩

/-! ### The state -/

/-- From `s` to `t` every oscillator has gone through elementary changes. -/
structure OscillatorsEdited (s t : State) : Prop where
  channel : ∀ o, ReflTransGen ChannelEdit (s.channel o) (t.channel o)
  pulse : ∀ k, ReflTransGen PulseEdit (s.pulse k).toPulseWave (t.pulse k).toPulseWave
  saw : ReflTransGen SawEdit s.ps.saw.toSawWave t.ps.saw.toSawWave

/-- The oscillators have gone through elementary changes, and the parameters and the driver are as they were. -/
structure Edited (s t : State) : Prop extends OscillatorsEdited s t where
  driver : DriverKept s t

theorem Edited.trans {s m t : State} (hsm : Edited s m) (hmt : Edited m t) : Edited s t where
  channel o := (hsm.channel o).trans (hmt.channel o)
  pulse k := (hsm.pulse k).trans (hmt.pulse k)
  saw := hsm.saw.trans hmt.saw
  driver := by
    obtain ⟨hcfg, hprogram, hpos⟩ := hsm.driver
    obtain ⟨hcfg', hprogram', hpos'⟩ := hmt.driver
    exact ⟨hcfg'.trans hcfg, hprogram'.trans hprogram, hpos'.trans hpos⟩

/-- An operation that touches no oscillator, parameter or driver field. -/
theorem Edited.of_kept {s t : State} (hosc : ∀ o, OscKept o s t) (hdriver : DriverKept s t) : Edited s t where
  channel o := by rw [channel_of_oscKept (hosc o)]
  pulse k := by rw [show t.pulse k = s.pulse k from hosc (.pulse k)]
  saw := by rw [show t.ps.saw = s.ps.saw from hosc .saw]
  driver := hdriver

theorem Edited.refl (s : State) : Edited s s :=
  .of_kept (fun o => by cases o <;> rfl) ⟨rfl, rfl, rfl⟩

/-! ### Replacing one oscillator -/

theorem channel_setPulse_same (s : State) (k : PulseId) (p : PulseOscillator) :
    (s.setPulse k p).channel (.pulse k) = p.toChannel :=
  congrArg PulseOscillator.toChannel (State.pulse_setPulse_same s k p)

theorem channel_setPulse_of_ne (s : State) (k : PulseId) (p : PulseOscillator) {o : OscId} (h : o ≠ .pulse k) :
    (s.setPulse k p).channel o = s.channel o := by
  cases o with
  | pulse k' => exact congrArg PulseOscillator.toChannel (State.pulse_setPulse_of_ne s k p k' fun e => h (e ▸ rfl))
  | saw => exact congrArg SawtoothOscillator.toChannel (State.setPulse_saw s k p)

theorem edited_setPulse {s : State} {k : PulseId} {p : PulseOscillator}
    (hc : ReflTransGen ChannelEdit (s.pulse k).toChannel p.toChannel)
    (hw : ReflTransGen PulseEdit (s.pulse k).toPulseWave p.toPulseWave) : Edited s (s.setPulse k p) where
  channel o := by
    by_cases ho : o = .pulse k
    · subst ho
      rwa [channel_setPulse_same]
    · rw [channel_setPulse_of_ne s k p ho]
  pulse k' := by
    by_cases hk : k' = k
    · subst hk
      rwa [State.pulse_setPulse_same]
    · rw [State.pulse_setPulse_of_ne s k p k' hk]
  saw := by rw [State.setPulse_saw]
  driver := by simp [DriverKept]

theorem edited_setSaw {s : State} {o : SawtoothOscillator} (hc : ReflTransGen ChannelEdit s.ps.saw.toChannel o.toChannel)
    (hw : ReflTransGen SawEdit s.ps.saw.toSawWave o.toSawWave) : Edited s (s.setSaw o) where
  channel
    | .pulse k => by
      have hk : (s.setSaw o).channel (.pulse k) = s.channel (.pulse k) :=
        congrArg PulseOscillator.toChannel (State.setSaw_pulse s o k)
      rw [hk]
    | .saw => hc
  pulse k := by rw [State.setSaw_pulse]
  saw := hw
  driver := ⟨rfl, rfl, rfl⟩

theorem edited_setChannel {s : State} {o : OscId} {c : Channel} (hc : ReflTransGen ChannelEdit (s.channel o) c) :
    Edited s (s.setChannel o c) :=
  match o with
  | .pulse _ => edited_setPulse hc .refl
  | .saw => edited_setSaw hc .refl

/-! ### Operations that leave the oscillators alone -/

theorem edited_send (s : State) (l : List (List Record)) : Edited s (s.send l) :=
  .of_kept (fun o => by cases o <;> simp [OscKept]) (by simp [DriverKept])

theorem edited_countDraw (s : State) : Edited s s.countDraw :=
  .of_kept (fun o => by cases o <;> simp [OscKept]) (by simp [DriverKept])

theorem edited_setNow (s : State) (c : Chip) (t : Nat) : Edited s (s.setNow c t) :=
  .of_kept (fun o => by cases o <;> simp [OscKept]) (by simp [DriverKept])

theorem edited_setMul (s : State) (u : MultiplierUnit) : Edited s (s.setMul u) :=
  .of_kept (fun o => by cases o <;> simp [OscKept]) (by simp [DriverKept])

theorem edited_setAux (s : State) (m : Memory) : Edited s (s.setAux m) :=
  .of_kept (fun o => by cases o <;> simp [OscKept]) (by simp [DriverKept])

theorem edited_answer (s : State) (r : ReadResult) : Edited s (s.answer r) :=
  .of_kept (fun o => by cases o <;> simp [OscKept]) (by simp [DriverKept])

/-! ### The operations at the oscillator interface and the chips' calls -/

theorem edited_oscProcess (d : Nat) (o : OscId) (s : State) : Edited s (oscProcess d o s).1 := by
  cases o with
  | pulse k =>
    obtain ⟨hchan, hwave⟩ := chain_processChannel (level := PulseWave.level) PulseEdit.expire d (s.pulse k).toChannel
      (s.pulse k).toPulseWave
    exact edited_setPulse hchan hwave
  | saw =>
    obtain ⟨hchan, hwave⟩ := chain_processChannel (level := SawWave.level) SawEdit.expire d s.ps.saw.toChannel
      s.ps.saw.toSawWave
    exact edited_setSaw hchan hwave

theorem edited_oscReset (o : OscId) (s : State) : Edited s (oscReset o s).1 :=
  match o with
  | .pulse _ => edited_setPulse (.single (.reset _)) (.single (.reset _))
  | .saw => edited_setSaw (.single (.reset _)) (.single (.reset _))

theorem edited_oscEndFrame (o : OscId) (s : State) : Edited s (oscEndFrame o s).1 :=
  edited_setChannel (.single (.endFrame _ _))

theorem edited_lone {f : OscId → State → State × List Record} (hf : ∀ o s, Edited s (f o s).1) (o : OscId) (s : State) :
    Edited s (lone f o s) :=
  (hf o s).trans (edited_send _ _)

theorem edited_fanOut {f : OscId → State → State × List Record} (hf : ∀ o s, Edited s (f o s).1) (l : List OscId) :
    ∀ s, Edited s (fanOut f l s).1 := by
  induction l with
  | nil => exact Edited.refl
  | cons o l ih => exact fun s => (hf o s).trans (ih _)

theorem edited_fanCall {f : OscId → State → State × List Record} (hf : ∀ o s, Edited s (f o s).1) (c : Chip) (s : State) :
    Edited s (fanCall f c s) :=
  ((edited_fanOut hf (oscillators c) s).trans (edited_send _ _)).trans (edited_countDraw _)

theorem edited_chipProcess (c : Chip) (d : Nat) (s : State) : Edited s (chipProcess c d s) :=
  edited_fanCall (edited_oscProcess d) c s

theorem edited_chipReset (c : Chip) (s : State) : Edited s (chipReset c s) :=
  match c with
  | .pulseSaw => edited_fanCall edited_oscReset .pulseSaw s
  | .pulseMul => (edited_fanCall edited_oscReset .pulseMul s).trans (edited_setMul _ _)

theorem edited_chipEndFrame (c : Chip) (s : State) : Edited s (chipEndFrame c s) :=
  edited_fanCall edited_oscEndFrame c s

theorem edited_advanceTo (c : Chip) (time : Nat) (s : State) : Edited s (advanceTo c time s) :=
  (edited_chipProcess c _ s).trans (edited_setNow _ _ _)

theorem edited_endFrameNow (c : Chip) (s : State) : Edited s (s.endFrameNow c) := by
  unfold State.endFrameNow
  split
  · exact .refl s
  · exact edited_setNow s c 0

theorem edited_frameEndAt (c : Chip) (time : Nat) (s : State) : Edited s (frameEndAt c time s) :=
  ((edited_advanceTo c time s).trans (edited_chipEndFrame c _)).trans (edited_endFrameNow c _)

/-! ### Commands -/

theorem edited_writeCtrl (k : PulseId) (v : Byte) (s : State) : Edited s (writeCtrl k v s) := by
  have hp : Edited s (s.setPulse k { s.pulse k with toPulseWave := (s.pulse k).toPulseWave.writeCtrl v }) :=
    edited_setPulse .refl (.single (.writeCtrl _ v))
  exact hp.trans (edited_send _ _)

theorem edited_of_wrote {s t : State} (h : Wrote s t) : Edited s t := by
  cases h with
  | nothing => exact .refl s
  | ctrl k v => exact edited_writeCtrl k v s
  | rate v => exact edited_setSaw .refl (.single (.writeRate _ v))
  | freqLo o v => exact edited_setChannel (.single (.writeFreqLo _ v))
  | freqHi o v => exact edited_setChannel (.single (.writeFreqHi _ v))
  | mulA v | mulB v => exact edited_setMul s _
  | aux n v _ => exact edited_setAux s _

/-- Whatever the command, all it does to an oscillator is a chain of elementary changes. -/
theorem edited_of_performed {s t : State} {cmd : Command} (h : Performed s cmd t) : Edited s t := by
  cases h with
  | busWrite _ _ _ hw | oscWrite _ _ _ _ hw => exact edited_of_wrote hw
  | busRead | partRead => exact edited_answer s _
  | process c d => exact edited_chipProcess c d s
  | reset c | partReset c => exact (edited_chipReset c s).trans (edited_setNow _ c 0)
  | endFrame c => exact edited_chipEndFrame c s
  | partWrite c time _ _ _ _ hw => exact (edited_advanceTo c time s).trans (edited_of_wrote hw)
  | partEndFrame c time _ => exact edited_frameEndAt c time s
  | oscProcess o d => exact edited_lone (edited_oscProcess d) o s
  | oscReset o => exact edited_lone edited_oscReset o s
  | oscEndFrame o => exact edited_lone edited_oscEndFrame o s

/-- All that a step does to the oscillators, the parameters and the program: of the driver's fields only the position moves. -/
theorem step_edited {s t : State} (h : step s = .next t) :
    OscillatorsEdited s t ∧ t.cfg = s.cfg ∧ t.program = s.program := by
  rcases step_performed h with rfl | ⟨cmd, u, -, -, hu, rfl⟩
  · exact ⟨(Edited.refl t).toOscillatorsEdited, rfl, rfl⟩
  · have hedited := edited_of_performed hu
    obtain ⟨hcfg, hprogram, -⟩ := hedited.driver
    refine ⟨⟨fun o => ?_, fun k => ?_, hedited.saw⟩, hcfg, hprogram⟩
    · rw [State.advance_channel]
      exact hedited.channel o
    · rw [State.advance_pulse]
      exact hedited.pulse k

end Sys2Proof.Proofs.Edits
end

/-! ## The step and its instruction (10_state.md R21, 20_memory.md R56) -/

section
namespace Sys2Proof.Proofs.StepRuns

open Sys2Proof.Machine Sys2Proof.Proofs.Commands Sys2Proof.Proofs.Edits

/-- Settles O41: the step performs the command, and performing it is running what it decodes to. -/
theorem stepRunsDecoded : Obligations.StepRunsDecoded := by
  intro s cmd i hv hc hd
  have hstep : step s = if s.mixesLevels cmd then .refused .mixedLevels else advanceResult (exec i s) := by
    rw [step_of_command hv hc, perform, hd]
  refine ⟨fun hm => ?_, fun hm => by rw [hstep, if_pos hm]⟩
  rw [hstep, hm]
  refine ⟨fun t ht => ?_, fun r hr => ?_, fun r hr => ?_⟩
  · obtain ⟨-, -, hpos⟩ := (edited_of_performed (performed_of_next hd ht)).driver
    simp [ht, advanceResult, State.advance, hpos]
  · simp [hr, advanceResult]
  · simp [hr, advanceResult]

end Sys2Proof.Proofs.StepRuns
end

/-! ## The registers' invariants and the channel identifiers (10_state.md R22, R23, R28, R29, R31) -/

section
namespace Sys2Proof.Proofs.RegisterInvariants

open Sys2Proof.Machine Sys2Proof.Proofs.Edits

/-! ### What each elementary change keeps -/

/-- `frequency` is assembled from its two halves (10_state.md R23). -/
def FrequencyAssembled (c : Channel) : Prop :=
  c.frequency.toNat = c.freqLow.toNat + 256 * c.freqHigh.toNat

/-- `dutyCycle` is in 0..8, and 0 only as reset leaves it (10_state.md R22, 41_pulse.md R135). -/
def DutyInRange (w : PulseWave) : Prop :=
  w.dutyCycle.toNat ≤ 8 ∧ (w.dutyCycle = 0 → w.gate = false ∧ w.volume = 0)

theorem frequencyAssembled_edit (c c' : Channel) (h : ChannelEdit c c') (hc : FrequencyAssembled c) :
    FrequencyAssembled c' := by
  cases h with
  | wait | settle | reload => exact hc
  | writeFreqLo v | writeFreqHi v => exact assembleFrequency_toNat _ _
  | reset => rfl
  | endFrame base => cases base <;> exact hc

/-- A reload is the one change that can raise a divider, to at most `4095 + 1` (10_state.md R29). -/
theorem divider_le_edit (c c' : Channel) (h : ChannelEdit c c') (hc : c.divider ≤ 4096) : c'.divider ≤ 4096 := by
  cases h with
  | wait | writeFreqLo | writeFreqHi => exact hc
  | settle d => exact (Nat.sub_le c.divider d).trans hc
  | reload => exact c.frequency.isLt
  | reset => exact Nat.zero_le 4096
  | endFrame base => cases base <;> exact hc

theorem ch_edit (n : Nat) (c c' : Channel) (h : ChannelEdit c c') (hc : c.ch = n) : c'.ch = n := by
  cases h with
  | wait | settle | reload | writeFreqLo | writeFreqHi | reset => exact hc
  | endFrame base => cases base <;> exact hc

/-- A CTRL write makes the duty cycle 1 to 8 (30_encoding.md R74). -/
theorem ctrlDutyCycle_ne_zero (v : Byte) : ctrlDutyCycle v ≠ 0 := by
  intro h
  have := ctrlDutyCycle_toNat v
  simp [h] at this

theorem dutyInRange_edit (w w' : PulseWave) (h : PulseEdit w w') (hw : DutyInRange w) : DutyInRange w' := by
  cases h with
  | writeCtrl v =>
    have hle : (ctrlDutyCycle v).toNat ≤ 8 := by
      rw [ctrlDutyCycle_toNat]
      omega
    exact ⟨hle, fun h0 => absurd h0 (ctrlDutyCycle_ne_zero v)⟩
  | expire => exact hw
  | reset => exact ⟨Nat.zero_le 8, fun _ => ⟨rfl, rfl⟩⟩

/-- An expiry at 13 starts over, and one below 13 adds 1 (42_sawtooth.md R164). -/
theorem resetSequence_le_edit (w w' : SawWave) (h : SawEdit w w') (hw : w.resetSequence.toNat ≤ 13) :
    w'.resetSequence.toNat ≤ 13 := by
  cases h with
  | writeRate => exact hw
  | expire =>
    unfold SawWave.expire
    split
    · exact Nat.zero_le 13
    · rename_i hne
      have hne : (w.resetSequence + 1).toNat ≠ 14 := fun e => hne (BitVec.eq_of_toNat_eq e)
      have hone : (1 : BitVec 4).toNat = 1 := rfl
      simp only [BitVec.toNat_add, hone] at hne ⊢
      omega
  | reset => exact Nat.zero_le 13

/-! ### The step -/

/-- Settles O51: each invariant is one of single oscillators, and every elementary change keeps it. -/
theorem stepKeepsRegisterInvariants : Obligations.StepKeepsRegisterInvariants := by
  intro s t h
  obtain ⟨hedited, -, -⟩ := step_edited h
  refine ⟨fun hs o => ?_, fun hs => ?_, fun hs o => ?_, fun hs k => ?_⟩
  · exact keeps_of_chain frequencyAssembled_edit (hedited.channel o) (hs o)
  · exact keeps_of_chain resetSequence_le_edit hedited.saw hs
  · exact keeps_of_chain divider_le_edit (hedited.channel o) (hs o)
  · exact keeps_of_chain dutyInRange_edit (hedited.pulse k) (hs k)

/-- Settles O53: no elementary change touches `ch`, and no command the parameters or the program. -/
theorem stepKeepsChannels : Obligations.StepKeepsChannels := by
  intro s t h
  obtain ⟨hedited, hcfg, hprogram⟩ := step_edited h
  have hch : ∀ o, (t.channel o).ch = (s.channel o).ch := fun o =>
    keeps_of_chain (ch_edit (s.channel o).ch) (hedited.channel o) rfl
  refine ⟨hcfg, hprogram, hch, fun ⟨hvalid, hbound⟩ => ⟨?_, fun o => ?_⟩⟩
  · rwa [hcfg]
  · rw [hch o, hcfg, hbound o]

end Sys2Proof.Proofs.RegisterInvariants
end

/-! ## The oscillators' times and `now` (10_state.md R37, R41, 40_framework.md R125) -/

section
namespace Sys2Proof.Proofs.Times

open Sys2Proof.Machine Sys2Proof.Proofs.Commands Sys2Proof.Proofs.Edits

/-! ### One map for all times of a chip -/

/-- One function takes the `elapsedTime` of every oscillator of the chip from `s` to `t`. -/
def TimesMapped (c : Chip) (g : Nat → Nat) (s t : State) : Prop :=
  ∀ o ∈ oscillators c, (t.channel o).elapsedTime = g (s.channel o).elapsedTime

/-- One function takes the `elapsedTime` of every oscillator of the chip, and its partitioner's `now`, from `s` to `t`. -/
def NowFollows (c : Chip) (s t : State) : Prop :=
  ∃ g, TimesMapped c g s t ∧ t.now c = g (s.now c)

theorem TimesMapped.equalTimes {c : Chip} {g : Nat → Nat} {s t : State} (h : TimesMapped c g s t) (hs : EqualTimes c s) :
    EqualTimes c t := by
  intro o ho o' ho'
  rw [h o ho, h o' ho', hs o ho o' ho']

theorem NowFollows.timesTrackNow {c : Chip} {s t : State} (h : NowFollows c s t) (hs : TimesTrackNow c s) :
    TimesTrackNow c t := by
  obtain ⟨g, htimes, hnow⟩ := h
  intro o ho
  rw [htimes o ho, hs o ho, hnow]

theorem NowFollows.trans {c : Chip} {s m t : State} (hsm : NowFollows c s m) (hmt : NowFollows c m t) : NowFollows c s t := by
  obtain ⟨g, htimes, hnow⟩ := hsm
  obtain ⟨g', htimes', hnow'⟩ := hmt
  refine ⟨g' ∘ g, fun o ho => ?_, ?_⟩
  · rw [htimes' o ho, htimes o ho, Function.comp]
  · rw [hnow', hnow, Function.comp]

/-- Where no time of the chip and no `now` moves, `now` follows. -/
theorem nowFollows_of_kept {c : Chip} {s t : State}
    (htimes : ∀ o ∈ oscillators c, (t.channel o).elapsedTime = (s.channel o).elapsedTime) (hnow : t.now c = s.now c) :
    NowFollows c s t :=
  ⟨id, htimes, hnow⟩

theorem now_of_nowsKept {s t : State} (h : NowsKept s t) (c : Chip) : t.now c = s.now c :=
  match c with
  | .pulseSaw => h.1
  | .pulseMul => h.2

theorem not_mem_oscillators_of_ne {c c' : Chip} {o : OscId} (ho : o ∈ oscillators c) (hc : c' ≠ c) : o ∉ oscillators c' := by
  rw [mem_oscillators] at ho ⊢
  exact fun h => hc (h.symm.trans ho)

/-! ### Writes -/

theorem channel_writeCtrl (k : PulseId) (v : Byte) (s : State) (o : OscId) : (writeCtrl k v s).channel o = s.channel o := by
  simp only [writeCtrl, State.send_channel]
  by_cases ho : o = .pulse k
  · subst ho
    exact channel_setPulse_same s k _
  · exact channel_setPulse_of_ne s k _ ho

theorem channel_setSaw_of_ne (s : State) (p : SawtoothOscillator) {o : OscId} (h : o ≠ .saw) :
    (s.setSaw p).channel o = s.channel o :=
  match o with
  | .pulse k => congrArg PulseOscillator.toChannel (State.setSaw_pulse s p k)
  | .saw => absurd rfl h

theorem channel_writeRate (v : Byte) (s : State) (o : OscId) : (writeRate v s).channel o = s.channel o := by
  by_cases ho : o = .saw
  · subst ho
    rfl
  · exact channel_setSaw_of_ne s _ ho

theorem elapsedTime_setChannel {s : State} {o : OscId} {ch : Channel} (h : ch.elapsedTime = (s.channel o).elapsedTime)
    (o' : OscId) : ((s.setChannel o ch).channel o').elapsedTime = (s.channel o').elapsedTime := by
  by_cases ho : o' = o
  · subst ho
    rw [State.channel_setChannel_same, h]
  · rw [State.channel_setChannel_of_ne s o ch o' ho]

/-- A write takes no time (40_framework.md R121). -/
theorem times_of_wrote {s t : State} (h : Wrote s t) :
    (∀ o, (t.channel o).elapsedTime = (s.channel o).elapsedTime) ∧ ∀ c, t.now c = s.now c := by
  cases h with
  | nothing => exact ⟨fun _ => rfl, fun _ => rfl⟩
  | ctrl k v => exact ⟨fun o => by rw [channel_writeCtrl], fun c => by simp [writeCtrl]⟩
  | rate v => exact ⟨fun o => by rw [channel_writeRate], fun c => by simp [writeRate]⟩
  | freqLo o v => exact ⟨elapsedTime_setChannel rfl, fun c => by simp [writeFreqLo]⟩
  | freqHi o v => exact ⟨elapsedTime_setChannel rfl, fun c => by simp [writeFreqHi]⟩
  | mulA v => exact ⟨fun o => by simp [writeMulA], fun c => by simp [writeMulA]⟩
  | mulB v => exact ⟨fun o => by simp [writeMulB], fun c => by simp [writeMulB]⟩
  | aux n v => exact ⟨fun o => by simp [writeAux], fun c => by simp [writeAux]⟩

theorem nowFollows_of_wrote {s t : State} (h : Wrote s t) (c : Chip) : NowFollows c s t := by
  obtain ⟨htimes, hnow⟩ := times_of_wrote h
  exact nowFollows_of_kept (fun o _ => htimes o) (hnow c)

theorem nowFollows_answer (r : ReadResult) (s : State) (c : Chip) : NowFollows c s (s.answer r) :=
  nowFollows_of_kept (fun o _ => by simp) (by simp)

/-! ### process -/

theorem elapsedTime_drainedChan (d : Nat) (o : OscId) (s : State) :
    (drainedChan d o s).elapsedTime = (s.channel o).elapsedTime + d := by
  cases o with
  | pulse k =>
    obtain ⟨v, n, h⟩ := processChannel_cases PulseWave.expire PulseWave.level d (s.pulse k).toChannel (s.pulse k).toPulseWave
    simp only [drainedChan, pulseDrained, h]
    rfl
  | saw =>
    obtain ⟨v, n, h⟩ := processChannel_cases SawWave.expire SawWave.level d s.ps.saw.toChannel s.ps.saw.toSawWave
    simp only [drainedChan, sawDrained, h]
    rfl

/-- `process(d)` on a chip gives each of its oscillators the `d` cycles (40_framework.md R101). -/
theorem timesMapped_chipProcess (c : Chip) (d : Nat) (s : State) : TimesMapped c (· + d) s (chipProcess c d s) := by
  intro o ho
  rw [channel_of_oscKept (oscKept_chipProcess s ho), channel_loneProcess, elapsedTime_drainedChan]

theorem now_chipProcess (c : Chip) (d : Nat) (s : State) (c' : Chip) : (chipProcess c d s).now c' = s.now c' := by
  obtain ⟨-, -, hnows, -⟩ := restKept_chipProcess d c s
  exact now_of_nowsKept hnows c'

theorem nowFollows_chipProcess_of_ne {c c' : Chip} (hc : c' ≠ c) (d : Nat) (s : State) :
    NowFollows c s (chipProcess c' d s) :=
  nowFollows_of_kept
    (fun o ho => by rw [channel_of_oscKept (othersKept_chipProcess d c' s o (not_mem_oscillators_of_ne ho hc))])
    (now_chipProcess c' d s c)

/-- The partitioner takes its chip's oscillators and `now` forward by the same count of cycles (40_framework.md R115). -/
theorem nowFollows_advanceTo {c' : Chip} {time : Nat} {s : State} (h : s.now c' ≤ time) (c : Chip) :
    NowFollows c s (advanceTo c' time s) := by
  by_cases hc : c' = c
  · subst hc
    refine ⟨(· + (time - s.now c')), fun o ho => ?_, ?_⟩
    · simpa [advanceTo] using timesMapped_chipProcess c' (time - s.now c') s o ho
    · simp only [advanceTo, State.now_setNow_same]
      omega
  · refine (nowFollows_chipProcess_of_ne hc (time - s.now c') s).trans (nowFollows_of_kept (fun o _ => ?_) ?_)
    · rw [advanceTo, State.setNow_channel]
    · rw [advanceTo, State.now_setNow_of_ne _ _ _ _ (Ne.symm hc)]

/-! ### reset -/

theorem elapsedTime_chipReset (c : Chip) (s : State) (o : OscId) :
    ((chipReset c s).channel o).elapsedTime = if oscChip o = c then 0 else (s.channel o).elapsedTime := by
  cases c with
  | pulseSaw =>
    rw [chipReset_pulseSaw]
    rcases o with (_ | _ | _ | _) | _ <;> rfl
  | pulseMul =>
    rw [chipReset_pulseMul]
    rcases o with (_ | _ | _ | _) | _ <;> rfl

theorem now_chipReset (c : Chip) (s : State) (c' : Chip) : (chipReset c s).now c' = s.now c' := by
  cases c with
  | pulseSaw =>
    rw [chipReset_pulseSaw]
    cases c' <;> rfl
  | pulseMul =>
    rw [chipReset_pulseMul]
    cases c' <;> rfl

/-- A reset of a chip and its partitioner makes both times 0 (30_encoding.md R72, log 23). -/
theorem nowFollows_reset (c' : Chip) (s : State) (c : Chip) : NowFollows c s ((chipReset c' s).setNow c' 0) := by
  by_cases hc : c' = c
  · subst hc
    refine ⟨fun _ => 0, fun o ho => ?_, State.now_setNow_same _ _ _⟩
    rw [State.setNow_channel, elapsedTime_chipReset, if_pos ((mem_oscillators o c').1 ho)]
  · refine nowFollows_of_kept (fun o ho => ?_) ?_
    · rw [State.setNow_channel, elapsedTime_chipReset, if_neg]
      exact fun h => not_mem_oscillators_of_ne ho hc ((mem_oscillators o c').2 h)
    · rw [State.now_setNow_of_ne _ _ _ _ (Ne.symm hc), now_chipReset]

/-! ### endFrame -/

/-- What an end of frame makes of a time, in either time base (40_framework.md R114, R116). -/
def frameTime (base : TimeBase) (x : Nat) : Nat :=
  if base = .perFrame then 0 else x

theorem elapsedTime_chipEndFrame (c : Chip) (s : State) (o : OscId) :
    ((chipEndFrame c s).channel o).elapsedTime =
      if oscChip o = c then frameTime s.cfg.timeBase (s.channel o).elapsedTime else (s.channel o).elapsedTime := by
  cases c with
  | pulseSaw =>
    rw [chipEndFrame_pulseSaw, State.countDraw_channel, State.send_channel]
    rcases o with (_ | _ | _ | _) | _ <;> simp [oscChip, State.channel, State.pulse, endFrame_eq, frameTime]
  | pulseMul =>
    rw [chipEndFrame_pulseMul, State.countDraw_channel, State.send_channel]
    rcases o with (_ | _ | _ | _) | _ <;> simp [oscChip, State.channel, State.pulse, endFrame_eq, frameTime]

theorem timesMapped_chipEndFrame (c : Chip) (s : State) : TimesMapped c (frameTime s.cfg.timeBase) s (chipEndFrame c s) := by
  intro o ho
  rw [elapsedTime_chipEndFrame, if_pos ((mem_oscillators o c).1 ho)]

theorem now_chipEndFrame (c : Chip) (s : State) (c' : Chip) : (chipEndFrame c s).now c' = s.now c' := by
  cases c with
  | pulseSaw =>
    rw [chipEndFrame_pulseSaw, State.countDraw_now, State.send_now]
    cases c' <;> rfl
  | pulseMul =>
    rw [chipEndFrame_pulseMul, State.countDraw_now, State.send_now]
    cases c' <;> rfl

theorem nowFollows_chipEndFrame_of_ne {c c' : Chip} (hc : c' ≠ c) (s : State) : NowFollows c s (chipEndFrame c' s) := by
  refine nowFollows_of_kept (fun o ho => ?_) (now_chipEndFrame c' s c)
  rw [elapsedTime_chipEndFrame, if_neg]
  exact fun h => not_mem_oscillators_of_ne ho hc ((mem_oscillators o c').2 h)

theorem channel_endFrameNow (c : Chip) (s : State) (o : OscId) : (s.endFrameNow c).channel o = s.channel o := by
  unfold State.endFrameNow
  split
  · rfl
  · exact State.setNow_channel s c 0 o

theorem now_endFrameNow_same (c : Chip) (s : State) : (s.endFrameNow c).now c = frameTime s.cfg.timeBase (s.now c) := by
  unfold State.endFrameNow
  split
  · rename_i hbase
    simp [frameTime, hbase]
  · rename_i hbase
    simp [frameTime, hbase]

theorem now_endFrameNow_of_ne {c c' : Chip} (hc : c' ≠ c) (s : State) : (s.endFrameNow c').now c = s.now c := by
  unfold State.endFrameNow
  split
  · rfl
  · exact State.now_setNow_of_ne s c' 0 c (Ne.symm hc)

/-- The end of frame of a chip and its partitioner does the same to both times (40_framework.md R116). -/
theorem nowFollows_endFrame (c' : Chip) (s : State) (c : Chip) : NowFollows c s ((chipEndFrame c' s).endFrameNow c') := by
  by_cases hc : c' = c
  · subst hc
    obtain ⟨hcfg, -, -⟩ := (edited_chipEndFrame c' s).driver
    refine ⟨frameTime s.cfg.timeBase, fun o ho => ?_, ?_⟩
    · rw [channel_endFrameNow, timesMapped_chipEndFrame c' s o ho]
    · rw [now_endFrameNow_same, now_chipEndFrame, hcfg]
  · refine (nowFollows_chipEndFrame_of_ne hc s).trans (nowFollows_of_kept (fun o _ => ?_) (now_endFrameNow_of_ne hc _))
    rw [channel_endFrameNow]

/-! ### Calls on a lone oscillator -/

/-- A call at the oscillator interface acts on the times of no other oscillator and on no `now`. -/
def OwnTimeOnly (f : OscId → State → State × List Record) : Prop :=
  ∀ o s, (∀ o', o' ≠ o → (f o s).1.channel o' = s.channel o') ∧ ∀ c, (f o s).1.now c = s.now c

theorem ownTimeOnly_oscProcess (d : Nat) : OwnTimeOnly (oscProcess d)
  | .pulse k, s => ⟨fun _ ho => channel_setPulse_of_ne s k _ ho, State.setPulse_now s k _⟩
  | .saw, s => ⟨fun _ ho => channel_setSaw_of_ne s _ ho, State.setSaw_now s _⟩

theorem ownTimeOnly_oscReset : OwnTimeOnly oscReset
  | .pulse k, s => ⟨fun _ ho => channel_setPulse_of_ne s k _ ho, State.setPulse_now s k _⟩
  | .saw, s => ⟨fun _ ho => channel_setSaw_of_ne s _ ho, State.setSaw_now s _⟩

theorem ownTimeOnly_oscEndFrame : OwnTimeOnly oscEndFrame :=
  fun o s => ⟨fun o' ho => State.channel_setChannel_of_ne s o _ o' ho, State.setChannel_now s o _⟩

theorem nowFollows_lone {f : OscId → State → State × List Record} (hf : OwnTimeOnly f) {o : OscId} {c : Chip}
    (ho : oscChip o ≠ c) (s : State) : NowFollows c s (lone f o s) := by
  obtain ⟨hother, hnow⟩ := hf o s
  refine nowFollows_of_kept (fun o' ho' => ?_) ?_
  · have hne : o' ≠ o := fun h => ho (h ▸ (mem_oscillators o' c).1 ho')
    rw [lone, State.send_channel, hother o' hne]
  · rw [lone, State.send_now, hnow c]

/-! ### The step -/

/-- A command that does not act past the chip's partitioner takes the chip's times and its `now` along together. -/
theorem nowFollows_of_performed {s t : State} {cmd : Command} (h : Performed s cmd t) {c : Chip}
    (hpast : actsPastPartitioner c cmd = false) : NowFollows c s t := by
  cases h with
  | busWrite _ _ _ hw | oscWrite _ _ _ _ hw => exact nowFollows_of_wrote hw c
  | busRead | partRead => exact nowFollows_answer _ s c
  | process c' d => exact nowFollows_chipProcess_of_ne (by simpa [actsPastPartitioner] using hpast) d s
  | reset c' | partReset c' => exact nowFollows_reset c' s c
  | endFrame c' => exact nowFollows_chipEndFrame_of_ne (by simpa [actsPastPartitioner] using hpast) s
  | partWrite c' time _ _ _ htime hw => exact (nowFollows_advanceTo htime c).trans (nowFollows_of_wrote hw c)
  | partEndFrame c' time htime => exact (nowFollows_advanceTo htime c).trans (nowFollows_endFrame c' _ c)
  | oscProcess o d =>
    exact nowFollows_lone (ownTimeOnly_oscProcess d) (by simpa [actsPastPartitioner, actsOnLoneTime] using hpast) s
  | oscReset o =>
    exact nowFollows_lone ownTimeOnly_oscReset (by simpa [actsPastPartitioner, actsOnLoneTime] using hpast) s
  | oscEndFrame o =>
    exact nowFollows_lone ownTimeOnly_oscEndFrame (by simpa [actsPastPartitioner, actsOnLoneTime] using hpast) s

/-- A command that gives no oscillator of the chip time of its own does the same to the times of all of them: beside the commands
of `nowFollows_of_performed` these are the chip's own PROCESS and ENDFRAME. -/
theorem timesMapped_of_performed {s t : State} {cmd : Command} (h : Performed s cmd t) {c : Chip}
    (hlone : actsOnLoneTime c cmd = false) : ∃ g, TimesMapped c g s t := by
  cases hpast : actsPastPartitioner c cmd with
  | true =>
    rcases (actsPastPartitioner_iff c cmd).1 hpast with ⟨d, rfl⟩ | rfl | ⟨o, hoc, ⟨d, rfl⟩ | rfl | rfl⟩
    · cases h with
      | process _ n => exact ⟨_, timesMapped_chipProcess c n s⟩
    · cases h
      exact ⟨_, timesMapped_chipEndFrame c s⟩
    all_goals simp [actsOnLoneTime, hoc] at hlone
  | false =>
    obtain ⟨g, htimes, -⟩ := nowFollows_of_performed h hpast
    exact ⟨g, htimes⟩

/-- In a partitioner-driven program no command that is performed acts past the chip's partitioner. -/
theorem actsPast_eq_false_of_partitionerDriven {c : Chip} {s : State} (h : PartitionerDriven c s) {cmd : Command}
    (hmem : cmd ∈ s.program) (hmix : s.mixesLevels cmd = false) : actsPastPartitioner c cmd = false := by
  rcases h with hlevel | hnone
  · cases hpast : actsPastPartitioner c cmd with
    | false => rfl
    | true => exact ((mixesLevels_iff s cmd).2 ⟨c, hlevel, hpast⟩).symm.trans hmix
  · exact hnone cmd hmem

theorem partitionerDriven_congr {c : Chip} {s t : State} (hprogram : t.program = s.program) (h : PartitionerDriven c s) :
    PartitionerDriven c t := by
  unfold PartitionerDriven State.partitionerLevel at h ⊢
  rwa [hprogram]

theorem timesTrackNow_advance {c : Chip} {s : State} (h : TimesTrackNow c s) : TimesTrackNow c s.advance := by
  intro o ho
  rw [State.advance_channel, State.advance_now, h o ho]

theorem equalTimes_advance {c : Chip} {s : State} (h : EqualTimes c s) : EqualTimes c s.advance := by
  intro o ho o' ho'
  rw [State.advance_channel, State.advance_channel, h o ho o' ho']

/-- Settles O56: the program stays, and each command it lets through takes `now` along with the times. -/
theorem stepKeepsTimesTrackNow : Obligations.StepKeepsTimesTrackNow := by
  intro c s t hdriven htrack hstep
  obtain ⟨-, -, hprogram⟩ := step_edited hstep
  refine ⟨partitionerDriven_congr hprogram hdriven, ?_⟩
  rcases step_performed hstep with rfl | ⟨cmd, u, hmem, hmix, hu, rfl⟩
  · exact htrack
  · have hpast := actsPast_eq_false_of_partitionerDriven hdriven hmem hmix
    exact timesTrackNow_advance ((nowFollows_of_performed hu hpast).timesTrackNow htrack)

/-- Settles O57: the program stays, and each of its commands does the same to the times of all the chip's oscillators. -/
theorem stepKeepsEqualTimes : Obligations.StepKeepsEqualTimes := by
  intro c s t hlone hequal hstep
  obtain ⟨-, -, hprogram⟩ := step_edited hstep
  refine ⟨fun cmd hcmd => hlone cmd (hprogram ▸ hcmd), ?_⟩
  rcases step_performed hstep with rfl | ⟨cmd, u, hmem, -, hu, rfl⟩
  · exact hequal
  · obtain ⟨g, htimes⟩ := timesMapped_of_performed hu (hlone cmd hmem)
    exact equalTimes_advance (htimes.equalTimes hequal)

end Sys2Proof.Proofs.Times
end

/-! ## Construction and reset (10_state.md R42, 70_reset_and_hazards.md R261) -/

section
namespace Sys2Proof.Proofs.Construction

open Sys2Proof.Machine

/-- Every oscillator is constructed with each field 0 but the channel identifier the parameters give it. -/
theorem zeroOsc_initial (cfg : Config) (o : OscId) : ZeroOsc o (boundChannel cfg o) (State.initial cfg) := by
  rcases o with (_ | _ | _ | _) | _ <;> rfl

theorem channel_initial (cfg : Config) (o : OscId) :
    (State.initial cfg).channel o = Channel.initial (boundChannel cfg o) := by
  rcases o with (_ | _ | _ | _) | _ <;> rfl

theorem pulseWave_initial (cfg : Config) (k : PulseId) : ((State.initial cfg).pulse k).toPulseWave = PulseWave.initial := by
  cases k <;> rfl

/-- Settles O49: reset is construction with the default parameters. -/
theorem resetStateValues : Obligations.ResetStateValues :=
  ⟨zeroOsc_initial Config.default, rfl, rfl, fun _ => rfl, rfl, rfl, rfl⟩

/-- Construction answers a next state exactly where the parameters keep the constraints (60_exceptions.md R241). -/
theorem construct_eq_next {cfg : Config} {s : State} (h : construct cfg = .next s) :
    validConfig cfg = true ∧ s = State.initial cfg := by
  unfold construct at h
  split at h
  · rename_i hvalid
    cases h
    exact ⟨hvalid, rfl⟩
  · cases h

theorem timesTrackNow_initial (cfg : Config) (c : Chip) : TimesTrackNow c (State.initial cfg) := by
  intro o _
  rw [channel_initial]
  cases c <;> rfl

theorem equalTimes_initial (cfg : Config) (c : Chip) : EqualTimes c (State.initial cfg) := by
  intro o _ o' _
  rw [channel_initial, channel_initial]
  rfl

theorem dutyInvariant_initial (cfg : Config) : DutyInvariant (State.initial cfg) := by
  intro k
  rw [pulseWave_initial]
  exact ⟨Nat.zero_le 8, fun _ => ⟨rfl, rfl⟩⟩

/-- Settles O50: the zeros of construction are in every range, and nothing has been sent. -/
theorem constructionMeetsInvariants : Obligations.ConstructionMeetsInvariants := by
  intro cfg s h
  obtain ⟨hvalid, rfl⟩ := construct_eq_next h
  refine ⟨fun o => ?frequency, Nat.zero_le 13, fun o => ?divider, dutyInvariant_initial cfg, Memory.wf_nil _,
    ⟨hvalid, fun o => ?ch⟩, fun _ hb => (List.not_mem_nil hb).elim, fun _ _ hr => (List.not_mem_nil hr).elim,
    fun c => ⟨equalTimes_initial cfg c, timesTrackNow_initial cfg c⟩, rfl⟩
  case frequency =>
    rw [channel_initial]
    rfl
  case divider =>
    rw [channel_initial]
    exact Nat.zero_le 4096
  case ch =>
    rw [channel_initial]
    rfl

end Sys2Proof.Proofs.Construction
end

/-! ## The draws never matter (20_memory.md R62, 40_framework.md R122) -/

section
namespace Sys2Proof.Proofs.Draws

open Sys2Proof.Machine

/-! ### The state without its draws

Two states differ only in their draws when striking the draws out of both gives one state. The struck-out state is a state of the
model, so the model's own operations run on it, and each operation that draws nothing commutes with the striking out. -/

/-- A batch with its draw's number struck out. -/
def undrawnBatch (b : Batch) : Batch := { b with draw := 0 }

/-- The state with every draw struck out: as if no fanned-out call had ever drawn an order. -/
def undrawn (s : State) : State := { s with sink := s.sink.map undrawnBatch, draws := 0 }

/-- An outcome with the draws struck out of its next state. -/
def undrawnResult : Result → Result
  | .next s => .next (undrawn s)
  | .fault r => .fault r
  | .refused r => .refused r

theorem map_undrawnBatch_eq_iff (l l' : List Batch) :
    l'.map undrawnBatch = l.map undrawnBatch ↔
      l'.map (fun b => (b.command, b.blocks)) = l.map (fun b => (b.command, b.blocks)) := by
  have hpair : (fun b : Batch => (b.command, b.blocks)) = (fun b => (b.command, b.blocks)) ∘ undrawnBatch := rfl
  have hbatch : undrawnBatch = (fun p => Batch.mk p.1 0 p.2) ∘ fun b => (b.command, b.blocks) := rfl
  constructor
  · intro h
    rw [hpair, ← List.map_map, h, List.map_map]
  · intro h
    rw [hbatch, ← List.map_map, h, List.map_map]

theorem sameButDraws_iff (s t : State) : SameButDraws s t ↔ undrawn t = undrawn s := by
  simp only [SameButDraws, undrawn, State.mk.injEq, map_undrawnBatch_eq_iff]
  tauto

/-! ### What is read of a state does not show its draws -/

@[simp] theorem undrawn_cfg (s : State) : (undrawn s).cfg = s.cfg := rfl
@[simp] theorem undrawn_ps (s : State) : (undrawn s).ps = s.ps := rfl
@[simp] theorem undrawn_pm (s : State) : (undrawn s).pm = s.pm := rfl
@[simp] theorem undrawn_pulse (s : State) (k : PulseId) : (undrawn s).pulse k = s.pulse k := by
  cases k <;> rfl
@[simp] theorem undrawn_channel (s : State) (o : OscId) : (undrawn s).channel o = s.channel o := by
  rcases o with (_ | _ | _ | _) | _ <;> rfl
@[simp] theorem undrawn_now (s : State) (c : Chip) : (undrawn s).now c = s.now c := by
  cases c <;> rfl

@[simp] theorem undrawn_undrawn (s : State) : undrawn (undrawn s) = undrawn s := by
  simp [undrawn, undrawnBatch, Function.comp_def]

theorem channelTrace_undrawn (s : State) (ch : Nat) : (undrawn s).channelTrace ch = s.channelTrace ch :=
  List.flatMap_map ..

theorem chipRead_undrawn (c : Chip) (a : Addr) (s : State) : chipRead c a (undrawn s) = chipRead c a s := by
  cases c <;> rfl

/-! ### The updates of a state commute with striking out its draws -/

@[simp] theorem undrawn_setPulse (k : PulseId) (p : PulseOscillator) (s : State) :
    undrawn (s.setPulse k p) = (undrawn s).setPulse k p := by
  cases k <;> rfl
@[simp] theorem undrawn_setSaw (o : SawtoothOscillator) (s : State) :
    undrawn (s.setSaw o) = (undrawn s).setSaw o := rfl
@[simp] theorem undrawn_setChannel (o : OscId) (c : Channel) (s : State) :
    undrawn (s.setChannel o c) = (undrawn s).setChannel o c := by
  rcases o with (_ | _ | _ | _) | _ <;> rfl
@[simp] theorem undrawn_setMul (u : MultiplierUnit) (s : State) :
    undrawn (s.setMul u) = (undrawn s).setMul u := rfl
@[simp] theorem undrawn_setAux (m : Memory) (s : State) :
    undrawn (s.setAux m) = (undrawn s).setAux m := rfl
@[simp] theorem undrawn_setNow (c : Chip) (time : Nat) (s : State) :
    undrawn (s.setNow c time) = (undrawn s).setNow c time := by
  cases c <;> rfl
@[simp] theorem undrawn_answer (r : ReadResult) (s : State) :
    undrawn (s.answer r) = (undrawn s).answer r := rfl
@[simp] theorem undrawn_countDraw (s : State) : undrawn s.countDraw = undrawn s := rfl

/-- A batch is sent with the number of the draw it waits for, which is struck out with the others. -/
@[simp] theorem undrawn_send (blocks : List (List Record)) (s : State) :
    undrawn (s.send blocks) = (undrawn s).send blocks := by
  unfold State.send
  split
  · rfl
  · simp [undrawn, undrawnBatch]

/-! ### The writes -/

theorem undrawn_writeCtrl (k : PulseId) (v : Byte) (s : State) :
    undrawn (writeCtrl k v s) = writeCtrl k v (undrawn s) := by
  simp [writeCtrl]

theorem undrawn_writeRate (v : Byte) (s : State) : undrawn (writeRate v s) = writeRate v (undrawn s) := by
  simp [writeRate]

theorem undrawn_writeFreqLo (o : OscId) (v : Byte) (s : State) :
    undrawn (writeFreqLo o v s) = writeFreqLo o v (undrawn s) := by
  simp [writeFreqLo]

theorem undrawn_writeFreqHi (o : OscId) (v : Byte) (s : State) :
    undrawn (writeFreqHi o v s) = writeFreqHi o v (undrawn s) := by
  simp [writeFreqHi]

theorem undrawn_oscWrite (o : OscId) (n : Nat) (v : Byte) (s : State) :
    undrawn (oscWrite o n v s) = oscWrite o n v (undrawn s) := by
  unfold oscWrite
  split
  · cases o with
    | pulse k => exact undrawn_writeCtrl k v s
    | saw => exact undrawn_writeRate v s
  · split
    · exact undrawn_writeFreqLo o v s
    · split
      · exact undrawn_writeFreqHi o v s
      · rfl

theorem undrawn_writeMulA (v : Byte) (s : State) : undrawn (writeMulA v s) = writeMulA v (undrawn s) := by
  simp [writeMulA]

theorem undrawn_writeMulB (v : Byte) (s : State) : undrawn (writeMulB v s) = writeMulB v (undrawn s) := by
  simp [writeMulB]

theorem undrawn_writeAux (i : Nat) (v : Byte) (s : State) : undrawn (writeAux i v s) = writeAux i v (undrawn s) := by
  simp [writeAux]

theorem undrawn_chipWrite (c : Chip) (a : Addr) (v : Byte) (s : State) :
    undrawn (chipWrite c a v s) = chipWrite c a v (undrawn s) := by
  simp only [chipWrite, undrawn_cfg]
  rcases chipTarget s.cfg c a with _ | (⟨o, n⟩ | _ | _ | n)
  · rfl
  · exact undrawn_oscWrite o n v s
  · exact undrawn_writeMulA v s
  · exact undrawn_writeMulB v s
  · exact undrawn_writeAux n v s

/-! ### The oscillators' own operations -/

/-- An operation of one oscillator neither reads the draws nor makes one. -/
def DrawsNothing (f : OscId → State → State × List Record) : Prop :=
  ∀ o s, f o (undrawn s) = (undrawn (f o s).1, (f o s).2)

theorem drawsNothing_oscProcess (d : Nat) : DrawsNothing (oscProcess d) := by
  intro o s
  cases o with
  | pulse k => simp [oscProcess]
  | saw => simp [oscProcess]

theorem drawsNothing_oscReset : DrawsNothing oscReset := by
  intro o s
  cases o with
  | pulse k => simp [oscReset]
  | saw => simp [oscReset]

theorem drawsNothing_oscEndFrame : DrawsNothing oscEndFrame := by
  intro o s
  simp [oscEndFrame]

theorem undrawn_lone {f : OscId → State → State × List Record} (hf : DrawsNothing f) (o : OscId) (s : State) :
    undrawn (lone f o s) = lone f o (undrawn s) := by
  simp [lone, hf o s]

theorem fanOut_undrawn {f : OscId → State → State × List Record} (hf : DrawsNothing f) (l : List OscId) (s : State) :
    fanOut f l (undrawn s) = (undrawn (fanOut f l s).1, (fanOut f l s).2) := by
  induction l generalizing s with
  | nil => rfl
  | cons o rest ih => simp only [fanOut, hf o s, ih]

/-! ### Operations blind to the draws

A fanned-out call counts a draw, so it does not commute with striking the draws out; but what it leaves, its draws struck out,
does not depend on the draws of the state it starts from. -/

/-- What an operation leaves depends on the draws of the state it starts from in nothing but its own draws. -/
def BlindToDraws (f : State → State) : Prop :=
  ∀ s, undrawn (f (undrawn s)) = undrawn (f s)

theorem blind_id : BlindToDraws id := undrawn_undrawn

theorem BlindToDraws.of_commutes {f : State → State} (hf : ∀ s, undrawn (f s) = f (undrawn s)) : BlindToDraws f := by
  intro s
  rw [hf, hf, undrawn_undrawn]

theorem BlindToDraws.comp {f g : State → State} (hg : BlindToDraws g) (hf : BlindToDraws f) :
    BlindToDraws (fun s => g (f s)) := by
  intro s
  calc undrawn (g (f (undrawn s))) = undrawn (g (undrawn (f (undrawn s)))) := (hg _).symm
    _ = undrawn (g (undrawn (f s))) := by rw [hf]
    _ = undrawn (g (f s)) := hg _

theorem blind_setNow (c : Chip) (time : Nat) : BlindToDraws (State.setNow c time) :=
  .of_commutes (undrawn_setNow c time)

theorem blind_setMul (u : MultiplierUnit) : BlindToDraws (State.setMul u) :=
  .of_commutes (undrawn_setMul u)

theorem blind_fanCall {f : OscId → State → State × List Record} (hf : DrawsNothing f) (c : Chip) :
    BlindToDraws (fanCall f c) := by
  intro s
  simp [fanCall, fanOut_undrawn hf]

theorem blind_chipProcess (c : Chip) (d : Nat) : BlindToDraws (chipProcess c d) :=
  blind_fanCall (drawsNothing_oscProcess d) c

theorem blind_chipReset (c : Chip) : BlindToDraws (chipReset c) := by
  cases c with
  | pulseSaw => exact blind_fanCall drawsNothing_oscReset .pulseSaw
  | pulseMul => exact (blind_setMul _).comp (blind_fanCall drawsNothing_oscReset .pulseMul)

theorem blind_chipEndFrame (c : Chip) : BlindToDraws (chipEndFrame c) :=
  blind_fanCall drawsNothing_oscEndFrame c

theorem blind_chipReset_setNow (c : Chip) : BlindToDraws (fun s => (chipReset c s).setNow c 0) :=
  (blind_setNow c 0).comp (blind_chipReset c)

theorem blind_advanceTo (c : Chip) (time : Nat) : BlindToDraws (advanceTo c time) := by
  intro s
  simp only [advanceTo, undrawn_now]
  exact (blind_setNow c time).comp (blind_chipProcess c (time - s.now c)) s

theorem blind_endFrameNow (c : Chip) : BlindToDraws (State.endFrameNow c) := by
  intro s
  simp only [State.endFrameNow, undrawn_cfg]
  split
  · exact undrawn_undrawn s
  · exact blind_setNow c 0 s

theorem blind_frameEndAt (c : Chip) (time : Nat) : BlindToDraws (frameEndAt c time) :=
  (blind_endFrameNow c).comp ((blind_chipEndFrame c).comp (blind_advanceTo c time))

theorem blind_chipWrite (c : Chip) (a : Addr) (v : Byte) : BlindToDraws (chipWrite c a v) :=
  .of_commutes (undrawn_chipWrite c a v)

theorem blind_lone {f : OscId → State → State × List Record} (hf : DrawsNothing f) (o : OscId) : BlindToDraws (lone f o) :=
  .of_commutes (undrawn_lone hf o)

/-! ### Every instruction -/

/-- An instruction with a condition that does not read the draws. -/
theorem undrawnResult_ite {p p' : Prop} [Decidable p] [Decidable p'] {a a' b b' : Result} (hp : p' ↔ p)
    (ha : undrawnResult a' = undrawnResult a) (hb : undrawnResult b' = undrawnResult b) :
    undrawnResult (if p' then a' else b') = undrawnResult (if p then a else b) := by
  rw [apply_ite undrawnResult, apply_ite undrawnResult]
  exact if_congr hp ha hb

/-- An instruction whose whole effect is an operation blind to the draws. -/
theorem undrawnResult_next {f : State → State} (hf : BlindToDraws f) (s : State) :
    undrawnResult (.next (f (undrawn s))) = undrawnResult (.next (f s)) :=
  congrArg Host.Outcome.next (hf s)

/-- A read whose result does not show the draws. -/
theorem undrawnResult_answer {r r' : ReadResult} (hr : r' = r) (s : State) :
    undrawnResult (.next ((undrawn s).answer r')) = undrawnResult (.next (s.answer r)) := by
  subst hr
  exact undrawnResult_next (.of_commutes (undrawn_answer r')) s

theorem undrawnResult_writeCtrl (k : PulseId) (v : Byte) (s : State) :
    undrawnResult (.next (writeCtrl k v (undrawn s))) = undrawnResult (.next (writeCtrl k v s)) :=
  undrawnResult_next (.of_commutes (undrawn_writeCtrl k v)) s

theorem undrawnResult_writeFreqLo (o : OscId) (v : Byte) (s : State) :
    undrawnResult (.next (writeFreqLo o v (undrawn s))) = undrawnResult (.next (writeFreqLo o v s)) :=
  undrawnResult_next (.of_commutes (undrawn_writeFreqLo o v)) s

theorem undrawnResult_writeFreqHi (o : OscId) (v : Byte) (s : State) :
    undrawnResult (.next (writeFreqHi o v (undrawn s))) = undrawnResult (.next (writeFreqHi o v s)) :=
  undrawnResult_next (.of_commutes (undrawn_writeFreqHi o v)) s

/-- How an instruction ends does not depend on the draws of the state it runs in, and neither does its next state but for the
draws it shows itself. -/
theorem undrawnResult_exec (i : Instr) (s : State) : undrawnResult (exec i (undrawn s)) = undrawnResult (exec i s) := by
  cases i
  case p1Ctrl v => exact undrawnResult_writeCtrl .psP1 v s
  case p2Ctrl v => exact undrawnResult_writeCtrl .psP2 v s
  case m1Ctrl v => exact undrawnResult_writeCtrl .pmP1 v s
  case m2Ctrl v => exact undrawnResult_writeCtrl .pmP2 v s
  case p1FreqLo v => exact undrawnResult_writeFreqLo (.pulse .psP1) v s
  case p2FreqLo v => exact undrawnResult_writeFreqLo (.pulse .psP2) v s
  case m1FreqLo v => exact undrawnResult_writeFreqLo (.pulse .pmP1) v s
  case m2FreqLo v => exact undrawnResult_writeFreqLo (.pulse .pmP2) v s
  case sawFreqLo v => exact undrawnResult_writeFreqLo .saw v s
  case p1FreqHi v => exact undrawnResult_writeFreqHi (.pulse .psP1) v s
  case p2FreqHi v => exact undrawnResult_writeFreqHi (.pulse .psP2) v s
  case m1FreqHi v => exact undrawnResult_writeFreqHi (.pulse .pmP1) v s
  case m2FreqHi v => exact undrawnResult_writeFreqHi (.pulse .pmP2) v s
  case sawFreqHi v => exact undrawnResult_writeFreqHi .saw v s
  case sawRate v => exact undrawnResult_next (.of_commutes (undrawn_writeRate v)) s
  case mulA v => exact undrawnResult_next (.of_commutes (undrawn_writeMulA v)) s
  case mulB v => exact undrawnResult_next (.of_commutes (undrawn_writeMulB v)) s
  case auxWrite n v =>
    exact undrawnResult_ite Iff.rfl (undrawnResult_next (.of_commutes (undrawn_writeAux n v)) s) rfl
  case psWriteUnmapped | pmWriteUnmapped | pulseWriteOther | sawWriteOther => exact undrawnResult_next blind_id s
  case psRead | pmReadUnmapped | mulLoRead | mulHiRead => exact undrawnResult_answer rfl s
  case auxRead n =>
    exact undrawnResult_ite Iff.rfl (undrawnResult_answer rfl s) rfl
  case pulseProcess k d => exact undrawnResult_next (blind_lone (drawsNothing_oscProcess d) (.pulse k)) s
  case sawProcess d => exact undrawnResult_next (blind_lone (drawsNothing_oscProcess d) .saw) s
  case pulseReset k => exact undrawnResult_next (blind_lone drawsNothing_oscReset (.pulse k)) s
  case sawReset => exact undrawnResult_next (blind_lone drawsNothing_oscReset .saw) s
  case pulseEndFrame k => exact undrawnResult_next (blind_lone drawsNothing_oscEndFrame (.pulse k)) s
  case sawEndFrame => exact undrawnResult_next (blind_lone drawsNothing_oscEndFrame .saw) s
  case psProcess d => exact undrawnResult_next (blind_chipProcess .pulseSaw d) s
  case pmProcess d => exact undrawnResult_next (blind_chipProcess .pulseMul d) s
  case psReset => exact undrawnResult_next (blind_chipReset_setNow .pulseSaw) s
  case pmReset => exact undrawnResult_next (blind_chipReset_setNow .pulseMul) s
  case rst c => exact undrawnResult_next (blind_chipReset_setNow c) s
  case psEndFrame => exact undrawnResult_next (blind_chipEndFrame .pulseSaw) s
  case pmEndFrame => exact undrawnResult_next (blind_chipEndFrame .pulseMul) s
  case w c time a v =>
    exact undrawnResult_ite (by rw [undrawn_now]) rfl
      (undrawnResult_next ((blind_chipWrite c a v).comp (blind_advanceTo c time)) s)
  case ef c time =>
    exact undrawnResult_ite (by rw [undrawn_now]) rfl (undrawnResult_next (blind_frameEndAt c time) s)
  case r c time a =>
    exact undrawnResult_ite (by rw [undrawn_now]) rfl (undrawnResult_answer (chipRead_undrawn c a s) s)

/-! ### From outcomes back to states -/

theorem undrawnResult_eq_next {r : Result} {t : State} (h : undrawnResult r = undrawnResult (.next t)) :
    ∃ t', r = .next t' ∧ SameButDraws t t' := by
  cases r with
  | next t' => exact ⟨t', rfl, (sameButDraws_iff t t').2 (Host.Outcome.next.inj h)⟩
  | fault => cases h
  | refused => cases h

theorem undrawnResult_eq_fault {r : Result} {e : Fault} (h : undrawnResult r = .fault e) : r = .fault e := by
  cases r with
  | next => cases h
  | fault => exact h
  | refused => cases h

theorem undrawnResult_eq_refused {r : Result} {e : Refusal} (h : undrawnResult r = .refused e) : r = .refused e := by
  cases r with
  | next => cases h
  | fault => cases h
  | refused => exact h

theorem undrawnResult_exec_congr {s s' : State} (h : SameButDraws s s') (i : Instr) :
    undrawnResult (exec i s') = undrawnResult (exec i s) := by
  rw [← undrawnResult_exec i s', (sameButDraws_iff s s').1 h, undrawnResult_exec]

theorem tracesKept_of_sameButDraws {s t : State} (h : SameButDraws s t) : TracesKept s t := by
  intro ch
  rw [← channelTrace_undrawn t, (sameButDraws_iff s t).1 h, channelTrace_undrawn]

/-- Settles O30: an instruction's outcome, the draws struck out, is that of the struck-out state, which the two states share. -/
theorem drawsNeverMatter : Obligations.DrawsNeverMatter := by
  intro i s s' hs
  have hexec := undrawnResult_exec_congr hs i
  refine ⟨fun t ht => ?next, fun e he => undrawnResult_eq_fault ?fault, fun e he => undrawnResult_eq_refused ?refused⟩
  case next =>
    obtain ⟨t', ht', hsame⟩ := undrawnResult_eq_next (ht ▸ hexec)
    exact ⟨t', ht', hsame, tracesKept_of_sameButDraws hsame⟩
  case fault => rw [hexec, he, undrawnResult]
  case refused => rw [hexec, he, undrawnResult]

end Sys2Proof.Proofs.Draws
end

/-! ## Decode and encode agree (30_encoding.md R71 to R73, R79 to R81) -/

section
namespace Sys2Proof.Proofs.Codec

open Sys2Proof.Machine Sys2Proof.Proofs.DecodedWellFormed

/-! ### What the address maps select -/

/-- Inside a channel's range, `addr & 3` is the distance to the base, since bases are multiples of 4 (30_encoding.md R73). -/
theorem regIndex_of_inChannel {base : Nat} {a : Addr} (hbase : base % 4 = 0) (ha : InChannel base a) :
    regIndex a ≤ 2 ∧ a.toNat = base + regIndex a := by
  rw [regIndex_eq]
  omega

/-- The converse of `chipTarget_reg`: only the three addresses from an oscillator's base on select its registers. -/
theorem address_of_chipTarget_reg {cfg : Config} (h : validConfig cfg = true) {c : Chip} {a : Addr} {o : OscId} {n : Nat}
    (ht : chipTarget cfg c a = some (.reg o n)) : oscChip o = c ∧ n ≤ 2 ∧ a.toNat = oscBase cfg o + n := by
  have hbase (o : OscId) : oscBase cfg o % 4 = 0 := ((validConfig_facts h).1 o).1
  cases c with
  | pulseSaw =>
    simp only [chipTarget, psTarget] at ht
    split at ht
    · cases ht
      exact ⟨rfl, regIndex_of_inChannel (hbase (.pulse .psP1)) ‹_›⟩
    · split at ht
      · cases ht
        exact ⟨rfl, regIndex_of_inChannel (hbase (.pulse .psP2)) ‹_›⟩
      · split at ht <;> cases ht
        exact ⟨rfl, regIndex_of_inChannel (hbase .saw) ‹_›⟩
  | pulseMul =>
    simp only [chipTarget, pmTarget] at ht
    split at ht
    · cases ht
      exact ⟨rfl, regIndex_of_inChannel (hbase (.pulse .pmP1)) ‹_›⟩
    · split at ht
      · cases ht
        exact ⟨rfl, regIndex_of_inChannel (hbase (.pulse .pmP2)) ‹_›⟩
      · repeat' split at ht
        all_goals cases ht

theorem pmTarget_eq_mulLo {cfg : Config} (h : validConfig cfg = true) {a : Addr} (ha : a.toNat = cfg.pmMulLo) :
    pmTarget cfg a = some .mulLo := by
  have hapart := pmRegions_apart h
  rw [pmTarget, if_neg (by omega), if_neg (by omega), if_pos ha]

theorem pmTarget_eq_mulHi {cfg : Config} (h : validConfig cfg = true) {a : Addr} (ha : a.toNat = cfg.pmMulHi) :
    pmTarget cfg a = some .mulHi := by
  have hapart := pmRegions_apart h
  rw [pmTarget, if_neg (by omega), if_neg (by omega), if_neg (by omega), if_pos ha]

theorem pmTarget_eq_aux {cfg : Config} (h : validConfig cfg = true) {a : Addr} {n : Nat} (hn : n < cfg.pmAuxSize)
    (ha : a.toNat = cfg.pmAuxBase + n) : pmTarget cfg a = some (.aux n) := by
  have hapart := pmRegions_apart h
  have hindex : a.toNat - cfg.pmAuxBase = n := by omega
  rw [pmTarget, if_neg (by omega), if_neg (by omega), if_neg (by omega), if_neg (by omega), if_pos (by omega), hindex]

/-- The read map keeps every target but the registers (44_pulsemul_chip.md R214). -/
theorem pmReadTarget_eq {cfg : Config} {a : Addr} {x : BusTarget} (ht : pmTarget cfg a = some x)
    (hx : ∀ o n, x ≠ .reg o n) : pmReadTarget cfg a = some x := by
  unfold pmReadTarget
  rw [ht]
  cases x with
  | reg o n => exact absurd rfl (hx o n)
  | mulLo | mulHi | aux n => rfl

/-! ### The decoder, by target -/

theorem decodeWrite_reg {cfg : Config} {c : Chip} {a : Addr} {o : OscId} {n : Nat}
    (ht : chipTarget cfg c a = some (.reg o n)) (v : Byte) : decodeWrite cfg c a v = oscWriteInstr o n v := by
  cases c with
  | pulseSaw => simp only [decodeWrite, decodePsWrite, show psTarget cfg a = _ from ht]
  | pulseMul => simp only [decodeWrite, decodePmWrite, show pmTarget cfg a = _ from ht]

/-- The word the encoder builds from an address and a byte decodes to the write of that byte there. -/
theorem decode_busWrite (cfg : Config) (c : Chip) (a : Addr) (v : Byte) :
    decode cfg (.bus c (busWriteWord a.toNat v.toNat)) = .ok (decodeWrite cfg c a v) := by
  simpa using decode_busWriteWord cfg c a.isLt v.isLt

theorem decode_busRead (cfg : Config) (c : Chip) (a : Addr) :
    decode cfg (.bus c (busReadWord a.toNat)) = .ok (decodeRead cfg c a) := by
  simpa using decode_busReadWord_zero cfg c a.isLt

/-- The write of a register, at its address, decodes to that write. -/
theorem decode_encodeReg {cfg : Config} (h : validConfig cfg = true) (o : OscId) {n : Nat} (hn : n ≤ 2) (v : Byte) :
    decode cfg (encodeReg cfg o n v) = .ok (oscWriteInstr o n v) := by
  obtain ⟨-, hle⟩ := (validConfig_facts h).1 o
  rw [encodeReg, decode_busWriteWord _ _ (by omega) v.isLt, decodeWrite_reg (chipTarget_reg h o hn),
    BitVec.ofNat_toNat, BitVec.setWidth_eq]

/-- An address of the PulseMulChip given as a number, written to. -/
theorem decode_pmWrite {cfg : Config} {x : Nat} (hx : x < 65536) (v : Byte) :
    decode cfg (.bus .pulseMul (busWriteWord x v.toNat)) = .ok (decodePmWrite cfg (BitVec.ofNat 16 x) v) := by
  rw [decode_busWriteWord _ _ hx v.isLt, BitVec.ofNat_toNat, BitVec.setWidth_eq]
  rfl

/-- An address of the PulseMulChip given as a number, read. -/
theorem decode_pmRead {cfg : Config} {x : Nat} (hx : x < 65536) :
    decode cfg (.bus .pulseMul (busReadWord x)) = .ok (decodePmRead cfg (BitVec.ofNat 16 x)) :=
  decode_busReadWord_zero cfg .pulseMul hx

/-! ### The encoder, by what the decoder builds -/

theorem encode_oscWriteInstr (cfg : Config) (o : OscId) {n : Nat} (hn : n ≤ 2) (v : Byte) :
    encode cfg (oscWriteInstr o n v) = encodeReg cfg o n v := by
  have hregs : n = 0 ∨ n = 1 ∨ n = 2 := by omega
  rcases hregs with rfl | rfl | rfl
  all_goals rcases o with (_ | _ | _ | _) | _ <;> rfl

/-- The instruction of a bus write encodes to the word of that write: its target gives back the address. -/
theorem encode_decodeWrite {cfg : Config} (h : validConfig cfg = true) (c : Chip) (a : Addr) (v : Byte) :
    encode cfg (decodeWrite cfg c a v) = .bus c (busWriteWord a.toNat v.toNat) := by
  have hreg {o : OscId} {n : Nat} (ht : chipTarget cfg c a = some (.reg o n)) :
      encode cfg (decodeWrite cfg c a v) = .bus c (busWriteWord a.toNat v.toNat) := by
    obtain ⟨hchip, hn, haddr⟩ := address_of_chipTarget_reg h ht
    rw [decodeWrite_reg ht, encode_oscWriteInstr cfg o hn, encodeReg, hchip, haddr]
  cases c with
  | pulseSaw =>
    rcases psTarget_cases cfg a with ht | ⟨o, n, ht⟩
    · simp only [decodeWrite, decodePsWrite, ht, encode]
    · exact hreg ht
  | pulseMul =>
    rcases ht : pmTarget cfg a with _ | (⟨o, n⟩ | _ | _ | n)
    · simp only [decodeWrite, decodePmWrite, ht, encode]
    · exact hreg ht
    · simp only [decodeWrite, decodePmWrite, ht, encode, pmTarget_mulLo ht]
    · simp only [decodeWrite, decodePmWrite, ht, encode, pmTarget_mulHi ht]
    · simp only [decodeWrite, decodePmWrite, ht, encode, (pmTarget_aux ht).2]

/-- The instruction of a bus read encodes to the read word of its address, with `V` zero. -/
theorem encode_decodeRead (cfg : Config) (c : Chip) (a : Addr) :
    encode cfg (decodeRead cfg c a) = .bus c (busReadWord a.toNat) := by
  cases c with
  | pulseSaw => rfl
  | pulseMul =>
    rcases ht : pmReadTarget cfg a with _ | (⟨o, n⟩ | _ | _ | n)
    · simp only [decodeRead, decodePmRead, ht, encode]
    · exact absurd ht (pmReadTarget_ne_reg cfg a o n)
    · simp only [decodeRead, decodePmRead, ht, encode, pmTarget_mulLo (pmTarget_of_pmReadTarget ht)]
    · simp only [decodeRead, decodePmRead, ht, encode, pmTarget_mulHi (pmTarget_of_pmReadTarget ht)]
    · simp only [decodeRead, decodePmRead, ht, encode, (pmTarget_aux (pmTarget_of_pmReadTarget ht)).2]

/-! ### The two round trips -/

/-- Settles O44, format by format: a register's write goes to its own address, a multiplier or memory row to the address that
selects it alone, an unmapped row to the address it names, and the other formats carry their operands as they are. -/
theorem decodeEncodeAgree : Obligations.DecodeEncodeAgree := by
  intro cfg i h hw
  obtain ⟨-, -, -, hmulLo, hmulHi, haux, -⟩ := validConfig_facts h
  have tLo := pmTarget_eq_mulLo h (toNat_ofNat_16 hmulLo)
  have tHi := pmTarget_eq_mulHi h (toNat_ofNat_16 hmulHi)
  have tAux {n : Nat} (hn : n < cfg.pmAuxSize) := pmTarget_eq_aux h hn (toNat_ofNat_16 (by omega))
  cases i with
  | p1Ctrl v | p2Ctrl v | m1Ctrl v | m2Ctrl v | sawRate v => exact decode_encodeReg h _ (n := 0) (by decide) v
  | p1FreqLo v | p2FreqLo v | m1FreqLo v | m2FreqLo v | sawFreqLo v => exact decode_encodeReg h _ (n := 1) (by decide) v
  | p1FreqHi v | p2FreqHi v | m1FreqHi v | m2FreqHi v | sawFreqHi v => exact decode_encodeReg h _ (n := 2) (by decide) v
  | mulA v => rw [encode, decode_pmWrite hmulLo, decodePmWrite, tLo]
  | mulB v => rw [encode, decode_pmWrite hmulHi, decodePmWrite, tHi]
  | auxWrite n v =>
    have hn : n < cfg.pmAuxSize := of_decide_eq_true hw
    rw [encode, decode_pmWrite (by omega), decodePmWrite, tAux hn]
  | mulLoRead => rw [encode, decode_pmRead hmulLo, decodePmRead, pmReadTarget_eq tLo (by simp)]
  | mulHiRead => rw [encode, decode_pmRead hmulHi, decodePmRead, pmReadTarget_eq tHi (by simp)]
  | auxRead n =>
    have hn : n < cfg.pmAuxSize := of_decide_eq_true hw
    rw [encode, decode_pmRead (by omega), decodePmRead, pmReadTarget_eq (tAux hn) (by simp)]
  | psWriteUnmapped a v =>
    rw [encode, decode_busWrite, decodeWrite, decodePsWrite, Option.isNone_iff_eq_none.1 hw]
  | pmWriteUnmapped a v =>
    rw [encode, decode_busWrite, decodeWrite, decodePmWrite, Option.isNone_iff_eq_none.1 hw]
  | psRead a => exact decode_busRead cfg .pulseSaw a
  | pmReadUnmapped a =>
    rw [encode, decode_busRead, decodeRead, decodePmRead, Option.isNone_iff_eq_none.1 hw]
  | w c time a v => simp [encode, decode, a.isLt, v.isLt]
  | r c time a => simp [encode, decode, a.isLt]
  | pulseWriteOther k n v | sawWriteOther n v =>
    have hn : 3 ≤ n := of_decide_eq_true hw
    rw [encode, decode_oscWrite, oscWriteInstr, if_neg (by omega), if_neg (by omega), if_neg (by omega), otherInstr]
  | psProcess | psReset | psEndFrame | pmProcess | pmReset | pmEndFrame | ef | rst | pulseProcess | pulseReset
  | pulseEndFrame | sawProcess | sawReset | sawEndFrame => rfl

/-- A word above the write bit is the write word of its fields (30_encoding.md R71). -/
theorem busWriteWord_of_fields {w : Nat} (hw : w < 2 ^ 25) (hbit : 2 ^ 24 ≤ w) :
    busWriteWord (busAddr (BitVec.ofNat 25 w)).toNat (busData (BitVec.ofNat 25 w)).toNat = w := by
  obtain ⟨-, haddr, hdata⟩ := busWord_fields hw
  rw [busWriteWord, haddr, hdata]
  omega

/-- A word below the write bit is the read word of its address and an ignored `V` (30_encoding.md R71). -/
theorem busReadWord_of_fields {w : Nat} (hw : w < 2 ^ 24) :
    busReadWord (busAddr (BitVec.ofNat 25 w)).toNat = w - w % 2 ^ 8 := by
  obtain ⟨-, haddr, -⟩ := busWord_fields (w := w) (by omega)
  rw [busReadWord, haddr]
  omega

/-- Settles O45: bit 24 says which of the two round trips from words applies. -/
theorem everyBusWordDecodes : Obligations.EveryBusWordDecodes := by
  intro cfg c w h hw
  obtain ⟨hwrite, -, -⟩ := busWord_fields hw
  have hdecode : decode cfg (.bus c w) = .ok (decodeBus cfg c (BitVec.ofNat 25 w)) := if_pos hw
  refine ⟨_, hdecode, wellFormed_of_decode hdecode, fun hbit => ?_, fun hbit => ?_⟩
  · rw [decodeBus, hwrite, if_pos (decide_eq_true hbit), encode_decodeWrite h, busWriteWord_of_fields hw hbit]
  · rw [decodeBus, hwrite, if_neg (by simpa using hbit), encode_decodeRead, busReadWord_of_fields hbit]

/-- Settles O46: each word runs through the decoder. -/
theorem decodesSampleWords : Obligations.DecodesSampleWords :=
  ⟨rfl, rfl, rfl, rfl, rfl, rfl, rfl, rfl, rfl, rfl⟩

end Sys2Proof.Proofs.Codec
end

/-! ## Register writes (30_encoding.md R74 to R77, 41_pulse.md R130 to R132, 42_sawtooth.md R160 to R162) -/

section
namespace Sys2Proof.Proofs.RegisterWrites

open Sys2Proof.Machine Sys2Proof.Proofs.Times

/-! ### The single-bit fields -/

theorem getLsbD_seven (v : Byte) : v.getLsbD 7 = decide (128 ≤ v.toNat) := by
  rw [← BitVec.msb_eq_decide v, BitVec.msb_eq_getLsbD_last]

theorem ctrlGate_eq (v : Byte) : ctrlGate v = decide (128 ≤ v.toNat) :=
  getLsbD_seven v

theorem freqHiEnabled_eq (v : Byte) : freqHiEnabled v = decide (128 ≤ v.toNat) :=
  getLsbD_seven v

/-! ### FREQ_LO and FREQ_HI -/

@[simp] theorem channel_writeFreqLo_same (o : OscId) (v : Byte) (s : State) :
    (writeFreqLo o v s).channel o = (s.channel o).writeFreqLo v :=
  State.channel_setChannel_same s o _

@[simp] theorem channel_writeFreqHi_same (o : OscId) (v : Byte) (s : State) :
    (writeFreqHi o v s).channel o = (s.channel o).writeFreqHi v :=
  State.channel_setChannel_same s o _

/-- Settles O2: the write is an update of the common fields of one oscillator. -/
theorem freqLoWrite : Obligations.FreqLoWrite := by
  intro o v s
  refine ⟨_, exec_freqLoInstr o v s, ?_⟩
  rw [channel_writeFreqLo_same]
  exact ⟨rfl, assembleFrequency_toNat _ _, rfl, rfl, rfl, rfl, rfl, waveKept_setChannel o _ s, State.setChannel_sink s o _,
    onlyOscillators_setChannel o _ s, State.setChannel_draws s o _⟩

/-- Settles O3: the write is an update of the common fields of one oscillator. -/
theorem freqHiWrite : Obligations.FreqHiWrite := by
  intro o v s
  refine ⟨_, exec_freqHiInstr o v s, ?_⟩
  rw [channel_writeFreqHi_same]
  have hfrequency : ((s.channel o).writeFreqHi v).frequency.toNat = (s.channel o).freqLow.toNat + 256 * (v.toNat % 16) := by
    rw [Channel.writeFreqHi, assembleFrequency_toNat, freqHighField_toNat]
  exact ⟨freqHiEnabled_eq v, freqHighField_toNat v, hfrequency, rfl, rfl, rfl, rfl, waveKept_setChannel o _ s,
    State.setChannel_sink s o _, onlyOscillators_setChannel o _ s, State.setChannel_draws s o _⟩

/-! ### RATE -/

theorem onlyOscillators_setSaw (p : SawtoothOscillator) (s : State) : OnlyOscillators [.saw] s (s.setSaw p) :=
  ⟨othersKept_saw (State.setSaw_pulse s p), rfl, fun _ => rfl, ⟨rfl, rfl⟩, ⟨rfl, rfl, rfl⟩, rfl⟩

/-- Settles O4: the write replaces the sawtooth by one that differs in `phaseInput` alone. -/
theorem sawRateWrite : Obligations.SawRateWrite := by
  intro v s
  exact ⟨writeRate v s, rfl, ratePhaseInput_toNat v, rfl, rfl, rfl, rfl, onlyOscillators_setSaw _ s, rfl⟩

/-! ### CTRL -/

@[simp] theorem pulse_writeCtrl_same (k : PulseId) (v : Byte) (s : State) :
    (writeCtrl k v s).pulse k = { s.pulse k with toPulseWave := (s.pulse k).toPulseWave.writeCtrl v } := by
  simp [writeCtrl]

theorem onlyOscillators_setPulse (k : PulseId) (p : PulseOscillator) (s : State) :
    OnlyOscillators [.pulse k] s (s.setPulse k p) :=
  ⟨othersKept_pulse (State.pulse_setPulse_of_ne s k p) (State.setPulse_saw s k p), by simp [MulKept], by simp [MemoryKept],
    by simp [NowsKept], by simp [DriverKept], by simp⟩

/-- Sending records is no change to anything `OnlyOscillators` speaks of. -/
theorem onlyOscillators_send {l : List OscId} {s t : State} (h : OnlyOscillators l s t) (blocks : List (List Record)) :
    OnlyOscillators l s (t.send blocks) := by
  obtain ⟨hothers, hmul, hmemory, hnows, hdriver, hreads⟩ := h
  refine ⟨fun o ho => ?_, by simpa [MulKept] using hmul, by simpa [MemoryKept] using hmemory,
    by simpa [NowsKept] using hnows, by simpa [DriverKept] using hdriver, by simpa using hreads⟩
  have hkept := hothers o ho
  cases o with
  | pulse k => exact (State.send_pulse t blocks k).trans hkept
  | saw => exact (congrArg PulseSawChip.saw (State.send_ps t blocks)).trans hkept

theorem onlyOscillators_writeCtrl (k : PulseId) (v : Byte) (s : State) : OnlyOscillators [.pulse k] s (writeCtrl k v s) :=
  onlyOscillators_send (onlyOscillators_setPulse k _ s) _

/-- The trace of a CTRL write: one record on the pulse's channel where the gate is written 1, none else. -/
theorem gained_writeCtrl (k : PulseId) (v : Byte) (s : State) (ch : Nat) :
    Gained ch (if 128 ≤ v.toNat ∧ ch = (s.pulse k).ch then [.level ch (v.toNat % 16) (s.pulse k).elapsedTime] else []) s
      (writeCtrl k v s) := by
  rw [Gained, channelTrace_writeCtrl, ctrlGate_eq, ctrlVolume_toNat]
  congr 1
  by_cases hgate : 128 ≤ v.toNat
  · by_cases hch : ch = (s.pulse k).ch
    · subst hch
      simpa [hgate] using ofChannel_eq_self (by simp [Record.channel])
    · simpa [hgate, hch] using ofChannel_eq_nil (by simpa [Record.channel] using Ne.symm hch)
  · simp [hgate]

/-- While the gate is set, every expiry has the level of the volume, whatever the duty position (10_state.md R24). -/
theorem level_expireTimes_of_gate {w : PulseWave} (hgate : w.gate = true) (n : Nat) :
    (expireTimes PulseWave.expire n w).level = w.volume.toNat := by
  rw [expireTimes_pulse]
  exact if_pos (.inl hgate)

/-- A pulse whose gate is set emits records of its volume alone. -/
theorem eq_level_of_mem_pulseDrained {d : Nat} {p : PulseOscillator} (hgate : p.gate = true) {r : Record}
    (hr : r ∈ (pulseDrained d p).records) : r = .level p.ch p.volume.toNat r.time := by
  obtain ⟨v, n, hdrained⟩ := processChannel_cases PulseWave.expire PulseWave.level d p.toChannel p.toPulseWave
  rw [pulseDrained, hdrained] at hr
  obtain ⟨j, -, rfl⟩ := mem_expiryRecords hr
  rw [level_expireTimes_of_gate hgate]
  rfl

/-- Settles O1: the fields and the frame are those of the write, and the later levels follow because an expiry keeps the gate and
the volume. -/
theorem pulseCtrlWrite : Obligations.PulseCtrlWrite := by
  intro k v s
  refine ⟨_, exec_pulseCtrlInstr k v s, ?_⟩
  have hpulse := pulse_writeCtrl_same k v s
  refine ⟨?gate, ?duty, ?volume, ?position, ?common, gained_writeCtrl k v s, onlyOscillators_writeCtrl k v s, ?draws, ?later⟩
  case gate => rw [hpulse]; exact ctrlGate_eq v
  case duty => rw [hpulse]; exact ctrlDutyCycle_toNat v
  case volume => rw [hpulse]; exact ctrlVolume_toNat v
  case position => rw [hpulse]; rfl
  case common => rw [hpulse]
  case draws => simp [writeCtrl]
  case later =>
    intro hv d
    refine ⟨_, drainedRecords d (.pulse k) (writeCtrl k v s), exec_oscProcessInstr (.pulse k) d _,
      channelTrace_loneProcess d (.pulse k) _, fun r hr => ?_⟩
    have hgate : ((writeCtrl k v s).pulse k).gate = true := by
      rw [hpulse]
      exact (ctrlGate_eq v).trans (decide_eq_true hv)
    have hlevel := eq_level_of_mem_pulseDrained hgate hr
    rw [hpulse] at hlevel
    exact hlevel.trans (by rw [← ctrlVolume_toNat v]; rfl)

end Sys2Proof.Proofs.RegisterWrites
end

/-! ## The pseudo-instruction FREQ (30_encoding.md R88, 40_framework.md R115) -/

section
namespace Sys2Proof.Proofs.FreqPseudo

open Sys2Proof.Machine Sys2Proof.Proofs.Edits Sys2Proof.Proofs.Times Sys2Proof.Proofs.RegisterWrites

/-! ### A partitioner write of a register -/

/-- A partitioner write never mixes the interface levels (40_framework.md R125). -/
theorem mixesLevels_partWrite (s : State) (c : Chip) (time a v : Nat) : s.mixesLevels (.partWrite c time a v) = false := by
  simp [State.mixesLevels, actsPastPartitioner, actsOnLoneTime]

@[simp] theorem cfg_advanceTo (c : Chip) (time : Nat) (s : State) : (advanceTo c time s).cfg = s.cfg :=
  (edited_advanceTo c time s).driver.1

@[simp] theorem now_advanceTo_same (c : Chip) (time : Nat) (s : State) : (advanceTo c time s).now c = time :=
  State.now_setNow_same _ c time

/-- A chip's write at the address of a register is the oscillator's write of it. -/
theorem chipWrite_reg {s : State} (h : validConfig s.cfg = true) (o : OscId) {n : Nat} (hn : n ≤ 2) (v : Byte) :
    chipWrite (oscChip o) (BitVec.ofNat 16 (oscBase s.cfg o + n)) v s = oscWrite o n v s := by
  rw [chipWrite, chipTarget_reg h o hn]

/-- A partitioner write to the address of a register takes the chip up to its time and then writes the register. -/
theorem perform_partWrite_reg {s : State} (h : validConfig s.cfg = true) (o : OscId) {n v time : Nat} (hn : n ≤ 2)
    (hv : v < 2 ^ 8) (htime : s.now (oscChip o) ≤ time) :
    perform (.partWrite (oscChip o) time (oscBase s.cfg o + n) v) s =
      .next (oscWrite o n (BitVec.ofNat 8 v) (advanceTo (oscChip o) time s)).advance := by
  obtain ⟨-, hbase⟩ := (validConfig_facts h).1 o
  have hdecode : decode s.cfg (.partWrite (oscChip o) time (oscBase s.cfg o + n) v) =
      .ok (.w (oscChip o) time (BitVec.ofNat 16 (oscBase s.cfg o + n)) (BitVec.ofNat 8 v)) :=
    if_pos ⟨by omega, hv⟩
  have hexec : exec (.w (oscChip o) time (BitVec.ofNat 16 (oscBase s.cfg o + n)) (BitVec.ofNat 8 v)) s =
      .next (chipWrite (oscChip o) (BitVec.ofNat 16 (oscBase s.cfg o + n)) (BitVec.ofNat 8 v)
        (advanceTo (oscChip o) time s)) :=
    if_neg (Nat.not_lt.2 htime)
  have hwrite := chipWrite_reg (s := advanceTo (oscChip o) time s) (by rwa [cfg_advanceTo]) o hn (BitVec.ofNat 8 v)
  rw [cfg_advanceTo] at hwrite
  rw [perform, hdecode]
  simp only [mixesLevels_partWrite, hexec, hwrite]
  rfl

/-! ### What the partitioner's `process` leaves of the common fields -/

theorem drainedChan_eq (d : Nat) (o : OscId) (s : State) :
    ∃ v, drainedChan d o s = { s.channel o with divider := v, elapsedTime := (s.channel o).elapsedTime + d } := by
  cases o with
  | pulse k =>
    obtain ⟨v, n, h⟩ := processChannel_cases PulseWave.expire PulseWave.level d (s.pulse k).toChannel (s.pulse k).toPulseWave
    exact ⟨v, congrArg Drained.chan h⟩
  | saw =>
    obtain ⟨v, n, h⟩ := processChannel_cases SawWave.expire SawWave.level d s.ps.saw.toChannel s.ps.saw.toSawWave
    exact ⟨v, congrArg Drained.chan h⟩

/-- Only the divider and the time of an oscillator move when its partitioner takes the chip up to a time. -/
theorem channel_advanceTo (o : OscId) (time : Nat) (s : State) :
    ∃ v, (advanceTo (oscChip o) time s).channel o =
      { s.channel o with
        divider := v, elapsedTime := (s.channel o).elapsedTime + (time - s.now (oscChip o)) } := by
  obtain ⟨v, hv⟩ := drainedChan_eq (time - s.now (oscChip o)) o s
  refine ⟨v, ?_⟩
  rw [advanceTo, State.setNow_channel, channel_of_oscKept (oscKept_chipProcess s ((mem_oscillators o _).2 rfl)),
    channel_loneProcess, hv]

/-! ### The operands of the two writes -/

/-- The FREQ_LO operand holds the low byte of the frequency. -/
theorem freqLoOperand_eq (f : Nat) : f &&& 0xFF = f % 256 :=
  Nat.and_two_pow_sub_one_eq_mod f 8

/-- The FREQ_HI operand holds the enable bit and the frequency's top bits, which do not overlap. -/
theorem freqHiOperand_eq {f : Nat} (hf : f ≤ 4095) (e : Nat) : (e <<< 7) ||| (f >>> 8) = 128 * e + f / 256 := by
  have hhigh : f >>> 8 = f / 256 := Nat.shiftRight_eq_div_pow f 8
  rw [hhigh, ← Nat.shiftLeft_add_eq_or_of_lt (by omega), Nat.shiftLeft_eq]
  omega

theorem assemble_freq (cfg : Config) (o : OscId) (time : Nat) {f e : Nat} (hf : f ≤ 4095) (he : e ≤ 1) :
    assemble cfg (oscChip o) (.freq time o f e) =
      .ok [.partWrite (oscChip o) time (oscBase cfg o + 1) (f % 256),
        .partWrite (oscChip o) time (oscBase cfg o + 2) (128 * e + f / 256)] := by
  simp [assemble, asmRange, asmNamed, knownName, regNameChip, regNameAddr, hf, he, freqLoOperand_eq, freqHiOperand_eq hf]

/-- The FREQ_HI operand, written where the low byte stands, completes the frequency and sets the enable bit. -/
theorem writeFreqHi_operand {c : Channel} {f e : Nat} (hf : f ≤ 4095) (he : e ≤ 1) (hlow : c.freqLow.toNat = f % 256) :
    (c.writeFreqHi (BitVec.ofNat 8 (128 * e + f / 256))).frequency.toNat = f ∧
      (c.writeFreqHi (BitVec.ofNat 8 (128 * e + f / 256))).enabled = decide (e = 1) := by
  have hbyte : (BitVec.ofNat 8 (128 * e + f / 256)).toNat = 128 * e + f / 256 := by
    rw [BitVec.toNat_ofNat]
    omega
  constructor
  · simp only [Channel.writeFreqHi, assembleFrequency_toNat, freqHighField_toNat, hbyte, hlow]
    omega
  · simp only [Channel.writeFreqHi, freqHiEnabled_eq, hbyte, decide_eq_decide]
    omega

/-! ### The pair of writes -/

/-- Settles O48: the second write finds `now` at its own time, so its `process` is of 0 cycles and keeps the low byte written. -/
theorem freqPseudoInstruction : Obligations.FreqPseudoInstruction := by
  intro o time f e s h hf he htime
  set t := (writeFreqLo o (BitVec.ofNat 8 (f % 256)) (advanceTo (oscChip o) time s)).advance with ht
  have hcfg : t.cfg = s.cfg := by simp [ht, writeFreqLo]
  have hnow : t.now (oscChip o) = time := by simp [ht, writeFreqLo]
  have hlow : (t.channel o).freqLow.toNat = f % 256 := by simp [ht, Channel.writeFreqLo, freqLowField]
  have hfirst := perform_partWrite_reg h o (n := 1) (v := f % 256) (by decide) (by omega) htime
  have hsecond := perform_partWrite_reg (s := t) (hcfg ▸ h) o (n := 2) (v := 128 * e + f / 256) (by decide) (by omega) hnow.le
  rw [hcfg] at hsecond
  refine ⟨_, _, t, _, assemble_freq s.cfg o time hf he, hfirst, hsecond, ?_⟩
  have hwritten : (oscWrite o 2 (BitVec.ofNat 8 (128 * e + f / 256)) (advanceTo (oscChip o) time t)).advance.channel o =
      ((advanceTo (oscChip o) time t).channel o).writeFreqHi (BitVec.ofNat 8 (128 * e + f / 256)) :=
    (State.advance_channel _ o).trans (channel_writeFreqHi_same o _ _)
  obtain ⟨v, hchannel⟩ := channel_advanceTo o time t
  rw [hwritten, hchannel, hnow, Nat.sub_self, Nat.add_zero]
  obtain ⟨hfrequency, henabled⟩ := writeFreqHi_operand (c := { t.channel o with divider := v }) hf he hlow
  exact ⟨hfrequency, henabled, rfl⟩

end Sys2Proof.Proofs.FreqPseudo
end

/-! ## `process` on one oscillator in closed form (40_framework.md R101 to R109) -/

section
namespace Sys2Proof.Proofs.Process

open Sys2Proof.Machine

/-! ### The divider drain in closed form -/

theorem not_armed_iff (c : Channel) : c.operating ≠ .armed ↔ c.enabled = false ∨ c.frequency = 0 := by
  unfold Channel.operating
  split
  · exact iff_of_true (by decide) (.inl ‹_›)
  · split
    · exact iff_of_true (by decide) (.inr ‹_›)
    · exact iff_of_false (not_not.2 rfl) (not_or.2 ⟨‹_›, ‹_›⟩)

theorem afterProcess_of_not_armed {c : Channel} (h : c.operating ≠ .armed) (d : Nat) : afterProcess d c = c.wait d := by
  rw [afterProcess, if_pos ((not_armed_iff c).1 h)]
  rfl

theorem afterProcess_of_lt {c : Channel} (ha : c.operating = .armed) {d : Nat} (h : d < c.divider) :
    afterProcess d c = c.settle d := by
  rw [afterProcess, if_neg (fun hn => (not_armed_iff c).2 hn ha), if_pos h]
  rfl

theorem afterProcess_of_ge {c : Channel} (ha : c.operating = .armed) {d : Nat} (h : c.divider ≤ d) :
    afterProcess d c =
      { c with
        divider := c.frequency.toNat + 1 - (d - c.divider) % (c.frequency.toNat + 1)
        elapsedTime := c.elapsedTime + d } := by
  rw [afterProcess, if_neg (fun hn => (not_armed_iff c).2 hn ha), if_neg (Nat.not_lt.2 h)]

theorem expiryCount_of_not_armed {c : Channel} (h : c.operating ≠ .armed) (d : Nat) : expiryCount d c = 0 :=
  if_neg fun ha => h ((operating_eq_armed_iff c).2 ha)

theorem expiryCount_of_lt {c : Channel} {d : Nat} (h : d < c.divider) : expiryCount d c = 0 := by
  rw [expiryCount, expiries, if_pos h, ite_self]

theorem expiryCount_of_ge {c : Channel} (ha : c.operating = .armed) {d : Nat} (h : c.divider ≤ d) :
    expiryCount d c = 1 + (d - c.divider) / (c.frequency.toNat + 1) := by
  rw [expiryCount, if_pos ((operating_eq_armed_iff c).1 ha), expiries, if_neg (Nat.not_lt.2 h)]

/-- `process` in every operating state: the model's drain computes the closed form of 40_framework.md R106. -/
theorem processChannel_eq {ω : Type} (expire : ω → ω) (level : ω → Nat) (d : Nat) (c : Channel) (w : ω) :
    processChannel expire level d c w =
      { chan := afterProcess d c
        wave := expireTimes expire (expiryCount d c) w
        records := expiryRecords expire level c.ch (c.elapsedTime + c.divider) (c.frequency.toNat + 1)
          (expiryCount d c) w } := by
  by_cases ha : c.operating = .armed
  · by_cases h : c.divider ≤ d
    · rw [processChannel_of_ge expire level d c w ha h, afterProcess_of_ge ha h, expiryCount_of_ge ha h]
    · have hlt : d < c.divider := Nat.lt_of_not_le h
      rw [processChannel_of_lt expire level d c w ha hlt, afterProcess_of_lt ha hlt, expiryCount_of_lt hlt]
      rfl
  · rw [processChannel_of_not_armed expire level d c w ha, afterProcess_of_not_armed ha, expiryCount_of_not_armed ha]
    rfl

/-- A pass after the first consumes at least 2 cycles (40_framework.md R108). -/
theorem expiryCount_le (d : Nat) (c : Channel) : expiryCount d c ≤ 1 + d / 2 := by
  unfold expiryCount
  split
  · rename_i ha
    unfold expiries
    split
    · exact Nat.zero_le _
    · have : (d - c.divider) / (c.frequency.toNat + 1) ≤ d / 2 :=
        Nat.div_le_div (Nat.sub_le d c.divider) (Nat.succ_le_succ ha.2) (by decide)
      omega
  · exact Nat.zero_le _

/-- The expiries of `process(d)` lie within its `d` cycles. -/
theorem expiryTime_le {d : Nat} {c : Channel} {j : Nat} (h : j < expiryCount d c) :
    expiryTime c j ≤ c.elapsedTime + d := by
  by_cases ha : c.operating = .armed
  · by_cases hd : c.divider ≤ d
    · rw [expiryCount_of_ge ha hd] at h
      have hj : j * (c.frequency.toNat + 1) ≤ d - c.divider :=
        (Nat.mul_le_mul_right _ (by omega)).trans (Nat.div_mul_le_self _ _)
      unfold expiryTime
      omega
    · rw [expiryCount_of_lt (Nat.lt_of_not_le hd)] at h
      exact absurd h (Nat.not_lt_zero j)
  · rw [expiryCount_of_not_armed ha] at h
    exact absurd h (Nat.not_lt_zero j)

/-! ### The oscillators -/

@[simp] theorem oscProcess_records (d : Nat) (o : OscId) (s : State) : (oscProcess d o s).2 = drainedRecords d o s := by
  cases o <;> rfl

theorem drainedChan_eq_afterProcess (d : Nat) (o : OscId) (s : State) :
    drainedChan d o s = afterProcess d (s.channel o) := by
  cases o with
  | pulse k => exact congrArg Drained.chan (processChannel_eq PulseWave.expire PulseWave.level d _ _)
  | saw => exact congrArg Drained.chan (processChannel_eq SawWave.expire SawWave.level d _ _)

theorem channel_loneProcess_eq (d : Nat) (o : OscId) (s : State) :
    (lone (oscProcess d) o s).channel o = afterProcess d (s.channel o) :=
  (channel_loneProcess d o s).trans (drainedChan_eq_afterProcess d o s)

/-- The records of an oscillator's `process(d)`, whichever its type: one for each expiry, at the expiry's time, with a level in the
oscillator's range. -/
theorem drainedRecords_eq (d : Nat) (o : OscId) (s : State) :
    ∃ level : Nat → Nat, (∀ j, level j ≤ topLevel o) ∧
      drainedRecords d o s = (List.range (expiryCount d (s.channel o))).map fun j =>
        .level (s.channel o).ch (level j) (expiryTime (s.channel o) j) := by
  cases o with
  | pulse k =>
    exact ⟨_, fun j => level_pulse_le (expireTimes PulseWave.expire (j + 1) (s.pulse k).toPulseWave),
      congrArg Drained.records (processChannel_eq PulseWave.expire PulseWave.level d _ _)⟩
  | saw =>
    exact ⟨_, fun j => level_saw_le (expireTimes SawWave.expire (j + 1) s.ps.saw.toSawWave),
      congrArg Drained.records (processChannel_eq SawWave.expire SawWave.level d _ _)⟩

theorem length_drainedRecords (d : Nat) (o : OscId) (s : State) :
    (drainedRecords d o s).length = expiryCount d (s.channel o) := by
  obtain ⟨level, -, h⟩ := drainedRecords_eq d o s
  simp [h]

theorem map_time_drainedRecords (d : Nat) (o : OscId) (s : State) :
    (drainedRecords d o s).map Record.time =
      (List.range (expiryCount d (s.channel o))).map (expiryTime (s.channel o)) := by
  obtain ⟨level, -, h⟩ := drainedRecords_eq d o s
  rw [h, List.map_map]
  rfl

theorem mem_drainedRecords {d : Nat} {o : OscId} {s : State} {r : Record} (hr : r ∈ drainedRecords d o s) :
    ∃ l j, l ≤ topLevel o ∧ j < expiryCount d (s.channel o) ∧
      r = .level (s.channel o).ch l (expiryTime (s.channel o) j) := by
  obtain ⟨level, hlevel, h⟩ := drainedRecords_eq d o s
  rw [h] at hr
  obtain ⟨j, hj, rfl⟩ := List.mem_map.1 hr
  exact ⟨level j, j, hlevel j, List.mem_range.1 hj, rfl⟩

theorem channel_of_mem_drainedRecords {d : Nat} {o : OscId} {s : State} {r : Record} (hr : r ∈ drainedRecords d o s) :
    r.channel = (s.channel o).ch := by
  obtain ⟨l, j, -, -, rfl⟩ := mem_drainedRecords hr
  rfl

/-- Without an expiry an oscillator's own fields and the sink stay as they are. -/
theorem loneProcess_of_no_expiry {d : Nat} {o : OscId} {s : State} (h : expiryCount d (s.channel o) = 0) :
    WaveKept o s (lone (oscProcess d) o s) ∧ (lone (oscProcess d) o s).sink = s.sink := by
  have hnil : drainedRecords d o s = [] := List.eq_nil_of_length_eq_zero ((length_drainedRecords d o s).trans h)
  have hsend : lone (oscProcess d) o s = (oscProcess d o s).1 := send_of_all_isEmpty _ (by simp [hnil])
  rw [hsend]
  cases o with
  | pulse k =>
    refine ⟨?_, State.setPulse_sink s k _⟩
    have hwave := congrArg Drained.wave (processChannel_eq PulseWave.expire PulseWave.level d (s.pulse k).toChannel
      (s.pulse k).toPulseWave)
    rw [show expiryCount d (s.pulse k).toChannel = 0 from h] at hwave
    exact (congrArg PulseOscillator.toPulseWave (State.pulse_setPulse_same s k _)).trans hwave
  | saw =>
    refine ⟨?_, rfl⟩
    have hwave := congrArg Drained.wave (processChannel_eq SawWave.expire SawWave.level d s.ps.saw.toChannel
      s.ps.saw.toSawWave)
    rwa [show expiryCount d s.ps.saw.toChannel = 0 from h] at hwave

/-! ### The statements -/

/-- Settles O14: not Armed, there is no expiry. -/
theorem processGuard : Obligations.ProcessGuard := by
  intro o d s h
  have hna : (s.channel o).operating ≠ .armed := (not_armed_iff _).2 h
  obtain ⟨hwave, hsink⟩ := loneProcess_of_no_expiry (expiryCount_of_not_armed hna d)
  obtain ⟨honly, hdraws⟩ := onlyOscillators_loneProcess d o s
  refine ⟨_, exec_oscProcessInstr o d s, ?_, hwave, hsink, honly, hdraws⟩
  rw [channel_loneProcess_eq, afterProcess_of_not_armed hna]
  rfl

/-- Settles O15: the two clauses are the two cases of the closed form on an Armed oscillator. -/
theorem expiryCountAndTimes : Obligations.ExpiryCountAndTimes := by
  intro o d s h
  have ha := (armed_iff s o).1 h
  obtain ⟨honly, hdraws⟩ := onlyOscillators_loneProcess d o s
  refine ⟨_, exec_oscProcessInstr o d s, honly, hdraws, fun hlt => ⟨?_, ?_⟩, fun hge => ⟨?_, drainedRecords d o s,
    channelTrace_loneProcess d o s, fun r hr => ?_, ?_⟩⟩
  · rw [channel_loneProcess_eq, afterProcess_of_lt ha hlt]
    rfl
  · exact loneProcess_of_no_expiry (expiryCount_of_lt hlt)
  · rw [channel_loneProcess_eq, afterProcess_of_ge ha hge]
  · obtain ⟨l, j, -, -, rfl⟩ := mem_drainedRecords hr
    exact ⟨l, rfl⟩
  · rw [map_time_drainedRecords, expiryCount_of_ge ha hge]
    rfl

/-- Settles O21: one record for each expiry. -/
theorem passBound : Obligations.PassBound := by
  intro o d s
  refine ⟨_, drainedRecords d o s, exec_oscProcessInstr o d s, channelTrace_loneProcess d o s,
    fun _ => channel_of_mem_drainedRecords, ?_⟩
  rw [length_drainedRecords]
  exact expiryCount_le d _

/-- Settles O22: a reload leaves `frequency + 1` less a remainder below it. -/
theorem dividerAfterProcess : Obligations.DividerAfterProcess := by
  intro o d s h
  have ha := (armed_iff s o).1 h
  refine ⟨_, exec_oscProcessInstr o d s, ?_⟩
  rw [channel_loneProcess_eq]
  rcases Nat.lt_or_ge d (s.channel o).divider with hlt | hge
  · rw [afterProcess_of_lt ha hlt]
    refine ⟨Nat.sub_pos_of_lt hlt, fun hle => (Nat.sub_le _ d).trans ?_, fun _ => rfl⟩
    exact hle.resolve_left (Nat.not_le.2 hlt)
  · rw [afterProcess_of_ge ha hge]
    have hmod := Nat.mod_lt (d - (s.channel o).divider) (Nat.succ_pos (s.channel o).frequency.toNat)
    simp only [Nat.succ_eq_add_one] at hmod ⊢
    omega

/-- Settles O23: with divider 0 the first expiry is at time 0 of the slice, and a slice of 0 cycles holds no other. -/
theorem firstExpiryAtOnce : Obligations.FirstExpiryAtOnce := by
  intro o d s h hzero
  have ha := (armed_iff s o).1 h
  have hge : (s.channel o).divider ≤ d := hzero ▸ Nat.zero_le d
  obtain ⟨level, -, hrecords⟩ := drainedRecords_eq d o s
  rw [expiryCount_of_ge ha hge, Nat.add_comm 1, List.range_succ_eq_map, List.map_cons] at hrecords
  have htime : expiryTime (s.channel o) 0 = (s.channel o).elapsedTime := by simp [expiryTime, hzero]
  rw [htime] at hrecords
  refine ⟨_, level 0, (drainedRecords d o s).tail, exec_oscProcessInstr o d s, ?_, fun hd => ⟨?_, ?_⟩⟩
  · rw [Gained, channelTrace_loneProcess, ofChannel_eq_self fun _ => channel_of_mem_drainedRecords, hrecords,
      List.tail_cons]
  · rw [hrecords]
    simp [hd]
  · rw [channel_loneProcess_eq, afterProcess_of_ge ha hge]
    simp [hd]

end Sys2Proof.Proofs.Process
end

/-! ## Batching invariance of an oscillator (40_framework.md R110) -/

section
namespace Sys2Proof.Proofs.Batching

open Sys2Proof.Machine Sys2Proof.Proofs.Process

/-! ### Cutting a slice in two -/

/-- Cutting a division at a remainder `x % q`: either the rest stays below `q`, or it begins a quotient of its own. -/
theorem add_div_mod_split {q : Nat} (hq : 0 < q) (x b : Nat) :
    (b < q - x % q ∧ (x + b) / q = x / q ∧ (x + b) % q = x % q + b) ∨
      (q - x % q ≤ b ∧ (x + b) / q = x / q + (1 + (b - (q - x % q)) / q) ∧ (x + b) % q = (b - (q - x % q)) % q) := by
  have hmod := Nat.mod_lt x hq
  have hdiv := Nat.div_add_mod x q
  rcases Nat.lt_or_ge b (q - x % q) with hlt | hge
  · have hsum : x + b = x % q + b + q * (x / q) := by omega
    refine .inl ⟨hlt, ?_, ?_⟩
    · rw [hsum, Nat.add_mul_div_left _ _ hq, Nat.div_eq_of_lt (by omega), Nat.zero_add]
    · rw [hsum, Nat.add_mul_mod_self_left, Nat.mod_eq_of_lt (by omega)]
  · have hsum : x + b = b - (q - x % q) + q * (x / q + 1) := by
      rw [Nat.mul_add]
      omega
    refine .inr ⟨hge, ?_, ?_⟩
    · rw [hsum, Nat.add_mul_div_left _ _ hq]
      omega
    · rw [hsum, Nat.add_mul_mod_self_left]

/-- A slice of `a + b` cycles leaves the common fields and makes the expiries that its two parts do, one after the other. -/
def SliceCuts (a b : Nat) (c : Channel) : Prop :=
  afterProcess b (afterProcess a c) = afterProcess (a + b) c ∧
    expiryCount (a + b) c = expiryCount a c + expiryCount b (afterProcess a c)

theorem sliceCuts_of_not_armed {c : Channel} (h : c.operating ≠ .armed) (a b : Nat) : SliceCuts a b c := by
  have h' : (afterProcess a c).operating ≠ .armed := h
  rw [SliceCuts, expiryCount_of_not_armed h, expiryCount_of_not_armed h, expiryCount_of_not_armed h',
    afterProcess_of_not_armed h', afterProcess_of_not_armed h, afterProcess_of_not_armed h]
  simp [Channel.wait, Nat.add_assoc]

/-- No expiry in the first part: the second finds what is left of the countdown. -/
theorem sliceCuts_of_lt {c : Channel} (ha : c.operating = .armed) {a : Nat} (hlt : a < c.divider) (b : Nat) :
    SliceCuts a b c := by
  have ha' : (afterProcess a c).operating = .armed := ha
  have hdivider : (afterProcess a c).divider = c.divider - a := by rw [afterProcess_of_lt ha hlt]; rfl
  rcases Nat.lt_or_ge b (c.divider - a) with hb | hb
  · have hsum : a + b < c.divider := by omega
    rw [← hdivider] at hb
    rw [SliceCuts, expiryCount_of_lt hlt, expiryCount_of_lt hb, expiryCount_of_lt hsum, afterProcess_of_lt ha' hb,
      afterProcess_of_lt ha hlt, afterProcess_of_lt ha hsum]
    simp [Channel.settle, Nat.sub_sub, Nat.add_assoc]
  · have hsum : c.divider ≤ a + b := by omega
    have hrest : b - (c.divider - a) = a + b - c.divider := by omega
    rw [← hdivider] at hb
    rw [SliceCuts, expiryCount_of_lt hlt, expiryCount_of_ge ha' hb, expiryCount_of_ge ha hsum, afterProcess_of_ge ha' hb,
      afterProcess_of_lt ha hlt, afterProcess_of_ge ha hsum]
    simp [Channel.settle, hrest, Nat.add_assoc]

/-- The first part ends inside a countdown that an expiry of its own began. -/
theorem sliceCuts_of_ge {c : Channel} (ha : c.operating = .armed) {a : Nat} (hge : c.divider ≤ a) (b : Nat) :
    SliceCuts a b c := by
  have ha' : (afterProcess a c).operating = .armed := ha
  have hdivider : (afterProcess a c).divider =
      c.frequency.toNat + 1 - (a - c.divider) % (c.frequency.toNat + 1) := by rw [afterProcess_of_ge ha hge]
  have hsum : c.divider ≤ a + b := by omega
  have hrest : a + b - c.divider = a - c.divider + b := by omega
  rcases add_div_mod_split (Nat.succ_pos c.frequency.toNat) (a - c.divider) b with ⟨hb, hdiv, hmod⟩ | ⟨hb, hdiv, hmod⟩ <;>
    rw [← hdivider] at hb
  · rw [SliceCuts, expiryCount_of_ge ha hge, expiryCount_of_lt hb, expiryCount_of_ge ha hsum, afterProcess_of_lt ha' hb,
      afterProcess_of_ge ha hge, afterProcess_of_ge ha hsum, hrest]
    simp [Channel.settle, Nat.add_assoc, hdiv, hmod, Nat.sub_sub]
  · rw [SliceCuts, expiryCount_of_ge ha hge, expiryCount_of_ge ha' hb, expiryCount_of_ge ha hsum,
      afterProcess_of_ge ha' hb, afterProcess_of_ge ha hge, afterProcess_of_ge ha hsum, hrest]
    simp [Nat.add_assoc, hdiv, hmod]

theorem sliceCuts (a b : Nat) (c : Channel) : SliceCuts a b c := by
  by_cases ha : c.operating = .armed
  · rcases Nat.lt_or_ge a c.divider with hlt | hge
    · exact sliceCuts_of_lt ha hlt b
    · exact sliceCuts_of_ge ha hge b
  · exact sliceCuts_of_not_armed ha a b

/-- Where the second part of a slice takes up the count, its first expiry comes where the whole slice has it. -/
theorem expiryTime_afterProcess {a : Nat} {c : Channel} (ha : c.operating = .armed) :
    (afterProcess a c).elapsedTime + (afterProcess a c).divider = expiryTime c (expiryCount a c) := by
  rcases Nat.lt_or_ge a c.divider with hlt | hge
  · rw [afterProcess_of_lt ha hlt, expiryCount_of_lt hlt]
    simp only [Channel.settle, expiryTime]
    omega
  · rw [afterProcess_of_ge ha hge, expiryCount_of_ge ha hge]
    have hmod := Nat.mod_lt (a - c.divider) (Nat.succ_pos c.frequency.toNat)
    have hdiv := Nat.div_add_mod' (a - c.divider) (c.frequency.toNat + 1)
    simp only [expiryTime, Nat.succ_eq_add_one, Nat.add_mul, Nat.one_mul] at hmod hdiv ⊢
    omega

/-- The records of `m + n` expiries are those of the first `m`, then those of the next `n`. -/
theorem expiryRecords_add {ω : Type} (expire : ω → ω) (level : ω → Nat) (ch first q m n : Nat) (w : ω) :
    expiryRecords expire level ch first q (m + n) w =
      expiryRecords expire level ch first q m w ++
        expiryRecords expire level ch (first + m * q) q n (expireTimes expire m w) := by
  simp only [expiryRecords, List.range_add, List.map_append, List.map_map]
  congr 1
  apply List.map_congr_left
  intro k _
  simp only [Function.comp_apply, Nat.add_mul, Nat.add_assoc, expireTimes_add]

/-- Batching invariance of the drain (40_framework.md R110): a slice cut in two leaves the same fields and emits the same records. -/
theorem processChannel_add {ω : Type} (expire : ω → ω) (level : ω → Nat) (a b : Nat) (c : Channel) (w : ω) :
    ∃ m r, processChannel expire level a c w = m ∧ processChannel expire level b m.chan m.wave = r ∧
      processChannel expire level (a + b) c w = { r with records := m.records ++ r.records } := by
  obtain ⟨hchan, hcount⟩ := sliceCuts a b c
  refine ⟨_, _, rfl, rfl, ?_⟩
  simp only [processChannel_eq, hchan, hcount, expireTimes_add, expiryRecords_add]
  by_cases ha : c.operating = .armed
  · rw [expiryTime_afterProcess ha]
    rfl
  · have ha' : (afterProcess a c).operating ≠ .armed := ha
    rw [expiryCount_of_not_armed ha']
    rfl

/-! ### The oscillators -/

/-- What `process(d)` makes of an oscillator does not depend on the rest of the state. -/
theorem oscKept_loneProcess_congr {o : OscId} {s t : State} (h : OscKept o s t) (d : Nat) :
    OscKept o (lone (oscProcess d) o s) (lone (oscProcess d) o t) := by
  cases o with
  | pulse k =>
    simp only [OscKept, pulse_loneProcess]
    rw [show t.pulse k = s.pulse k from h]
  | saw =>
    simp only [OscKept, saw_loneProcess]
    rw [show t.ps.saw = s.ps.saw from h]

theorem drainedRecords_congr {o : OscId} {s t : State} (h : OscKept o s t) (d : Nat) :
    drainedRecords d o t = drainedRecords d o s := by
  cases o with
  | pulse k => simp only [drainedRecords, show t.pulse k = s.pulse k from h]
  | saw => simp only [drainedRecords, show t.ps.saw = s.ps.saw from h]

theorem oscKept_loneProcess_add (a b : Nat) (o : OscId) (s : State) :
    OscKept o (lone (oscProcess b) o (lone (oscProcess a) o s)) (lone (oscProcess (a + b)) o s) := by
  cases o with
  | pulse k =>
    obtain ⟨m, r, rfl, rfl, h⟩ :=
      processChannel_add PulseWave.expire PulseWave.level a b (s.pulse k).toChannel (s.pulse k).toPulseWave
    simp only [OscKept, pulse_loneProcess, pulseDrained, h]
    rfl
  | saw =>
    obtain ⟨m, r, rfl, rfl, h⟩ :=
      processChannel_add SawWave.expire SawWave.level a b s.ps.saw.toChannel s.ps.saw.toSawWave
    simp only [OscKept, saw_loneProcess, sawDrained, h]
    rfl

theorem drainedRecords_add (a b : Nat) (o : OscId) (s : State) :
    drainedRecords (a + b) o s = drainedRecords a o s ++ drainedRecords b o (lone (oscProcess a) o s) := by
  cases o with
  | pulse k =>
    obtain ⟨m, r, rfl, rfl, h⟩ :=
      processChannel_add PulseWave.expire PulseWave.level a b (s.pulse k).toChannel (s.pulse k).toPulseWave
    simp only [drainedRecords, pulse_loneProcess, pulseDrained, h]
    rfl
  | saw =>
    obtain ⟨m, r, rfl, rfl, h⟩ :=
      processChannel_add SawWave.expire SawWave.level a b s.ps.saw.toChannel s.ps.saw.toSawWave
    simp only [drainedRecords, saw_loneProcess, sawDrained, h]
    rfl

/-- Settles O19: the drain's batching invariance, on the oscillator and on the records sent. -/
theorem batchingInvariance : Obligations.BatchingInvariance := by
  intro o a b s
  refine ⟨_, _, _, exec_oscProcessInstr o a s, exec_oscProcessInstr o b _, exec_oscProcessInstr o (a + b) s,
    oscKept_loneProcess_add a b o s, fun ch => ?_⟩
  rw [channelTrace_loneProcess, channelTrace_loneProcess, channelTrace_loneProcess, drainedRecords_add,
    ofChannel_append, List.append_assoc]

end Sys2Proof.Proofs.Batching
end

/-! ## The fan-out and its orders (40_framework.md R124, 43_pulsesaw_chip.md R193) -/

section
namespace Sys2Proof.Proofs.FanOut

open Sys2Proof.Machine Sys2Proof.Proofs.Edits Sys2Proof.Proofs.Times

/-! ### Calls on one oscillator are independent -/

/-- The call that replaces one oscillator by what `p` or `w` makes of it under the parameters, with the records `p` or `w` gives. -/
def ownCall (p : Config → PulseOscillator → PulseOscillator × List Record)
    (w : Config → SawtoothOscillator → SawtoothOscillator × List Record) : OscId → State → State × List Record
  | .pulse k, s => (s.setPulse k (p s.cfg (s.pulse k)).1, (p s.cfg (s.pulse k)).2)
  | .saw, s => (s.setSaw (w s.cfg s.ps.saw).1, (w s.cfg s.ps.saw).2)

/-- A call at the oscillator interface reads and writes nothing of the chips but its own oscillator. -/
def OwnCall (f : OscId → State → State × List Record) : Prop :=
  ∃ p w, f = ownCall p w

theorem ownCall_oscProcess (d : Nat) : OwnCall (oscProcess d) := by
  refine ⟨fun _ p => ((pulseDrained d p).toPulse, (pulseDrained d p).records),
    fun _ w => ((sawDrained d w).toSaw, (sawDrained d w).records), ?_⟩
  funext o s
  cases o <;> rfl

theorem ownCall_oscReset : OwnCall oscReset := by
  refine ⟨fun _ p => (.initial p.ch, []), fun _ w => (.initial w.ch, []), ?_⟩
  funext o s
  cases o <;> rfl

theorem ownCall_oscEndFrame : OwnCall oscEndFrame := by
  refine ⟨fun cfg p => ({ p with toChannel := p.toChannel.endFrame cfg.timeBase }, [.frameEnd p.ch p.elapsedTime]),
    fun cfg w => ({ w with toChannel := w.toChannel.endFrame cfg.timeBase }, [.frameEnd w.ch w.elapsedTime]), ?_⟩
  funext o s
  cases o <;> rfl

theorem setPulse_comm {k k' : PulseId} (h : k ≠ k') (p p' : PulseOscillator) (s : State) :
    (s.setPulse k' p').setPulse k p = (s.setPulse k p).setPulse k' p' := by
  cases k <;> cases k' <;> first
    | rfl
    | exact absurd rfl h

theorem setPulse_setSaw_comm (k : PulseId) (p : PulseOscillator) (w : SawtoothOscillator) (s : State) :
    (s.setSaw w).setPulse k p = (s.setPulse k p).setSaw w := by
  cases k <;> rfl

section
variable {f : OscId → State → State × List Record}

theorem OwnCall.sink (hf : OwnCall f) (o : OscId) (s : State) : (f o s).1.sink = s.sink := by
  obtain ⟨p, w, rfl⟩ := hf
  cases o with
  | pulse k => exact State.setPulse_sink s k _
  | saw => rfl

/-- A call leaves every other oscillator as it is. -/
theorem OwnCall.channel_of_ne (hf : OwnCall f) {o o' : OscId} (h : o ≠ o') (s : State) :
    (f o' s).1.channel o = s.channel o := by
  obtain ⟨p, w, rfl⟩ := hf
  cases o' with
  | pulse k => exact channel_setPulse_of_ne s k _ h
  | saw => exact channel_setSaw_of_ne s _ h

/-- What a call on another oscillator did before does not show in an oscillator's records. -/
theorem OwnCall.records_of_ne (hf : OwnCall f) {o o' : OscId} (h : o ≠ o') (s : State) :
    (f o (f o' s).1).2 = (f o s).2 := by
  obtain ⟨p, w, rfl⟩ := hf
  rcases o with k | _ <;> rcases o' with k' | _
  · simp only [ownCall, State.setPulse_cfg, State.pulse_setPulse_of_ne s k' _ k fun hk => h (hk ▸ rfl)]
  · simp only [ownCall, State.setSaw_cfg, State.setSaw_pulse]
  · simp only [ownCall, State.setPulse_cfg, State.setPulse_saw]
  · exact absurd rfl h

/-- Calls on two oscillators leave the same state in either order. -/
theorem OwnCall.comm (hf : OwnCall f) (o o' : OscId) (s : State) :
    (f o (f o' s).1).1 = (f o' (f o s).1).1 := by
  by_cases h : o = o'
  · rw [h]
  obtain ⟨p, w, rfl⟩ := hf
  rcases o with k | _ <;> rcases o' with k' | _
  · have hk : k ≠ k' := fun hk => h (hk ▸ rfl)
    simp only [ownCall, State.setPulse_cfg, State.pulse_setPulse_of_ne s k' _ k hk,
      State.pulse_setPulse_of_ne s k _ k' hk.symm, setPulse_comm hk]
  · simp only [ownCall, State.setSaw_cfg, State.setSaw_pulse, State.setPulse_cfg, State.setPulse_saw,
      setPulse_setSaw_comm]
  · simp only [ownCall, State.setSaw_cfg, State.setSaw_pulse, State.setPulse_cfg, State.setPulse_saw,
      setPulse_setSaw_comm]
  · exact absurd rfl h

/-! ### The fan-out over a list of oscillators -/

theorem fanOut_state_eq_foldl (l : List OscId) (s : State) : (fanOut f l s).1 = l.foldl (fun t o => (f o t).1) s := by
  induction l generalizing s with
  | nil => rfl
  | cons o l ih => exact ih _

theorem OwnCall.fanOut_state_perm (hf : OwnCall f) {l l' : List OscId} (h : l.Perm l') (s : State) :
    (fanOut f l s).1 = (fanOut f l' s).1 := by
  rw [fanOut_state_eq_foldl, fanOut_state_eq_foldl]
  exact h.foldl_eq' (fun o _ o' _ t => hf.comm o' o t) s

theorem OwnCall.fanOut_records (hf : OwnCall f) {l : List OscId} (hl : l.Nodup) (s : State) :
    (fanOut f l s).2 = l.map fun o => (f o s).2 := by
  induction l generalizing s with
  | nil => rfl
  | cons o l ih =>
    obtain ⟨ho, hl⟩ := List.nodup_cons.1 hl
    simp only [fanOut, ih hl, List.map_cons, List.cons.injEq, true_and]
    exact List.map_congr_left fun o' ho' => hf.records_of_ne (fun e : o' = o => ho (e ▸ ho')) s

theorem OwnCall.fanOut_sink (hf : OwnCall f) (l : List OscId) (s : State) : (fanOut f l s).1.sink = s.sink := by
  induction l generalizing s with
  | nil => rfl
  | cons o l ih => exact (ih _).trans (hf.sink o s)

theorem OwnCall.channel_fanOut_of_not_mem (hf : OwnCall f) {l : List OscId} {o : OscId} (h : o ∉ l) (s : State) :
    (fanOut f l s).1.channel o = s.channel o := by
  induction l generalizing s with
  | nil => rfl
  | cons o' l ih =>
    exact (ih (List.not_mem_of_not_mem_cons h) _).trans (hf.channel_of_ne (List.ne_of_not_mem_cons h) s)

/-- Each oscillator of a fan-out is as the call on it alone leaves it. -/
theorem OwnCall.channel_fanOut_of_mem (hf : OwnCall f) {l : List OscId} (hl : l.Nodup) {o : OscId} (h : o ∈ l)
    (s : State) : (fanOut f l s).1.channel o = (f o s).1.channel o := by
  have hfirst : (fanOut f l s).1 = (fanOut f (o :: l.erase o) s).1 := hf.fanOut_state_perm (List.perm_cons_erase h) s
  rw [hfirst]
  exact hf.channel_fanOut_of_not_mem hl.not_mem_erase _

end

theorem nodup_oscillators (c : Chip) : (oscillators c).Nodup := by
  cases c <;> decide

/-- Settles O27: each of the three calls acts on its own oscillator alone. -/
theorem fanOutOrderIrrelevant : Obligations.FanOutOrderIrrelevant := by
  intro c order s hperm f hf
  have hown : OwnCall f := by
    rcases hf with rfl | rfl | ⟨d, rfl⟩
    · exact ownCall_oscReset
    · exact ownCall_oscEndFrame
    · exact ownCall_oscProcess d
  exact ⟨hown.fanOut_state_perm hperm s, hown.fanOut_records (hperm.nodup_iff.2 (nodup_oscillators c)) s⟩

/-! ### The codes of the orders -/

theorem perm_insertAt {α : Type} (n : Nat) (x : α) (l : List α) : (insertAt n x l).Perm (x :: l) := by
  have h : (l.take n ++ x :: l.drop n).Perm (x :: (l.take n ++ l.drop n)) := List.perm_middle
  rwa [List.take_append_drop] at h

theorem perm_arrange {α : Type} (code : Nat) (l : List α) : (arrange code l).Perm l := by
  induction l generalizing code with
  | nil => rfl
  | cons x l ih => exact (perm_insertAt _ x _).trans ((ih _).cons x)

/-- The code of an order: the place of the first element, and above it the code of the order of the others. -/
theorem exists_arrange_eq {α : Type} {l l' : List α} (h : l'.Perm l) : ∃ code, arrange code l = l' := by
  induction l generalizing l' with
  | nil => exact ⟨0, h.eq_nil.symm⟩
  | cons x l ih =>
    obtain ⟨before, after, rfl⟩ := List.append_of_mem (h.mem_iff.2 List.mem_cons_self)
    have hrest : (before ++ after).Perm l := (List.perm_middle.symm.trans h).cons_inv
    obtain ⟨code, hcode⟩ := ih hrest
    have hplace : before.length < l.length + 1 := by
      have := hrest.length_eq
      rw [List.length_append] at this
      omega
    refine ⟨before.length + (l.length + 1) * code, ?_⟩
    rw [arrange, Nat.add_mul_mod_self_left, Nat.mod_eq_of_lt hplace, Nat.add_mul_div_left _ _ (Nat.succ_pos _),
      Nat.div_eq_of_lt hplace, Nat.zero_add, hcode, insertAt, List.take_left, List.drop_left]

/-- Settles O28. -/
theorem fanoutCodesAreAllOrders : Obligations.FanoutCodesAreAllOrders :=
  fun l => ⟨fun code => perm_arrange code l, fun _ h => exists_arrange_eq h⟩

/-! ### One channel's records among the blocks of a batch -/

theorem ofChannel_flatten (ch : Nat) (l : List (List Record)) : ofChannel ch l.flatten = (l.map (ofChannel ch)).flatten :=
  List.filter_flatten

/-- Of two blocks with records of different channels, at most one has records of a given channel. -/
theorem ofChannel_eq_nil_or {x y : List Record} (h : ∀ r ∈ x, ∀ r' ∈ y, r.channel ≠ r'.channel) (ch : Nat) :
    ofChannel ch x = [] ∨ ofChannel ch y = [] := by
  by_cases hx : ∃ r ∈ x, r.channel = ch
  · obtain ⟨r, hr, rfl⟩ := hx
    exact .inr (ofChannel_eq_nil fun r' hr' => (h r hr r' hr').symm)
  · exact .inl (ofChannel_eq_nil fun r hr e => hx ⟨r, hr, e⟩)

/-- Where of any two lists one is empty, their order does not show in what they join to. -/
theorem flatten_perm {α : Type} {l l' : List (List α)} (h : l.Perm l')
    (hl : l.Pairwise fun x y => x = [] ∨ y = []) : l.flatten = l'.flatten := by
  induction h with
  | nil => rfl
  | cons x _ ih => rw [List.flatten_cons, List.flatten_cons, ih (List.pairwise_cons.1 hl).2]
  | swap x y l =>
    have hxy : y = [] ∨ x = [] := (List.pairwise_cons.1 hl).1 x List.mem_cons_self
    rcases hxy with rfl | rfl <;> rfl
  | trans h₁ _ ih₁ ih₂ => rw [ih₁ hl, ih₂ (hl.perm h₁ fun h => h.symm)]

/-- Whatever order a tidy batch's blocks come in, a channel's records are the same. -/
theorem ofChannel_records {b : Batch} (h : b.Tidy) (ch : Nat) : ofChannel ch b.records = ofChannel ch b.blocks.flatten := by
  rw [Batch.records, ofChannel_flatten, ofChannel_flatten]
  refine (flatten_perm ((perm_arrange _ b.blocks).symm.map _) ?_).symm
  exact List.pairwise_map.2 (h.imp fun hxy => ofChannel_eq_nil_or hxy ch)

/-- Settles O29, batch by batch. -/
theorem projectionIndependentOfDraw : Obligations.ProjectionIndependentOfDraw := by
  intro s hs ch
  have hbatch : s.sink.map (fun b => ofChannel ch b.records) = s.sink.map (fun b => ofChannel ch b.blocks.flatten) :=
    List.map_congr_left fun b hb => ofChannel_records (hs b hb) ch
  rw [State.eventTrace, State.channelTrace, List.flatMap_def, List.flatMap_def, ofChannel_flatten, List.map_map, ← hbatch]
  rfl

end Sys2Proof.Proofs.FanOut
end

/-! ## The channels of a call's blocks, and batching invariance of a chip (40_framework.md R110) -/

section
namespace Sys2Proof.Proofs.ChipBatching

open Sys2Proof.Machine Sys2Proof.Proofs.Edits Sys2Proof.Proofs.RegisterInvariants Sys2Proof.Proofs.Process
open Sys2Proof.Proofs.Batching Sys2Proof.Proofs.FanOut

/-! ### Channel identifiers -/

/-- Different oscillators have different channel identifiers (00_scope.md R7). -/
def DistinctChannels (s : State) : Prop :=
  Function.Injective fun o => (s.channel o).ch

theorem mem_allOscillators (o : OscId) : o ∈ oscillators .pulseSaw ++ oscillators .pulseMul := by
  rcases o with (_ | _ | _ | _) | _ <;> decide

theorem boundChannel_injective {cfg : Config} (h : validConfig cfg = true) : Function.Injective (boundChannel cfg) := by
  obtain ⟨-, -, -, -, -, -, hnodup⟩ := validConfig_facts h
  have hids : channelIds cfg = (oscillators .pulseSaw ++ oscillators .pulseMul).map (boundChannel cfg) := rfl
  rw [hids] at hnodup
  exact fun o o' ho => List.inj_on_of_nodup_map hnodup (mem_allOscillators o) (mem_allOscillators o') ho

theorem distinctChannels_of_invariant {s : State} (h : ChannelsInvariant s) : DistinctChannels s := by
  obtain ⟨hvalid, hbound⟩ := h
  intro o o' ho
  simp only [hbound] at ho
  exact boundChannel_injective hvalid ho

theorem ch_of_edited {s t : State} (h : Edited s t) (o : OscId) : (t.channel o).ch = (s.channel o).ch :=
  keeps_of_chain (ch_edit (s.channel o).ch) (h.channel o) rfl

theorem distinctChannels_of_edited {s t : State} (h : Edited s t) (hs : DistinctChannels s) : DistinctChannels t := by
  intro o o' ho
  simp only [ch_of_edited h] at ho
  exact hs ho

/-! ### The blocks of one call -/

/-- The listed oscillators' records carry their own channels. -/
def OwnBlocks (s : State) (l : List OscId) (recs : OscId → List Record) : Prop :=
  ∀ o ∈ l, ∀ r ∈ recs o, r.channel = (s.channel o).ch

/-- Joined, the blocks of different oscillators still show each oscillator's channel its own records alone. -/
theorem ofChannel_flatMap_of_mem {s : State} (hs : DistinctChannels s) {l : List OscId} {recs : OscId → List Record}
    (hown : OwnBlocks s l recs) (hl : l.Nodup) {o : OscId} (ho : o ∈ l) :
    ofChannel (s.channel o).ch (l.flatMap recs) = recs o := by
  induction l with
  | nil => exact absurd ho List.not_mem_nil
  | cons o' l ih =>
    obtain ⟨ho', hl⟩ := List.nodup_cons.1 hl
    have hrest : OwnBlocks s l recs := fun x hx => hown x (List.mem_cons_of_mem _ hx)
    rw [List.flatMap_cons, ofChannel_append]
    rcases List.mem_cons.1 ho with rfl | hmem
    · have hnil : ofChannel (s.channel o).ch (l.flatMap recs) = [] := by
        refine ofChannel_eq_nil fun r hr e => ?_
        obtain ⟨x, hx, hr⟩ := List.mem_flatMap.1 hr
        exact ho' (hs ((hrest x hx r hr).symm.trans e) ▸ hx)
      rw [hnil, List.append_nil, ofChannel_eq_self (hown o List.mem_cons_self)]
    · have hnil : ofChannel (s.channel o).ch (recs o') = [] := by
        refine ofChannel_eq_nil fun r hr e => ho' ?_
        exact hs ((hown o' List.mem_cons_self r hr).symm.trans e) ▸ hmem
      rw [hnil, List.nil_append, ih hrest hl hmem]

theorem ofChannel_flatMap_of_not {s : State} {l : List OscId} {recs : OscId → List Record} (hown : OwnBlocks s l recs)
    {ch : Nat} (hch : ∀ o ∈ l, (s.channel o).ch ≠ ch) : ofChannel ch (l.flatMap recs) = [] := by
  refine ofChannel_eq_nil fun r hr e => ?_
  obtain ⟨o, ho, hr⟩ := List.mem_flatMap.1 hr
  exact hch o ho ((hown o ho r hr).symm.trans e)

/-! ### The chip's `process` -/

theorem oscKept_trans {o : OscId} {s m t : State} (hsm : OscKept o s m) (hmt : OscKept o m t) : OscKept o s t := by
  cases o with
  | pulse k => exact Eq.trans hmt hsm
  | saw => exact Eq.trans hmt hsm

theorem oscKept_symm {o : OscId} {s t : State} (h : OscKept o s t) : OscKept o t s := by
  cases o with
  | pulse k => exact Eq.symm h
  | saw => exact Eq.symm h

theorem oscKept_chipProcess_add (c : Chip) (a b : Nat) (s : State) (o : OscId) :
    OscKept o (chipProcess c b (chipProcess c a s)) (chipProcess c (a + b) s) := by
  by_cases ho : o ∈ oscillators c
  · have hsecond := oscKept_trans (oscKept_loneProcess_congr (oscKept_chipProcess (d := a) s ho) b)
      (oscKept_chipProcess (d := b) (chipProcess c a s) ho)
    exact oscKept_trans (oscKept_symm hsecond)
      (oscKept_trans (oscKept_loneProcess_add a b o s) (oscKept_chipProcess s ho))
  · have hparts := oscKept_trans (othersKept_chipProcess a c s o ho) (othersKept_chipProcess b c _ o ho)
    exact oscKept_trans (oscKept_symm hparts) (othersKept_chipProcess (a + b) c s o ho)

theorem ownBlocks_drainedRecords (d : Nat) (l : List OscId) (s : State) :
    OwnBlocks s l fun o => drainedRecords d o s :=
  fun _ _ _ => channel_of_mem_drainedRecords

/-- What the chip's `process(d)` adds to the trace of an oscillator of the chip. -/
theorem channelTrace_chipProcess_of_mem {s : State} (hs : DistinctChannels s) (d : Nat) {c : Chip} {o : OscId}
    (ho : o ∈ oscillators c) : (chipProcess c d s).channelTrace (s.channel o).ch =
      s.channelTrace (s.channel o).ch ++ drainedRecords d o s := by
  rw [channelTrace_chipProcess, ofChannel_flatMap_of_mem hs (ownBlocks_drainedRecords d _ s) (nodup_oscillators c) ho]

theorem channelTrace_chipProcess_of_not {s : State} (d : Nat) {c : Chip} {ch : Nat}
    (hch : ∀ o ∈ oscillators c, (s.channel o).ch ≠ ch) : (chipProcess c d s).channelTrace ch = s.channelTrace ch := by
  rw [channelTrace_chipProcess, ofChannel_flatMap_of_not (ownBlocks_drainedRecords d _ s) hch, List.append_nil]

theorem tracesKept_chipProcess_add {s : State} (hs : DistinctChannels s) (c : Chip) (a b : Nat) :
    TracesKept (chipProcess c b (chipProcess c a s)) (chipProcess c (a + b) s) := by
  have hkept := ch_of_edited (edited_chipProcess c a s)
  have hs' := distinctChannels_of_edited (edited_chipProcess c a s) hs
  intro ch
  by_cases hch : ∃ o ∈ oscillators c, (s.channel o).ch = ch
  · obtain ⟨o, ho, rfl⟩ := hch
    have hsecond := channelTrace_chipProcess_of_mem hs' b ho
    rw [hkept o, drainedRecords_congr (oscKept_chipProcess s ho), channelTrace_chipProcess_of_mem hs a ho] at hsecond
    rw [hsecond, channelTrace_chipProcess_of_mem hs (a + b) ho, drainedRecords_add, List.append_assoc]
  · have hch : ∀ o ∈ oscillators c, (s.channel o).ch ≠ ch := fun o ho e => hch ⟨o, ho, e⟩
    rw [channelTrace_chipProcess_of_not (a + b) hch,
      channelTrace_chipProcess_of_not b fun o ho => hkept o ▸ hch o ho, channelTrace_chipProcess_of_not a hch]

/-- Settles O20: each oscillator of the chip by its own batching invariance; each channel is one oscillator's, or none's. -/
theorem chipBatchingInvariance : Obligations.ChipBatchingInvariance := by
  intro c a b s hs
  exact ⟨_, _, _, exec_processInstr c a s, exec_processInstr c b _, exec_processInstr c (a + b) s,
    fun o _ => oscKept_chipProcess_add c a b s o, tracesKept_chipProcess_add (distinctChannels_of_invariant hs) c a b⟩

end Sys2Proof.Proofs.ChipBatching
end

/-! ## What a command sends to the sink (40_framework.md R111, R112, R124) -/

section
namespace Sys2Proof.Proofs.Emissions

open Sys2Proof.Machine Sys2Proof.Proofs.Commands Sys2Proof.Proofs.Edits Sys2Proof.Proofs.Times
open Sys2Proof.Proofs.FreqPseudo Sys2Proof.Proofs.Process Sys2Proof.Proofs.FanOut Sys2Proof.Proofs.ChipBatching

/-! ### Emissions: what each channel gains, and the batches' form -/

/-- From `s` to `t` each oscillator's channel gains the oscillator's records, their levels in range, and the batches stay tidy. -/
structure Emits (recs : OscId → List Record) (s t : State) : Prop where
  gained : ∀ o, Gained (s.channel o).ch (recs o) s t
  inRange : ∀ o, ∀ r ∈ recs o, LevelAtMost (topLevel o) r
  tidy : SinkInvariant s → SinkInvariant t

/-- Nothing is emitted. -/
abbrev noRecords : OscId → List Record := fun _ => []

/-- The records of the listed oscillators alone. -/
def onlyOf (l : List OscId) (recs : OscId → List Record) : OscId → List Record :=
  fun o => if o ∈ l then recs o else []

theorem onlyOf_of_mem {l : List OscId} {o : OscId} (h : o ∈ l) (recs : OscId → List Record) : onlyOf l recs o = recs o :=
  if_pos h

theorem onlyOf_of_not_mem {l : List OscId} {o : OscId} (h : o ∉ l) (recs : OscId → List Record) : onlyOf l recs o = [] :=
  if_neg h

/-- What is said of emissions depends on the later state's sink alone. -/
theorem Emits.of_sink_eq {recs : OscId → List Record} {s t t' : State} (h : Emits recs s t) (ht : t'.sink = t.sink) :
    Emits recs s t' where
  gained o := (channelTrace_congr ht _).trans (h.gained o)
  inRange := h.inRange
  tidy hs := by
    unfold SinkInvariant
    rw [ht]
    exact h.tidy hs

theorem Emits.refl (s : State) : Emits noRecords s s where
  gained _ := (List.append_nil _).symm
  inRange _ _ hr := absurd hr List.not_mem_nil
  tidy hs := hs

theorem Emits.trans {recs recs' : OscId → List Record} {s m t : State} (hsm : Emits recs s m) (hmt : Emits recs' m t)
    (hedited : Edited s m) : Emits (fun o => recs o ++ recs' o) s t where
  gained o := by
    have hlater := hmt.gained o
    rw [Gained, ch_of_edited hedited, hsm.gained o, List.append_assoc] at hlater
    exact hlater
  inRange o r hr := (List.mem_append.1 hr).elim (hsm.inRange o r) (hmt.inRange o r)
  tidy hs := hmt.tidy (hsm.tidy hs)

/-- Blocks of different oscillators make a tidy batch. -/
theorem tidy_of_ownBlocks {s : State} (hs : DistinctChannels s) {l : List OscId} {recs : OscId → List Record}
    (hown : OwnBlocks s l recs) (hl : l.Nodup) (command draw : Nat) :
    Batch.Tidy { command := command, draw := draw, blocks := l.map recs } := by
  refine List.pairwise_map.2 (hl.imp_of_mem fun {o o'} ho ho' hne r hr r' hr' e => hne (hs ?_))
  calc (s.channel o).ch = r.channel := (hown o ho r hr).symm
    _ = r'.channel := e
    _ = (s.channel o').ch := hown o' ho' r' hr'

/-- Sending the blocks of a call on different oscillators. -/
theorem emits_send {s u : State} (hs : DistinctChannels s) {l : List OscId} {recs : OscId → List Record}
    (hown : OwnBlocks s l recs) (hrange : ∀ o ∈ l, ∀ r ∈ recs o, LevelAtMost (topLevel o) r) (hl : l.Nodup)
    (hu : u.sink = s.sink) : Emits (onlyOf l recs) s (u.send (l.map recs)) where
  gained o := by
    rw [Gained, channelTrace_send, channelTrace_congr hu, ← List.flatMap_def]
    by_cases ho : o ∈ l
    · rw [ofChannel_flatMap_of_mem hs hown hl ho, onlyOf_of_mem ho]
    · rw [ofChannel_flatMap_of_not hown fun o' ho' e => ho ((hs e : o' = o) ▸ ho'), onlyOf_of_not_mem ho]
  inRange o r hr := by
    by_cases ho : o ∈ l
    · exact hrange o ho r (onlyOf_of_mem ho recs ▸ hr)
    · rw [onlyOf_of_not_mem ho] at hr
      exact absurd hr List.not_mem_nil
  tidy hsink := by
    rcases sink_send u (l.map recs) with h | h <;> rw [SinkInvariant, h, hu]
    · exact hsink
    · intro b hb
      rcases List.mem_append.1 hb with hb | hb
      · exact hsink b hb
      · rw [List.mem_singleton.1 hb]
        exact tidy_of_ownBlocks hs hown hl _ _

/-- A call's records are the oscillator's own, their levels in its range. -/
def OwnRecords (f : OscId → State → State × List Record) : Prop :=
  ∀ o s, ∀ r ∈ (f o s).2, r.channel = (s.channel o).ch ∧ LevelAtMost (topLevel o) r

theorem ownRecords_oscProcess (d : Nat) : OwnRecords (oscProcess d) := by
  intro o s r hr
  rw [oscProcess_records] at hr
  obtain ⟨l, j, hl, -, rfl⟩ := mem_drainedRecords hr
  exact ⟨rfl, hl⟩

theorem ownRecords_oscReset : OwnRecords oscReset := by
  intro o s r hr
  cases o <;> exact absurd hr List.not_mem_nil

theorem ownRecords_oscEndFrame : OwnRecords oscEndFrame := by
  intro o s r hr
  rw [List.mem_singleton.1 hr]
  exact ⟨rfl, trivial⟩

theorem emits_lone {f : OscId → State → State × List Record} (hf : OwnCall f) (hr : OwnRecords f) {s : State}
    (hs : DistinctChannels s) (o : OscId) : Emits (onlyOf [o] fun o => (f o s).2) s (lone f o s) :=
  emits_send hs (fun o _ r h => (hr o s r h).1) (fun o _ r h => (hr o s r h).2) (List.nodup_singleton o) (hf.sink o s)

theorem emits_fanCall {f : OscId → State → State × List Record} (hf : OwnCall f) (hr : OwnRecords f) {s : State}
    (hs : DistinctChannels s) (c : Chip) : Emits (onlyOf (oscillators c) fun o => (f o s).2) s (fanCall f c s) := by
  have hsend := emits_send (u := (fanOut f (oscillators c) s).1) hs (fun o _ r h => (hr o s r h).1)
    (fun o _ r h => (hr o s r h).2) (nodup_oscillators c) (hf.fanOut_sink _ s)
  rw [← hf.fanOut_records (nodup_oscillators c)] at hsend
  exact hsend.of_sink_eq rfl

/-! ### The order of records in time (40_framework.md R112) -/

/-- Times that do not decrease, from `e` to `e'`. -/
structure TimedBetween (e : Nat) (l : List Record) (e' : Nat) : Prop where
  le : e ≤ e'
  sorted : (l.map Record.time).Pairwise (· ≤ ·)
  within : ∀ r ∈ l, e ≤ r.time ∧ r.time ≤ e'

theorem TimedBetween.nil {e e' : Nat} (h : e ≤ e') : TimedBetween e [] e' :=
  ⟨h, .nil, fun _ hr => absurd hr List.not_mem_nil⟩

theorem TimedBetween.singleton (r : Record) : TimedBetween r.time [r] r.time := by
  refine ⟨le_rfl, List.pairwise_singleton _ _, fun r' hr' => ?_⟩
  rw [List.mem_singleton.1 hr']
  exact ⟨le_rfl, le_rfl⟩

theorem TimedBetween.append {e m e' : Nat} {l l' : List Record} (h : TimedBetween e l m) (h' : TimedBetween m l' e') :
    TimedBetween e (l ++ l') e' := by
  refine ⟨h.le.trans h'.le, ?_, fun r hr => ?_⟩
  · rw [List.map_append, List.pairwise_append]
    refine ⟨h.sorted, h'.sorted, fun x hx y hy => ?_⟩
    obtain ⟨r, hr, rfl⟩ := List.mem_map.1 hx
    obtain ⟨r', hr', rfl⟩ := List.mem_map.1 hy
    exact (h.within r hr).2.trans (h'.within r' hr').1
  · rcases List.mem_append.1 hr with hr | hr
    · exact ⟨(h.within r hr).1, (h.within r hr).2.trans h'.le⟩
    · exact ⟨h.le.trans (h'.within r hr).1, (h'.within r hr).2⟩

/-- Each oscillator's records lie in order between its times before and after. -/
def InOrder (recs : OscId → List Record) (s t : State) : Prop :=
  ∀ o, TimedBetween (s.channel o).elapsedTime (recs o) (t.channel o).elapsedTime

theorem InOrder.trans {recs recs' : OscId → List Record} {s m t : State} (hsm : InOrder recs s m)
    (hmt : InOrder recs' m t) : InOrder (fun o => recs o ++ recs' o) s t :=
  fun o => (hsm o).append (hmt o)

/-- What is said of the order depends on the later state's times alone. -/
theorem InOrder.of_times_eq {recs : OscId → List Record} {s t t' : State} (h : InOrder recs s t)
    (ht : ∀ o, (t'.channel o).elapsedTime = (t.channel o).elapsedTime) : InOrder recs s t' := by
  intro o
  rw [ht o]
  exact h o

theorem inOrder_noRecords {s t : State} (h : ∀ o, (t.channel o).elapsedTime = (s.channel o).elapsedTime) :
    InOrder noRecords s t :=
  fun o => .nil (h o).ge

/-- A call that reaches the listed oscillators alone. -/
theorem inOrder_onlyOf {f : OscId → State → State × List Record} {s t : State} {l : List OscId}
    (htimed : ∀ o, TimedBetween (s.channel o).elapsedTime (f o s).2 ((f o s).1.channel o).elapsedTime)
    (hmem : ∀ o ∈ l, t.channel o = (f o s).1.channel o) (hnot : ∀ o, o ∉ l → t.channel o = s.channel o) :
    InOrder (onlyOf l fun o => (f o s).2) s t := by
  intro o
  by_cases ho : o ∈ l
  · rw [onlyOf_of_mem ho, hmem o ho]
    exact htimed o
  · rw [onlyOf_of_not_mem ho, hnot o ho]
    exact .nil le_rfl

theorem inOrder_lone {f : OscId → State → State × List Record} (hf : OwnCall f) {s : State}
    (htimed : ∀ o, TimedBetween (s.channel o).elapsedTime (f o s).2 ((f o s).1.channel o).elapsedTime) (o : OscId) :
    InOrder (onlyOf [o] fun o => (f o s).2) s (lone f o s) := by
  refine inOrder_onlyOf htimed (fun o' ho' => ?_) fun o' ho' => ?_
  · rw [List.mem_singleton.1 ho']
    exact State.send_channel _ _ o
  · exact (State.send_channel _ _ o').trans (hf.channel_of_ne (fun e => ho' (List.mem_singleton.2 e)) s)

theorem inOrder_fanCall {f : OscId → State → State × List Record} (hf : OwnCall f) {s : State}
    (htimed : ∀ o, TimedBetween (s.channel o).elapsedTime (f o s).2 ((f o s).1.channel o).elapsedTime) (c : Chip) :
    InOrder (onlyOf (oscillators c) fun o => (f o s).2) s (fanCall f c s) := by
  have hchannel : ∀ o, (fanCall f c s).channel o = (fanOut f (oscillators c) s).1.channel o := fun o => by
    rw [fanCall, State.countDraw_channel, State.send_channel]
  exact inOrder_onlyOf htimed
    (fun o ho => (hchannel o).trans (hf.channel_fanOut_of_mem (nodup_oscillators c) ho s))
    (fun o ho => (hchannel o).trans (hf.channel_fanOut_of_not_mem ho s))

theorem expiryTime_mono (c : Channel) : Monotone (expiryTime c) := by
  intro i j hij
  exact Nat.add_le_add_left (Nat.mul_le_mul_right _ hij) _

/-- The expiries of a `process(d)` come in order within its `d` cycles. -/
theorem timedBetween_oscProcess (d : Nat) (s : State) (o : OscId) :
    TimedBetween (s.channel o).elapsedTime (oscProcess d o s).2 ((oscProcess d o s).1.channel o).elapsedTime := by
  have hafter : ((oscProcess d o s).1.channel o).elapsedTime = (s.channel o).elapsedTime + d := by
    have h := channel_loneProcess_eq d o s
    rw [lone, State.send_channel] at h
    rw [h]
    rfl
  rw [hafter, oscProcess_records]
  refine ⟨Nat.le_add_right _ d, ?_, fun r hr => ?_⟩
  · rw [map_time_drainedRecords]
    exact List.pairwise_map.2 (List.pairwise_lt_range.imp fun h => expiryTime_mono _ h.le)
  · obtain ⟨l, j, -, hj, rfl⟩ := mem_drainedRecords hr
    exact ⟨(Nat.le_add_right _ _).trans (Nat.le_add_right _ _), expiryTime_le hj⟩

/-- In the cumulative base an end of frame leaves the time at the record's. -/
theorem timedBetween_oscEndFrame {s : State} (hbase : s.cfg.timeBase = .cumulative) (o : OscId) :
    TimedBetween (s.channel o).elapsedTime (oscEndFrame o s).2 ((oscEndFrame o s).1.channel o).elapsedTime := by
  have hafter : ((oscEndFrame o s).1.channel o).elapsedTime = (s.channel o).elapsedTime := by
    rw [oscEndFrame, State.channel_setChannel_same, hbase]
    rfl
  rw [hafter]
  exact .singleton (.frameEnd (s.channel o).ch (s.channel o).elapsedTime)

/-! ### The operations -/

/-- An operation whose emissions are in range, tidy and in order. -/
def EmitsInOrder (s t : State) : Prop :=
  ∃ recs, Emits recs s t ∧ InOrder recs s t

theorem EmitsInOrder.trans {s m t : State} (hsm : EmitsInOrder s m) (hmt : EmitsInOrder m t) (hedited : Edited s m) :
    EmitsInOrder s t := by
  obtain ⟨recs, hemits, horder⟩ := hsm
  obtain ⟨recs', hemits', horder'⟩ := hmt
  exact ⟨_, hemits.trans hemits' hedited, horder.trans horder'⟩

theorem EmitsInOrder.of_kept {s t t' : State} (h : EmitsInOrder s t) (hsink : t'.sink = t.sink)
    (htimes : ∀ o, (t'.channel o).elapsedTime = (t.channel o).elapsedTime) : EmitsInOrder s t' := by
  obtain ⟨recs, hemits, horder⟩ := h
  exact ⟨recs, hemits.of_sink_eq hsink, horder.of_times_eq htimes⟩

theorem EmitsInOrder.refl (s : State) : EmitsInOrder s s :=
  ⟨noRecords, .refl s, inOrder_noRecords fun _ => rfl⟩

theorem emitsInOrder_answer (s : State) (r : ReadResult) : EmitsInOrder s (s.answer r) :=
  (EmitsInOrder.refl s).of_kept rfl fun o => by rw [State.answer_channel]

/-- The records of a CTRL write of `v` on a pulse. -/
def ctrlRecords (v : Byte) (p : PulseOscillator) : List Record :=
  gateRecords { p with toPulseWave := p.toPulseWave.writeCtrl v }

theorem writeCtrl_eq_send (k : PulseId) (v : Byte) (s : State) :
    writeCtrl k v s =
      (s.setPulse k { s.pulse k with toPulseWave := (s.pulse k).toPulseWave.writeCtrl v }).send [ctrlRecords v (s.pulse k)] :=
  rfl

/-- A CTRL write emits nothing, or one record of the pulse's own channel, time and range. -/
theorem ctrlRecords_cases (v : Byte) (p : PulseOscillator) :
    ctrlRecords v p = [] ∨ ∃ l, l ≤ 15 ∧ ctrlRecords v p = [.level p.ch l p.elapsedTime] := by
  unfold ctrlRecords gateRecords
  split
  · exact .inr ⟨_, Nat.le_of_lt_succ (ctrlVolume v).isLt, rfl⟩
  · exact .inl rfl

theorem ctrlRecords_own {v : Byte} {p : PulseOscillator} {r : Record} (hr : r ∈ ctrlRecords v p) :
    r.channel = p.ch ∧ LevelAtMost 15 r := by
  rcases ctrlRecords_cases v p with h | ⟨l, hl, h⟩ <;> rw [h] at hr
  · exact absurd hr List.not_mem_nil
  · rw [List.mem_singleton.1 hr]
    exact ⟨rfl, hl⟩

theorem timedBetween_ctrlRecords (v : Byte) (p : PulseOscillator) :
    TimedBetween p.elapsedTime (ctrlRecords v p) p.elapsedTime := by
  rcases ctrlRecords_cases v p with h | ⟨l, -, h⟩ <;> rw [h]
  · exact .nil le_rfl
  · exact .singleton (.level p.ch l p.elapsedTime)

theorem emitsInOrder_writeCtrl {s : State} (hs : DistinctChannels s) (k : PulseId) (v : Byte) :
    EmitsInOrder s (writeCtrl k v s) := by
  refine ⟨onlyOf [.pulse k] fun _ => ctrlRecords v (s.pulse k), ?_, fun o => ?_⟩
  · have hown : ∀ o ∈ [OscId.pulse k], ∀ r ∈ ctrlRecords v (s.pulse k),
        r.channel = (s.channel o).ch ∧ LevelAtMost (topLevel o) r := by
      intro o ho r hr
      rw [List.mem_singleton.1 ho]
      exact ctrlRecords_own hr
    rw [writeCtrl_eq_send]
    exact emits_send hs (fun o ho r hr => (hown o ho r hr).1) (fun o ho r hr => (hown o ho r hr).2)
      (List.nodup_singleton _) (State.setPulse_sink s k _)
  · rw [channel_writeCtrl]
    by_cases ho : o ∈ [OscId.pulse k]
    · rw [onlyOf_of_mem ho, List.mem_singleton.1 ho]
      exact timedBetween_ctrlRecords v (s.pulse k)
    · rw [onlyOf_of_not_mem ho]
      exact .nil le_rfl

/-- A write emits, if anything, the record of a CTRL write. -/
theorem emitsInOrder_of_wrote {s t : State} (hs : DistinctChannels s) (h : Wrote s t) : EmitsInOrder s t := by
  obtain ⟨htimes, -⟩ := times_of_wrote h
  cases h with
  | ctrl k v => exact emitsInOrder_writeCtrl hs k v
  | nothing | rate | mulA | mulB | aux => exact (EmitsInOrder.refl s).of_kept rfl htimes
  | freqLo o | freqHi o => exact (EmitsInOrder.refl s).of_kept (State.setChannel_sink s o _) htimes

theorem emitsInOrder_chipProcess {s : State} (hs : DistinctChannels s) (c : Chip) (d : Nat) :
    EmitsInOrder s (chipProcess c d s) :=
  ⟨_, emits_fanCall (ownCall_oscProcess d) (ownRecords_oscProcess d) hs c,
    inOrder_fanCall (ownCall_oscProcess d) (timedBetween_oscProcess d s) c⟩

theorem emitsInOrder_advanceTo {s : State} (hs : DistinctChannels s) (c : Chip) (time : Nat) :
    EmitsInOrder s (advanceTo c time s) :=
  (emitsInOrder_chipProcess hs c (time - s.now c)).of_kept (State.setNow_sink _ c time)
    fun o => by rw [advanceTo, State.setNow_channel]

theorem emits_chipReset {s : State} (hs : DistinctChannels s) (c : Chip) : ∃ recs, Emits recs s (chipReset c s) := by
  have hfan := emits_fanCall ownCall_oscReset ownRecords_oscReset hs c
  cases c with
  | pulseSaw => exact ⟨_, hfan⟩
  | pulseMul => exact ⟨_, hfan.of_sink_eq (State.setMul_sink _ _)⟩

theorem sink_endFrameNow (c : Chip) (s : State) : (s.endFrameNow c).sink = s.sink := by
  unfold State.endFrameNow
  split
  · rfl
  · exact State.setNow_sink s c 0

/-! ### Commands -/

/-- The command is a reset of a chip, a partitioner or an oscillator. -/
def IsReset (cmd : Command) : Prop :=
  (∃ c, cmd = .reset c) ∨ (∃ c, cmd = .partReset c) ∨ ∃ o, cmd = .oscReset o

/-- What a command emits: in range and tidy, and in the cumulative base, where the command is no reset, in order. -/
def CommandEmits (s : State) (cmd : Command) (t : State) : Prop :=
  ∃ recs, Emits recs s t ∧ (s.cfg.timeBase = .cumulative → ¬ IsReset cmd → InOrder recs s t)

theorem EmitsInOrder.commandEmits {s t : State} (h : EmitsInOrder s t) (cmd : Command) : CommandEmits s cmd t := by
  obtain ⟨recs, hemits, horder⟩ := h
  exact ⟨recs, hemits, fun _ _ => horder⟩

theorem commandEmits_of_performed {s t : State} {cmd : Command} (hs : DistinctChannels s) (h : Performed s cmd t) :
    CommandEmits s cmd t := by
  cases h with
  | busWrite _ _ _ hw | oscWrite _ _ _ _ hw => exact (emitsInOrder_of_wrote hs hw).commandEmits _
  | busRead | partRead => exact (emitsInOrder_answer s _).commandEmits _
  | process c d => exact (emitsInOrder_chipProcess hs c d).commandEmits _
  | partWrite c time _ _ _ _ hw =>
    have hedited := edited_advanceTo c time s
    exact ((emitsInOrder_advanceTo hs c time).trans
      (emitsInOrder_of_wrote (distinctChannels_of_edited hedited hs) hw) hedited).commandEmits _
  | oscProcess o d =>
    exact ⟨_, emits_lone (ownCall_oscProcess d) (ownRecords_oscProcess d) hs o,
      fun _ _ => inOrder_lone (ownCall_oscProcess d) (timedBetween_oscProcess d s) o⟩
  | endFrame c =>
    exact ⟨_, emits_fanCall ownCall_oscEndFrame ownRecords_oscEndFrame hs c,
      fun hbase _ => inOrder_fanCall ownCall_oscEndFrame (timedBetween_oscEndFrame hbase) c⟩
  | oscEndFrame o =>
    exact ⟨_, emits_lone ownCall_oscEndFrame ownRecords_oscEndFrame hs o,
      fun hbase _ => inOrder_lone ownCall_oscEndFrame (timedBetween_oscEndFrame hbase) o⟩
  | partEndFrame c time =>
    have hedited := edited_advanceTo c time s
    obtain ⟨recs, hemits, horder⟩ := emitsInOrder_advanceTo hs c time
    have hframe := emits_fanCall ownCall_oscEndFrame ownRecords_oscEndFrame (distinctChannels_of_edited hedited hs) c
    refine ⟨_, (hemits.trans hframe hedited).of_sink_eq (sink_endFrameNow c _), fun hbase _ => ?_⟩
    have hbase' : (advanceTo c time s).cfg.timeBase = .cumulative := by rwa [cfg_advanceTo]
    refine (horder.trans (inOrder_fanCall ownCall_oscEndFrame (timedBetween_oscEndFrame hbase') c)).of_times_eq fun o => ?_
    exact congrArg Channel.elapsedTime (channel_endFrameNow c _ o)
  | reset c =>
    obtain ⟨recs, hemits⟩ := emits_chipReset hs c
    exact ⟨recs, hemits.of_sink_eq (State.setNow_sink _ c 0), fun _ hno => absurd (.inl ⟨c, rfl⟩) hno⟩
  | partReset c =>
    obtain ⟨recs, hemits⟩ := emits_chipReset hs c
    exact ⟨recs, hemits.of_sink_eq (State.setNow_sink _ c 0), fun _ hno => absurd (.inr (.inl ⟨c, rfl⟩)) hno⟩
  | oscReset o =>
    exact ⟨_, emits_lone ownCall_oscReset ownRecords_oscReset hs o, fun _ hno => absurd (.inr (.inr ⟨o, rfl⟩)) hno⟩

/-! ### The step -/

/-- What a step emits. -/
theorem step_emits {s t : State} (hs : DistinctChannels s) (h : step s = .next t) :
    ∃ recs, Emits recs s t ∧
      (s.cfg.timeBase = .cumulative → (∀ cmd, s.program[s.pos]? = some cmd → ¬ IsReset cmd) → InOrder recs s t) := by
  obtain ⟨-, ⟨-, rfl⟩ | ⟨cmd, i, u, hcmd, hdecode, -, hexec, rfl⟩⟩ := step_cases h
  · exact ⟨noRecords, .refl t, fun _ _ => inOrder_noRecords fun _ => rfl⟩
  · obtain ⟨recs, hemits, horder⟩ := commandEmits_of_performed hs (performed_of_next hdecode hexec)
    refine ⟨recs, hemits.of_sink_eq rfl, fun hbase hno => ?_⟩
    exact (horder hbase (hno cmd hcmd)).of_times_eq fun o => by rw [State.advance_channel]

/-- Settles O54: the blocks of a call are those of different oscillators, with different channels. -/
theorem stepKeepsSinkTidy : Obligations.StepKeepsSinkTidy := by
  intro s t hs hsink h
  obtain ⟨recs, hemits, -⟩ := step_emits (distinctChannels_of_invariant hs) h
  exact hemits.tidy hsink

/-- Settles O55: a channel's new records are those of the oscillator bound to it. -/
theorem stepKeepsLevelRange : Obligations.StepKeepsLevelRange := by
  intro s t hs hlevels h o r hr
  obtain ⟨recs, hemits, -⟩ := step_emits (distinctChannels_of_invariant hs) h
  obtain ⟨-, hcfg, -⟩ := step_edited h
  obtain ⟨-, hbound⟩ := hs
  rw [hcfg, ← hbound o, hemits.gained o] at hr
  rcases List.mem_append.1 hr with hold | hnew
  · exact hlevels o r (hbound o ▸ hold)
  · exact hemits.inRange o r hnew

/-- Settles O58: each operation's records lie in order between the times before and after it, and so do those of two in a row. -/
theorem recordsInTimeOrder : Obligations.RecordsInTimeOrder := by
  intro s t o hs hbase h hno
  obtain ⟨recs, hemits, horder⟩ := step_emits (distinctChannels_of_invariant hs) h
  have hreset : ∀ cmd, s.program[s.pos]? = some cmd → ¬ IsReset cmd := by
    intro cmd hcmd
    obtain ⟨hchip, hpart, hosc⟩ := hno cmd hcmd
    rintro (⟨c, rfl⟩ | ⟨c, rfl⟩ | ⟨o', rfl⟩)
    · exact hchip c rfl
    · exact hpart c rfl
    · exact hosc o' rfl
  obtain ⟨hle, hsorted, hwithin⟩ := horder hbase hreset o
  exact ⟨hle, recs o, hemits.gained o, hsorted, hwithin⟩

end Sys2Proof.Proofs.Emissions
end

/-! ## endFrame on one oscillator, and the partitioner (40_framework.md R114 to R119) -/

section
namespace Sys2Proof.Proofs.Partitioner

open Sys2Proof.Machine Sys2Proof.Proofs.Edits Sys2Proof.Proofs.Times Sys2Proof.Proofs.RegisterWrites
open Sys2Proof.Proofs.FreqPseudo Sys2Proof.Proofs.Process Sys2Proof.Proofs.FanOut Sys2Proof.Proofs.ChipBatching

/-! ### endFrame -/

theorem waveKept_send {o : OscId} {s t : State} (h : WaveKept o s t) (blocks : List (List Record)) :
    WaveKept o s (t.send blocks) := by
  cases o with
  | pulse k => exact (congrArg PulseOscillator.toPulseWave (State.send_pulse t blocks k)).trans h
  | saw => exact (congrArg (fun ps : PulseSawChip => ps.saw.toSawWave) (State.send_ps t blocks)).trans h

/-- Settles O33: the call updates the oscillator's common fields and sends one record. -/
theorem oscEndFrame : Obligations.OscEndFrame := by
  intro o s
  refine ⟨_, exec_oscEndFrameInstr o s, waveKept_send (waveKept_setChannel o _ s) _, ?channel, fun ch => ?trace,
    onlyOscillators_send (onlyOscillators_setChannel o _ s) _, ?draws⟩
  case channel =>
    rw [lone, State.send_channel, Machine.oscEndFrame, State.channel_setChannel_same, endFrame_eq]
  case trace =>
    rw [Gained, lone, channelTrace_send, channelTrace_congr (ownCall_oscEndFrame.sink o s)]
    rfl
  case draws => rw [lone, State.send_draws, Machine.oscEndFrame, State.setChannel_draws]

/-! ### The partitioner's `process` -/

theorem chipProcessed_chipProcess (c : Chip) (d : Nat) (s : State) : ChipProcessed c d s (chipProcess c d s) := by
  obtain ⟨hmul, hmemory, -, hdriver, hreads⟩ := restKept_chipProcess d c s
  refine ⟨fun o => drainedRecords d o s, fun o ho => ?_, channelTrace_chipProcess d c s, othersKept_chipProcess d c s,
    hmul, hmemory, hdriver, hreads⟩
  exact ⟨_, exec_oscProcessInstr o d s, oscKept_chipProcess s ho, channelTrace_loneProcess d o s,
    fun _ => channel_of_mem_drainedRecords⟩

/-- `ChipProcessed` says nothing of `now`. -/
theorem chipProcessed_setNow {c : Chip} {d : Nat} {s m : State} (h : ChipProcessed c d s m) (c' : Chip) (time : Nat) :
    ChipProcessed c d s (m.setNow c' time) := by
  have hkept : ∀ o, OscKept o m (m.setNow c' time) := fun o => by cases o <;> simp [OscKept]
  obtain ⟨recs, hosc, htrace, hothers, hmul, hmemory, hdriver, hreads⟩ := h
  refine ⟨recs, fun o ho => ?_, fun ch => ?_, fun o ho => ?_, ?_, ?_, ?_, ?_⟩
  · obtain ⟨x, hx, hox, hgained, hown⟩ := hosc o ho
    exact ⟨x, hx, oscKept_trans hox (hkept o), hgained, hown⟩
  · exact (channelTrace_congr (State.setNow_sink m c' time) ch).trans (htrace ch)
  · exact oscKept_trans (hothers o ho) (hkept o)
  · simpa [MulKept] using hmul
  · simpa [MemoryKept] using hmemory
  · simpa [DriverKept] using hdriver
  · simpa using hreads

theorem chipProcessed_advanceTo (c : Chip) (time : Nat) (s : State) :
    ChipProcessed c (time - s.now c) s (advanceTo c time s) :=
  chipProcessed_setNow (chipProcessed_chipProcess c _ s) c time

theorem now_advanceTo_of_ne {c c' : Chip} (h : c' ≠ c) (time : Nat) (s : State) :
    (advanceTo c time s).now c' = s.now c' := by
  rw [advanceTo, State.now_setNow_of_ne _ _ _ _ h, now_chipProcess]

/-! ### The commands -/

theorem exec_w_of_le {c : Chip} {time : Nat} {s : State} (h : s.now c ≤ time) (a : Addr) (v : Byte) :
    exec (.w c time a v) s = .next (chipWrite c a v (advanceTo c time s)) :=
  if_neg (Nat.not_lt.2 h)

theorem exec_ef_of_le {c : Chip} {time : Nat} {s : State} (h : s.now c ≤ time) :
    exec (.ef c time) s = .next (frameEndAt c time s) :=
  if_neg (Nat.not_lt.2 h)

theorem exec_r_of_le {c : Chip} {time : Nat} {s : State} (h : s.now c ≤ time) (a : Addr) :
    exec (.r c time a) s = .next (s.answer (chipRead c a s)) :=
  if_neg (Nat.not_lt.2 h)

/-- A partitioner command that answers a next state from `now` on, and is refused below it, is refused exactly below it. -/
theorem refused_iff_of_cases {r : Result} {now time : Nat} {t : State} (hle : now ≤ time → r = .next t)
    (hlt : time < now → r = .refused .timestampBeforeNow) : r = .refused .timestampBeforeNow ↔ time < now := by
  refine ⟨fun hr => Nat.lt_of_not_le fun h => ?_, hlt⟩
  rw [hle h] at hr
  cases hr

/-- Settles O38: the three commands begin with the same test. -/
theorem timestampBeforeNowRefused : Obligations.TimestampBeforeNowRefused :=
  fun _ _ a v _ => ⟨refused_iff_of_cases (fun h => exec_w_of_le h a v) fun h => if_pos h,
    refused_iff_of_cases exec_ef_of_le fun h => if_pos h,
    refused_iff_of_cases (fun h => exec_r_of_le h a) fun h => if_pos h⟩

/-- Settles O35: the decoded write runs in the state the `process` leaves, whose address map is the same. -/
theorem partitionerWrite : Obligations.PartitionerWrite := by
  intro c time a v s
  refine ⟨fun h => ⟨advanceTo c time s, _, chipProcessed_advanceTo c time s, now_advanceTo_same c time s,
    fun c' hc => now_advanceTo_of_ne hc time s, ?_, exec_w_of_le h a v⟩, fun h => if_pos h⟩
  rw [← cfg_advanceTo c time s]
  exact exec_decodeWrite c a v _

/-- Settles O36: the chip's end of frame runs in the state the `process` leaves, and then `now` restarts where the times do. -/
theorem partitionerEndFrame : Obligations.PartitionerEndFrame := by
  intro c time s
  refine ⟨fun h => ⟨advanceTo c time s, chipEndFrame c (advanceTo c time s), _, chipProcessed_advanceTo c time s,
    now_advanceTo_same c time s, fun c' hc => now_advanceTo_of_ne hc time s, exec_endFrameInstr c _, exec_ef_of_le h,
    fun hbase => ?_, fun hbase => ?_⟩, fun h => if_pos h⟩
  all_goals
    obtain ⟨hcfg, -, -⟩ := (edited_chipEndFrame c (advanceTo c time s)).driver
    rw [cfg_advanceTo] at hcfg
    rw [frameEndAt, State.endFrameNow, hcfg, hbase]

/-- Settles O37: both instructions answer the chip's read. -/
theorem partitionerRead : Obligations.PartitionerRead :=
  fun c _ a s => ⟨fun h => ⟨_, _, exec_r_of_le h a, exec_decodeRead c a s, onlyAnswered_answer _ s⟩, fun h => if_pos h⟩

end Sys2Proof.Proofs.Partitioner
end

/-! ## What sends to the sink and what takes time (40_framework.md R111, R121) -/

section
namespace Sys2Proof.Proofs.Instructions

open Sys2Proof.Machine Sys2Proof.Proofs.Edits Sys2Proof.Proofs.Times Sys2Proof.Proofs.FanOut
open Sys2Proof.Proofs.FreqPseudo Sys2Proof.Proofs.Process

/-! ### Emission points -/

theorem sink_chipReset (c : Chip) (s : State) : (chipReset c s).sink = s.sink := by
  cases c with
  | pulseSaw => rw [chipReset_pulseSaw]
  | pulseMul => rw [chipReset_pulseMul]

theorem sink_loneReset (o : OscId) (s : State) : (lone oscReset o s).sink = s.sink := by
  rw [loneReset_eq]
  exact ownCall_oscReset.sink o s

/-- Settles O39: what is left are the frequency and RATE writes, the PulseMulChip's own writes, the reads, the resets and the
instructions that do nothing. -/
theorem emissionPoints : Obligations.EmissionPoints := by
  intro i s t h hctrl hprocess hchipProcess hendFrame hchipEndFrame hw hef
  cases i
  case p1Ctrl v => exact absurd rfl (hctrl .psP1 v)
  case p2Ctrl v => exact absurd rfl (hctrl .psP2 v)
  case m1Ctrl v => exact absurd rfl (hctrl .pmP1 v)
  case m2Ctrl v => exact absurd rfl (hctrl .pmP2 v)
  case pulseProcess k d => exact absurd rfl (hprocess (.pulse k) d)
  case sawProcess d => exact absurd rfl (hprocess .saw d)
  case psProcess d => exact absurd rfl (hchipProcess .pulseSaw d)
  case pmProcess d => exact absurd rfl (hchipProcess .pulseMul d)
  case pulseEndFrame k => exact absurd rfl (hendFrame (.pulse k))
  case sawEndFrame => exact absurd rfl (hendFrame .saw)
  case psEndFrame => exact absurd rfl (hchipEndFrame .pulseSaw)
  case pmEndFrame => exact absurd rfl (hchipEndFrame .pulseMul)
  case w c time a v => exact absurd rfl (hw c time a v)
  case ef c time => exact absurd rfl (hef c time)
  case auxWrite n v =>
    simp only [exec, execAuxWrite] at h
    split at h <;> cases h
    rfl
  case auxRead n =>
    simp only [exec, execAuxRead] at h
    split at h <;> cases h
    rfl
  case r c time a =>
    simp only [exec, execR] at h
    split at h <;> cases h
    rfl
  all_goals cases h
  case p1FreqLo | p1FreqHi | p2FreqLo | p2FreqHi | m1FreqLo | m1FreqHi | m2FreqLo | m2FreqHi | sawFreqLo | sawFreqHi =>
    exact State.setChannel_sink s _ _
  case sawRate | mulA | mulB => rfl
  case psRead | pmReadUnmapped | mulLoRead | mulHiRead => rfl
  case psWriteUnmapped | pmWriteUnmapped | pulseWriteOther | sawWriteOther => rfl
  case psReset | pmReset | rst => exact (State.setNow_sink _ _ 0).trans (sink_chipReset _ s)
  case pulseReset | sawReset => exact sink_loneReset _ s

/-! ### Time -/

theorem elapsedTime_loneProcess (d : Nat) (o o' : OscId) (s : State) :
    ((lone (oscProcess d) o s).channel o').elapsedTime = (s.channel o').elapsedTime + if o' = o then d else 0 := by
  split
  · rename_i h
    rw [h, channel_loneProcess_eq]
    rfl
  · rename_i h
    rw [lone, State.send_channel, (ownCall_oscProcess d).channel_of_ne h]
    rfl

theorem elapsedTime_chipProcess (d : Nat) (c : Chip) (o : OscId) (s : State) :
    ((chipProcess c d s).channel o).elapsedTime = (s.channel o).elapsedTime + if oscChip o = c then d else 0 := by
  split
  · rename_i h
    exact timesMapped_chipProcess c d s o ((mem_oscillators o c).2 h)
  · rename_i h
    rw [channel_of_oscKept (othersKept_chipProcess d c s o fun ho => h ((mem_oscillators o c).1 ho))]
    rfl

theorem elapsedTime_advanceTo (c : Chip) (time : Nat) (o : OscId) (s : State) :
    ((advanceTo c time s).channel o).elapsedTime =
      (s.channel o).elapsedTime + if oscChip o = c then time - s.now c else 0 := by
  rw [advanceTo, State.setNow_channel, elapsedTime_chipProcess]

theorem elapsedTime_chipReset_le (c : Chip) (s : State) (o : OscId) :
    ((chipReset c s).channel o).elapsedTime ≤ (s.channel o).elapsedTime := by
  rw [elapsedTime_chipReset]
  split
  · exact Nat.zero_le _
  · exact le_rfl

theorem frameTime_le (base : TimeBase) (x : Nat) : frameTime base x ≤ x := by
  unfold frameTime
  split
  · exact Nat.zero_le x
  · exact le_rfl

theorem elapsedTime_chipEndFrame_le (c : Chip) (s : State) (o : OscId) :
    ((chipEndFrame c s).channel o).elapsedTime ≤ (s.channel o).elapsedTime := by
  rw [elapsedTime_chipEndFrame]
  split
  · exact frameTime_le _ _
  · exact le_rfl

theorem elapsedTime_loneReset_le (o o' : OscId) (s : State) :
    ((lone oscReset o s).channel o').elapsedTime ≤ (s.channel o').elapsedTime := by
  rw [loneReset_eq]
  by_cases h : o' = o
  · subst h
    have hzero : ((oscReset o' s).1.channel o').elapsedTime = 0 := by
      rcases o' with (_ | _ | _ | _) | _ <;> rfl
    exact hzero.le.trans (Nat.zero_le _)
  · rw [ownCall_oscReset.channel_of_ne h]

theorem elapsedTime_loneEndFrame_le (o o' : OscId) (s : State) :
    ((lone oscEndFrame o s).channel o').elapsedTime ≤ (s.channel o').elapsedTime := by
  rw [lone, State.send_channel]
  by_cases h : o' = o
  · subst h
    rw [oscEndFrame, State.channel_setChannel_same, endFrame_eq]
    exact frameTime_le _ _
  · rw [ownCall_oscEndFrame.channel_of_ne h]

/-- A time that grows by `d` on a condition, if at all, has met the condition where it has grown. -/
theorem grown_of_lt {p : Prop} [Decidable p] {x y d : Nat} (hlt : x < y) (hy : y = x + if p then d else 0) :
    p ∧ y = x + d := by
  split at hy
  · exact ⟨‹p›, hy⟩
  · omega

/-- The frame's end either keeps the time that the partitioner's `process` reached or makes it 0. -/
theorem elapsedTime_frameEndAt_of_pos {c : Chip} {time : Nat} {s : State} {o : OscId}
    (h : 0 < ((frameEndAt c time s).channel o).elapsedTime) :
    ((frameEndAt c time s).channel o).elapsedTime = ((advanceTo c time s).channel o).elapsedTime := by
  rw [frameEndAt, channel_endFrameNow, elapsedTime_chipEndFrame] at h ⊢
  split at h
  · rename_i hc
    rw [if_pos hc]
    unfold frameTime at h ⊢
    split at h
    · exact absurd h (Nat.lt_irrefl 0)
    · rename_i hbase
      rw [if_neg hbase]
  · rename_i hc
    rw [if_neg hc]

/-- Settles O40: of all an instruction can do, only a `process` adds to a time, and it adds its operand. -/
theorem commandsTakeNoTime : Obligations.CommandsTakeNoTime := by
  intro i o s t h hlt
  cases ran_of_next h with
  | wrote _ _ hw => exact absurd ((times_of_wrote hw).1 o) hlt.ne'
  | answered _ r => exact absurd (congrArg Channel.elapsedTime (State.answer_channel s r o)) hlt.ne'
  | oscReset o' => exact absurd (elapsedTime_loneReset_le o' o s) (Nat.not_le.2 hlt)
  | oscEndFrame o' => exact absurd (elapsedTime_loneEndFrame_le o' o s) (Nat.not_le.2 hlt)
  | reset c | rst c =>
    rw [State.setNow_channel] at hlt
    exact absurd (elapsedTime_chipReset_le c s o) (Nat.not_le.2 hlt)
  | endFrame c => exact absurd (elapsedTime_chipEndFrame_le c s o) (Nat.not_le.2 hlt)
  | oscProcess o' d =>
    obtain ⟨rfl, htime⟩ := grown_of_lt hlt (elapsedTime_loneProcess d o' o s)
    exact ⟨d, htime, .inl rfl⟩
  | process c d =>
    obtain ⟨rfl, htime⟩ := grown_of_lt hlt (elapsedTime_chipProcess d c o s)
    exact ⟨d, htime, .inr (.inl rfl)⟩
  | w c time a v _ hnow hw =>
    rw [(times_of_wrote hw).1 o] at hlt ⊢
    obtain ⟨rfl, htime⟩ := grown_of_lt hlt (elapsedTime_advanceTo c time o s)
    exact ⟨_, htime, .inr (.inr ⟨time, Nat.add_sub_cancel' hnow, .inr ⟨a, v, rfl⟩⟩)⟩
  | ef c time hnow =>
    have hreached := elapsedTime_frameEndAt_of_pos (Nat.zero_lt_of_lt hlt)
    rw [hreached] at hlt ⊢
    obtain ⟨rfl, htime⟩ := grown_of_lt hlt (elapsedTime_advanceTo c time o s)
    exact ⟨_, htime, .inr (.inr ⟨time, Nat.add_sub_cancel' hnow, .inl rfl⟩)⟩

end Sys2Proof.Proofs.Instructions
end

/-! ## Writes of no register and reset, on one oscillator (41_pulse.md R133, R135, 42_sawtooth.md R163, R165) -/

section
namespace Sys2Proof.Proofs.OscillatorCalls

open Sys2Proof.Machine Sys2Proof.Proofs.Codec Sys2Proof.Proofs.RegisterWrites Sys2Proof.Proofs.Instructions

/-! ### The writes of no register -/

theorem oscWriteInstr_other (o : OscId) {n : Nat} (hn : 3 ≤ n) (v : Byte) : oscWriteInstr o n v = otherInstr o n v := by
  rw [oscWriteInstr, if_neg (by omega), if_neg (by omega), if_neg (by omega)]

theorem exec_otherInstr (o : OscId) (n : Nat) (v : Byte) (s : State) : exec (otherInstr o n v) s = .next s := by
  cases o <;> rfl

theorem encode_otherInstr (cfg : Config) (o : OscId) (n : Nat) (v : Byte) :
    encode cfg (otherInstr o n v) = .oscWrite o n v.toNat := by
  cases o <;> rfl

/-- What a bus word decodes to is encoded by a bus word again (30_encoding.md R81). -/
theorem encode_of_decode_bus {cfg : Config} (h : validConfig cfg = true) {c : Chip} {w : Nat} {i : Instr}
    (hd : decode cfg (.bus c w) = .ok i) : ∃ w', encode cfg i = .bus c w' := by
  by_cases hw : w < 2 ^ 25
  · obtain ⟨j, hj, -, hwrite, hread⟩ := everyBusWordDecodes cfg c w h hw
    obtain rfl : j = i := Except.ok.inj (hj.symm.trans hd)
    rcases Nat.lt_or_ge w (2 ^ 24) with hbit | hbit
    · exact ⟨_, hread hbit⟩
    · exact ⟨_, hwrite hbit⟩
  · have hrejected : decode cfg (.bus c w) = .error .valueOutOfRange := if_neg hw
    cases hrejected.symm.trans hd

/-- Settles O5: a write of no register is encoded by an oscillator-level command, and what a bus word decodes to is not. -/
theorem otherIndexWrites : Obligations.OtherIndexWrites := by
  intro o n v s hn
  refine ⟨?_, exec_otherInstr o n v s, fun h c w hd => ?_⟩
  · rw [decode_oscWrite, oscWriteInstr_other o hn]
  · obtain ⟨w', hencode⟩ := encode_of_decode_bus h hd
    cases (encode_otherInstr s.cfg o n v).symm.trans hencode

/-! ### reset -/

theorem zeroOsc_loneReset (o : OscId) (s : State) : ZeroOsc o (s.channel o).ch (lone oscReset o s) := by
  rw [loneReset_eq]
  cases o with
  | pulse k => exact State.pulse_setPulse_same s k _
  | saw => rfl

theorem onlyOscillators_loneReset (o : OscId) (s : State) : OnlyOscillators [o] s (lone oscReset o s) := by
  rw [loneReset_eq]
  cases o with
  | pulse k => exact onlyOscillators_setPulse k _ s
  | saw => exact onlyOscillators_setSaw _ s

theorem draws_loneReset (o : OscId) (s : State) : (lone oscReset o s).draws = s.draws := by
  rw [loneReset_eq]
  cases o with
  | pulse k => exact State.setPulse_draws s k _
  | saw => rfl

/-- Settles O31: the call replaces the oscillator by the one constructed on its channel. -/
theorem oscReset : Obligations.OscReset := fun o s =>
  ⟨_, exec_oscResetInstr o s, zeroOsc_loneReset o s, sink_loneReset o s, onlyOscillators_loneReset o s, draws_loneReset o s⟩

end Sys2Proof.Proofs.OscillatorCalls
end

/-! ## The waveforms of `process` (41_pulse.md R134, R137, R138, 42_sawtooth.md R168) -/

section
namespace Sys2Proof.Proofs.Waveforms

open Sys2Proof.Machine Sys2Proof.Proofs.Process

/-! ### The pulse's expiries -/

/-- The level of a pulse's `n`-th expiry, as arithmetic on its fields (41_pulse.md R134). -/
def dutyLevel (w : PulseWave) (n : Nat) : Nat :=
  if w.gate = true ∨ w.dutyCycle.toNat ≤ (w.dutyPosition.toNat + n) % 16 then w.volume.toNat else 0

theorem dutyPosition_toNat_add (w : PulseWave) (n : Nat) :
    (w.dutyPosition + BitVec.ofNat 4 n).toNat = (w.dutyPosition.toNat + n) % 16 := by
  rw [BitVec.toNat_add, BitVec.toNat_ofNat, Nat.add_mod_mod]

theorem level_expireTimes_pulse (w : PulseWave) (n : Nat) : (expireTimes PulseWave.expire n w).level = dutyLevel w n := by
  simp only [expireTimes_pulse, PulseWave.level, dutyLevel, BitVec.le_def, dutyPosition_toNat_add]

/-- The records of a pulse's `process(d)`: those of 40_framework.md R106, at the levels of the duty comparison. -/
theorem drainedRecords_pulse (d : Nat) (k : PulseId) (s : State) :
    drainedRecords d (.pulse k) s = (List.range (expiryCount d (s.pulse k).toChannel)).map fun j =>
      .level (s.pulse k).ch (dutyLevel (s.pulse k).toPulseWave (j + 1)) (expiryTime (s.pulse k).toChannel j) := by
  have h := congrArg Drained.records
    (processChannel_eq PulseWave.expire PulseWave.level d (s.pulse k).toChannel (s.pulse k).toPulseWave)
  simp only [expiryRecords, level_expireTimes_pulse] at h
  exact h

/-- A pulse after `process(d)`, in closed form. -/
theorem pulse_loneProcess_eq (d : Nat) (k : PulseId) (s : State) :
    (lone (oscProcess d) (.pulse k) s).pulse k =
      { toChannel := afterProcess d (s.pulse k).toChannel
        toPulseWave := { (s.pulse k).toPulseWave with
          dutyPosition := (s.pulse k).dutyPosition + BitVec.ofNat 4 (expiryCount d (s.pulse k).toChannel) } } := by
  rw [pulse_loneProcess, pulseDrained, processChannel_eq, expireTimes_pulse]
  rfl

/-- Settles O16: the fields are those of the closed form, and so are the records. -/
theorem pulseProcess : Obligations.PulseProcess := by
  intro k d s
  obtain ⟨honly, hdraws⟩ := onlyOscillators_loneProcess d (.pulse k) s
  have hpulse := pulse_loneProcess_eq d k s
  refine ⟨_, exec_oscProcessInstr (.pulse k) d s, ?common, ?gate, ?duty, ?volume, ?position, fun ch => ?trace, honly, hdraws⟩
  case common | gate | duty | volume => rw [hpulse]
  case position =>
    rw [hpulse]
    exact dutyPosition_toNat_add _ _
  case trace =>
    rw [Gained, channelTrace_loneProcess, drainedRecords_pulse]
    rfl

/-! ### The duty table -/

/-- Over one period it does not matter where the count begins. -/
theorem count_add_of_periodic {p : Nat → Prop} [DecidablePred p] {n : Nat} (hp : Function.Periodic p n) (a : Nat) :
    Nat.count (fun x => p (a + x)) n = Nat.count p n := by
  have hfirst : Nat.count p (a + n) = Nat.count p a + Nat.count (fun x => p (a + x)) n := Nat.count_add p a n
  have hlast : Nat.count p (a + n) = Nat.count p a + Nat.count p n := by
    rw [Nat.count_add']
    simp only [hp _]
  omega

theorem count_ge (m n : Nat) : Nat.count (fun x => m ≤ x) n = n - m := by
  induction n with
  | zero => simp
  | succ n ih =>
    rw [Nat.count_succ, ih]
    split <;> omega

/-- Of 16 successive positions, `16 - m` are at least `m`. -/
theorem count_duty (m pos : Nat) : Nat.count (fun j => m ≤ (pos + (j + 1)) % 16) 16 = 16 - m := by
  have hwrap : Nat.count (fun x => m ≤ x % 16) 16 = 16 - m := by
    rw [← count_ge m 16, Nat.count, Nat.count]
    refine List.countP_congr fun x hx => ?_
    rw [Nat.mod_eq_of_lt (List.mem_range.1 hx)]
  have hperiodic : Function.Periodic (fun x => m ≤ x % 16) 16 := (Nat.periodic_mod 16).comp (m ≤ ·)
  rw [← hwrap, ← count_add_of_periodic hperiodic (pos + 1)]
  simp only [Nat.add_assoc, Nat.add_comm 1]

theorem count_add_count_not (p : Nat → Prop) [DecidablePred p] (n : Nat) :
    Nat.count p n + Nat.count (fun x => ¬ p x) n = n := by
  simpa [Nat.count] using (List.length_eq_countP_add_countP (fun x => decide (p x)) (l := List.range n)).symm

/-- Counting the records of a channel that carry one level. -/
theorem countP_level_eq (ch l n : Nat) (level time : Nat → Nat) :
    ((List.range n).map fun j => Record.level ch (level j) (time j)).countP (fun r => r == .level ch l r.time) =
      Nat.count (fun j => level j = l) n := by
  rw [List.countP_map, Nat.count]
  refine List.countP_congr fun j _ => ?_
  simp [Record.time]

theorem dutyLevel_eq_volume_iff {w : PulseWave} (hgate : w.gate = false) (hvolume : w.volume ≠ 0) (n : Nat) :
    dutyLevel w n = w.volume.toNat ↔ w.dutyCycle.toNat ≤ (w.dutyPosition.toNat + n) % 16 := by
  have hpos : 0 ≠ w.volume.toNat := fun h => hvolume (BitVec.eq_of_toNat_eq h.symm)
  simp [dutyLevel, hgate, hpos]

theorem dutyLevel_eq_zero_iff {w : PulseWave} (hgate : w.gate = false) (hvolume : w.volume ≠ 0) (n : Nat) :
    dutyLevel w n = 0 ↔ ¬ w.dutyCycle.toNat ≤ (w.dutyPosition.toNat + n) % 16 := by
  have hpos : w.volume.toNat ≠ 0 := fun h => hvolume (BitVec.eq_of_toNat_eq h)
  simp [dutyLevel, hgate, hpos]

/-- Settles O24: the 16 records compare each duty position once. -/
theorem dutyTable : Obligations.DutyTable := by
  intro k d s harmed hgate hvolume hexpiries
  have hcount : expiryCount d (s.pulse k).toChannel = 16 := (if_pos harmed).trans hexpiries
  refine ⟨_, drainedRecords d (.pulse k) s, exec_oscProcessInstr (.pulse k) d s, ?_,
    (length_drainedRecords d (.pulse k) s).trans hcount, ?_, ?_⟩
  · have hown : ofChannel (s.pulse k).ch (drainedRecords d (.pulse k) s) = drainedRecords d (.pulse k) s :=
      ofChannel_eq_self fun _ => channel_of_mem_drainedRecords
    rw [Gained, channelTrace_loneProcess, hown]
  · rw [drainedRecords_pulse, hcount, countP_level_eq]
    simp only [dutyLevel_eq_volume_iff hgate hvolume]
    exact count_duty _ _
  · have hlt := (s.pulse k).dutyCycle.isLt
    rw [drainedRecords_pulse, hcount, countP_level_eq]
    simp only [dutyLevel_eq_zero_iff hgate hvolume]
    have hsum := count_add_count_not
      (fun j => (s.pulse k).dutyCycle.toNat ≤ ((s.pulse k).dutyPosition.toNat + (j + 1)) % 16) 16
    rw [count_duty] at hsum
    omega

/-! ### Whole periods of the divider -/

/-- A slice of `m` reload periods brings an Armed oscillator's divider back after `m` expiries (40_framework.md R106), where the
countdown is one of the current period. -/
theorem afterProcess_periods {c : Channel} (ha : c.operating = .armed) (hpos : 1 ≤ c.divider)
    (hle : c.divider ≤ c.frequency.toNat + 1) {m : Nat} (hm : 0 < m) :
    expiryCount (m * (c.frequency.toNat + 1)) c = m ∧
      afterProcess (m * (c.frequency.toNat + 1)) c =
        { c with elapsedTime := c.elapsedTime + m * (c.frequency.toNat + 1) } := by
  obtain ⟨n, rfl⟩ : ∃ n, m = n + 1 := ⟨m - 1, by omega⟩
  have hq : 0 < c.frequency.toNat + 1 := Nat.succ_pos _
  have hlt : c.frequency.toNat + 1 - c.divider < c.frequency.toNat + 1 := by omega
  have hge : c.divider ≤ (n + 1) * (c.frequency.toNat + 1) := hle.trans (Nat.le_mul_of_pos_left _ hm)
  have hrest : (n + 1) * (c.frequency.toNat + 1) - c.divider =
      c.frequency.toNat + 1 - c.divider + (c.frequency.toNat + 1) * n := by
    rw [Nat.add_mul, Nat.one_mul, Nat.mul_comm n]
    omega
  rw [expiryCount_of_ge ha hge, afterProcess_of_ge ha hge, hrest, Nat.add_mul_div_left _ _ hq, Nat.add_mul_mod_self_left,
    Nat.div_eq_of_lt hlt, Nat.mod_eq_of_lt hlt, Nat.sub_sub_self hle]
  exact ⟨by omega, rfl⟩

/-! ### The sawtooth on its cycle -/

/-- The sawtooth's accumulator is the one its sequence has in the cycle of 42_sawtooth.md R167. -/
def OnCycle (w : SawWave) : Prop :=
  w.resetSequence.toNat ≤ 13 ∧ w.phaseAccumulator.toNat = w.resetSequence.toNat / 2 * w.phaseInput.toNat % 256

/-- On the cycle, the sequence and the input say the rest. -/
theorem OnCycle.unique {w w' : SawWave} (h : OnCycle w) (h' : OnCycle w') (hinput : w'.phaseInput = w.phaseInput)
    (hsequence : w'.resetSequence = w.resetSequence) : w' = w := by
  obtain ⟨a, i, q⟩ := w
  obtain ⟨a', i', q'⟩ := w'
  subst hinput hsequence
  obtain rfl : a' = a := BitVec.eq_of_toNat_eq (h'.2.trans h.2.symm)
  rfl

theorem resetSequence_eq_thirteen_iff (w : SawWave) : w.resetSequence + 1 = 14#4 ↔ w.resetSequence.toNat = 13 := by
  bv_omega

theorem accumulate_toNat (w : SawWave) :
    w.accumulate.toNat =
      if w.resetSequence.toNat % 2 = 1 then (w.phaseAccumulator.toNat + w.phaseInput.toNat) % 256
      else w.phaseAccumulator.toNat := by
  have hodd : w.resetSequence.getLsbD 0 = decide (w.resetSequence.toNat % 2 = 1) := by
    rw [BitVec.getLsbD, Nat.testBit_zero]
  unfold SawWave.accumulate
  simp only [hodd, decide_eq_true_eq]
  split
  · rw [BitVec.toNat_add, BitVec.toNat_setWidth, Nat.add_mod_mod]
  · rfl

/-- On the cycle, the accumulator has the input once for each odd step so far. -/
theorem accumulate_toNat_of_onCycle {w : SawWave} (h : OnCycle w) :
    w.accumulate.toNat = (w.resetSequence.toNat + 1) / 2 * w.phaseInput.toNat % 256 := by
  rw [accumulate_toNat, h.2]
  split
  · have hhalf : (w.resetSequence.toNat + 1) / 2 = w.resetSequence.toNat / 2 + 1 := by omega
    rw [hhalf, Nat.mod_add_mod, Nat.add_mul, Nat.one_mul]
  · have hhalf : (w.resetSequence.toNat + 1) / 2 = w.resetSequence.toNat / 2 := by omega
    rw [hhalf]

/-- The 14th step forces zero (42_sawtooth.md R164). -/
theorem expire_of_last {w : SawWave} (h : w.resetSequence.toNat = 13) :
    w.expire = { w with phaseAccumulator := 0, resetSequence := 0 } :=
  if_pos ((resetSequence_eq_thirteen_iff w).2 h)

/-- Every other step accumulates (42_sawtooth.md R164). -/
theorem expire_of_ne_last {w : SawWave} (h : w.resetSequence.toNat ≠ 13) :
    w.expire = { w with phaseAccumulator := w.accumulate, resetSequence := w.resetSequence + 1 } :=
  if_neg fun hlast => h ((resetSequence_eq_thirteen_iff w).1 hlast)

/-- An expiry keeps the sawtooth on its cycle and takes the sequence one on (42_sawtooth.md R164). -/
theorem onCycle_expire {w : SawWave} (h : OnCycle w) :
    OnCycle w.expire ∧ w.expire.phaseInput = w.phaseInput ∧
      w.expire.resetSequence.toNat = (w.resetSequence.toNat + 1) % 14 := by
  by_cases hlast : w.resetSequence.toNat = 13
  · rw [expire_of_last hlast, hlast]
    exact ⟨⟨Nat.zero_le 13, by simp⟩, rfl, rfl⟩
  · have hlt : w.resetSequence.toNat < 13 := Nat.lt_of_le_of_ne h.1 hlast
    have hnext : (w.resetSequence + 1).toNat = w.resetSequence.toNat + 1 := by bv_omega
    rw [expire_of_ne_last hlast]
    refine ⟨⟨hnext ▸ hlt, ?_⟩, rfl, ?_⟩
    · simp only [hnext]
      exact accumulate_toNat_of_onCycle h
    · rw [hnext, Nat.mod_eq_of_lt (Nat.succ_lt_succ hlt)]

theorem onCycle_expireTimes {w : SawWave} (h : OnCycle w) (n : Nat) :
    OnCycle (expireTimes SawWave.expire n w) ∧ (expireTimes SawWave.expire n w).phaseInput = w.phaseInput ∧
      (expireTimes SawWave.expire n w).resetSequence.toNat = (w.resetSequence.toNat + n) % 14 := by
  induction n with
  | zero => exact ⟨h, rfl, (Nat.mod_eq_of_lt (Nat.lt_succ_of_le h.1)).symm⟩
  | succ n ih =>
    obtain ⟨hcycle, hinput, hsequence⟩ := ih
    obtain ⟨hcycle', hinput', hsequence'⟩ := onCycle_expire hcycle
    rw [expireTimes_succ]
    refine ⟨hcycle', hinput'.trans hinput, ?_⟩
    rw [hsequence', hsequence, Nat.mod_add_mod, Nat.add_assoc]

/-- 14 expiries bring a sawtooth on its cycle back (42_sawtooth.md R167). -/
theorem expireTimes_fourteen {w : SawWave} (h : OnCycle w) : expireTimes SawWave.expire 14 w = w := by
  obtain ⟨hcycle, hinput, hsequence⟩ := onCycle_expireTimes h 14
  refine h.unique hcycle hinput (BitVec.eq_of_toNat_eq ?_)
  rw [hsequence, Nat.add_mod_right, Nat.mod_eq_of_lt (Nat.lt_succ_of_le h.1)]

/-! ### The waveform periods -/

/-- 16 expiries bring a pulse's duty position back (41_pulse.md R138). -/
theorem expireTimes_sixteen (w : PulseWave) : expireTimes PulseWave.expire 16 w = w := by
  rw [expireTimes_pulse, show BitVec.ofNat 4 16 = 0#4 from rfl, BitVec.add_zero]

/-- Where `m` expiries bring a wave back, so do the `m` reload periods that hold them, all but the time. -/
theorem processChannel_periods {ω : Type} {expire : ω → ω} (level : ω → Nat) {c : Channel} {w : ω} {m : Nat}
    (ha : c.operating = .armed) (hpos : 1 ≤ c.divider) (hle : c.divider ≤ c.frequency.toNat + 1) (hm : 0 < m)
    (hw : expireTimes expire m w = w) :
    ∃ records, processChannel expire level (m * (c.frequency.toNat + 1)) c w =
      { chan := { c with elapsedTime := c.elapsedTime + m * (c.frequency.toNat + 1) }, wave := w, records := records } := by
  obtain ⟨hcount, hchannel⟩ := afterProcess_periods ha hpos hle hm
  rw [processChannel_eq, hcount, hchannel, hw]
  exact ⟨_, rfl⟩

/-- Settles O25: the divider is back after every reload period, the duty position after 16 of them, a sawtooth on its cycle after
14. -/
theorem waveformPeriods : Obligations.WaveformPeriods := by
  refine ⟨fun k s harmed hpos hle => ⟨_, exec_oscProcessInstr (.pulse k) _ s, ?pulse⟩,
    fun s harmed hsequence hpos hle haccumulator => ⟨_, exec_oscProcessInstr .saw _ s, ?saw⟩⟩
  case pulse =>
    obtain ⟨records, h⟩ := processChannel_periods PulseWave.level ((armed_iff s (.pulse k)).1 harmed) hpos hle (by decide)
      (expireTimes_sixteen (s.pulse k).toPulseWave)
    exact (pulse_loneProcess _ k s).trans (congrArg Drained.toPulse h)
  case saw =>
    obtain ⟨records, h⟩ := processChannel_periods SawWave.level ((armed_iff s .saw).1 harmed) hpos hle (by decide)
      (expireTimes_fourteen (w := s.ps.saw.toSawWave) ⟨hsequence, haccumulator⟩)
    exact (saw_loneProcess _ s).trans (congrArg Drained.toSaw h)

end Sys2Proof.Proofs.Waveforms
end

/-! ## The sawtooth's `process` and its 14-expiry cycle (42_sawtooth.md R164, R167) -/

section
namespace Sys2Proof.Proofs.Sawtooth

open Sys2Proof.Machine Sys2Proof.Proofs.Process Sys2Proof.Proofs.Waveforms

/-! ### The expiry as arithmetic -/

/-- A sawtooth's accumulator and sequence as numbers. -/
def wavePair (w : SawWave) : Nat × Nat := (w.phaseAccumulator.toNat, w.resetSequence.toNat)

theorem sawPair_eq_wavePair (s : State) : sawPair s = wavePair s.ps.saw.toSawWave := rfl

theorem level_eq_wavePair (w : SawWave) : w.level = (wavePair w).1 / 8 := by
  rw [SawWave.level, BitVec.toNat_ushiftRight, Nat.shiftRight_eq_div_pow]
  rfl

theorem phaseInput_expire (w : SawWave) : w.expire.phaseInput = w.phaseInput := by
  unfold SawWave.expire
  split <;> rfl

theorem phaseInput_expireTimes (n : Nat) (w : SawWave) : (expireTimes SawWave.expire n w).phaseInput = w.phaseInput := by
  induction n with
  | zero => rfl
  | succ n ih => rw [expireTimes_succ, phaseInput_expire, ih]

/-- The 14th step forces zero. -/
theorem sawStep_of_last {p : Nat} {x : Nat × Nat} (h : x.2 = 13) : sawStep p x = (0, 0) :=
  if_pos h

/-- Every other step takes the sequence one on, and the odd ones accumulate. -/
theorem sawStep_of_ne_last {p : Nat} {x : Nat × Nat} (h : x.2 ≠ 13) :
    sawStep p x = (if x.2 % 2 = 1 then (x.1 + p) % 256 else x.1, x.2 + 1) :=
  if_neg h

/-- An expiry is one step of the arithmetic, the sequence being one that is reached (10_state.md R28). -/
theorem wavePair_expire {w : SawWave} (h : w.resetSequence.toNat ≤ 13) :
    wavePair w.expire = sawStep w.phaseInput.toNat (wavePair w) := by
  by_cases hlast : w.resetSequence.toNat = 13
  · rw [expire_of_last hlast, sawStep_of_last (x := wavePair w) hlast]
    rfl
  · have hnext : (w.resetSequence + 1).toNat = w.resetSequence.toNat + 1 := by bv_omega
    rw [expire_of_ne_last hlast, sawStep_of_ne_last (x := wavePair w) hlast]
    exact Prod.ext (accumulate_toNat w) hnext

/-! ### Steps in a row -/

theorem snd_sawStep (p : Nat) {x : Nat × Nat} (h : x.2 ≤ 13) : (sawStep p x).2 = (x.2 + 1) % 14 := by
  by_cases hlast : x.2 = 13
  · rw [sawStep_of_last hlast, hlast]
  · rw [sawStep_of_ne_last hlast]
    exact (Nat.mod_eq_of_lt (by omega)).symm

theorem snd_iterate_sawStep (p n : Nat) {x : Nat × Nat} (h : x.2 ≤ 13) :
    ((sawStep p)^[n] x).2 = (x.2 + n) % 14 := by
  induction n with
  | zero => exact (Nat.mod_eq_of_lt (Nat.lt_succ_of_le h)).symm
  | succ n ih =>
    rw [Function.iterate_succ_apply', snd_sawStep p (by omega), ih, Nat.mod_add_mod, Nat.add_assoc]

/-- Half of the sequence, rounded down, counts the odd steps so far. -/
theorem accumulated_succ (a p n : Nat) :
    (if n % 2 = 1 then ((a + n / 2 * p) % 256 + p) % 256 else (a + n / 2 * p) % 256) = (a + (n + 1) / 2 * p) % 256 := by
  split
  · have hhalf : (n + 1) / 2 = n / 2 + 1 := by omega
    rw [hhalf, Nat.mod_add_mod, Nat.add_mul, Nat.one_mul, Nat.add_assoc]
  · have hhalf : (n + 1) / 2 = n / 2 := by omega
    rw [hhalf]

/-- The first 13 steps from sequence 0 only accumulate. -/
theorem iterate_sawStep_of_start (p : Nat) {a n : Nat} (ha : a < 256) (hn : n ≤ 13) :
    (sawStep p)^[n] (a, 0) = ((a + n / 2 * p) % 256, n) := by
  induction n with
  | zero => simp [Nat.mod_eq_of_lt ha]
  | succ n ih =>
    rw [Function.iterate_succ_apply', ih (Nat.le_of_succ_le hn), sawStep_of_ne_last (x := (_, n)) (Nat.ne_of_lt hn)]
    exact congrArg (·, n + 1) (accumulated_succ a p n)

/-- From any sequence the forced zero comes after what is left of the 14 steps. -/
theorem iterate_sawStep_to_zero (p : Nat) {x : Nat × Nat} (h : x.2 ≤ 13) : (sawStep p)^[14 - x.2] x = (0, 0) := by
  rw [Nat.succ_sub h, Function.iterate_succ_apply']
  refine sawStep_of_last ?_
  rw [snd_iterate_sawStep p _ h]
  omega

/-- 14 steps pass the forced zero once: they leave what the steps after it make of zero. -/
theorem iterate_sawStep_fourteen (p : Nat) {x : Nat × Nat} (h : x.2 ≤ 13) :
    (sawStep p)^[14] x = (sawStep p)^[x.2] (0, 0) := by
  have hsplit : 14 = x.2 + (14 - x.2) := by omega
  rw [← iterate_sawStep_to_zero p h, ← Function.iterate_add_apply, ← hsplit]

/-- The table of 42_sawtooth.md R167: the first 14 steps from sequence 0. -/
theorem iterate_sawStep_table (p : Nat) {a n : Nat} (ha : a < 256) (hn : n ≤ 14) :
    (sawStep p)^[n] (a, 0) = (if n = 14 then 0 else (a + n / 2 * p) % 256, n % 14) := by
  by_cases hlast : n = 14
  · rw [if_pos hlast, hlast]
    exact iterate_sawStep_to_zero p (x := (a, 0)) (Nat.zero_le 13)
  · have hlt : n < 14 := Nat.lt_of_le_of_ne hn hlast
    rw [if_neg hlast, Nat.mod_eq_of_lt hlt, iterate_sawStep_of_start p ha (Nat.le_of_lt_succ hlt)]

/-- `n` expiries are `n` steps. -/
theorem wavePair_expireTimes {w : SawWave} (h : w.resetSequence.toNat ≤ 13) (n : Nat) :
    wavePair (expireTimes SawWave.expire n w) = (sawStep w.phaseInput.toNat)^[n] (wavePair w) := by
  induction n with
  | zero => rfl
  | succ n ih =>
    have hsequence : (expireTimes SawWave.expire n w).resetSequence.toNat ≤ 13 := by
      have hsnd := (congrArg Prod.snd ih).trans (snd_iterate_sawStep _ n h)
      exact hsnd.trans_le (Nat.le_of_lt_succ (Nat.mod_lt _ (by decide)))
    rw [expireTimes_succ, wavePair_expire hsequence, ih, phaseInput_expireTimes, Function.iterate_succ_apply']

/-! ### `process` -/

/-- A sawtooth after `process(d)`, in closed form. -/
theorem saw_loneProcess_eq (d : Nat) (s : State) :
    (lone (oscProcess d) .saw s).ps.saw =
      { toChannel := afterProcess d s.ps.saw.toChannel
        toSawWave := expireTimes SawWave.expire (expiryCount d s.ps.saw.toChannel) s.ps.saw.toSawWave } := by
  rw [saw_loneProcess, sawDrained, processChannel_eq]
  rfl

/-- The records of a sawtooth's `process(d)`: those of 40_framework.md R106, at an eighth of the accumulator. -/
theorem drainedRecords_saw (d : Nat) {s : State} (h : SequenceInvariant s) :
    drainedRecords d .saw s = (List.range (expiryCount d s.ps.saw.toChannel)).map fun j =>
      .level s.ps.saw.ch (((sawStep s.ps.saw.phaseInput.toNat)^[j + 1] (sawPair s)).1 / 8)
        (expiryTime s.ps.saw.toChannel j) := by
  have hrecords := congrArg Drained.records
    (processChannel_eq SawWave.expire SawWave.level d s.ps.saw.toChannel s.ps.saw.toSawWave)
  simp only [expiryRecords, level_eq_wavePair, wavePair_expireTimes h] at hrecords
  exact hrecords

/-- Settles O17: the fields are those of the closed form, and so are the records. -/
theorem sawProcess : Obligations.SawProcess := by
  intro d s hsequence
  obtain ⟨honly, hdraws⟩ := onlyOscillators_loneProcess d .saw s
  have hsaw := saw_loneProcess_eq d s
  refine ⟨_, exec_oscProcessInstr .saw d s, ?common, ?input, ?pair, fun ch => ?trace, honly, hdraws⟩
  case common => rw [hsaw]
  case input =>
    rw [hsaw]
    exact phaseInput_expireTimes _ _
  case pair =>
    rw [sawPair_eq_wavePair, hsaw]
    exact wavePair_expireTimes hsequence _
  case trace => rw [Gained, channelTrace_loneProcess, drainedRecords_saw d hsequence]

/-! ### The 14-expiry cycle -/

/-- Settles O18: `process(d)` makes the steps, and 14 of them pass the forced zero once. -/
theorem sawFourteenExpiries : Obligations.SawFourteenExpiries := by
  refine ⟨fun n d s harmed hstart hn hexpiries => ?first, fun d s harmed hsequence hexpiries => ?any⟩
  case first =>
    have hcount : expiryCount d s.ps.saw.toChannel = n := (if_pos harmed).trans hexpiries
    have hzero : s.ps.saw.resetSequence.toNat = 0 := congrArg BitVec.toNat hstart
    have hpairs : sawPair s = (s.ps.saw.phaseAccumulator.toNat, 0) := Prod.ext rfl hzero
    have htable := fun m => iterate_sawStep_table s.ps.saw.phaseInput.toNat (n := m) s.ps.saw.phaseAccumulator.isLt
    obtain ⟨t, hexec, -, -, hpair, htrace, -⟩ := sawProcess d s (hzero.trans_le (Nat.zero_le 13))
    rw [hcount, hpairs, htable n hn] at hpair
    rw [hcount, hpairs] at htrace
    refine ⟨t, hexec, congrArg Prod.fst hpair, congrArg Prod.snd hpair, fun ch => ?_⟩
    convert htrace ch using 2
    refine List.map_congr_left fun j hj => ?_
    rw [htable (j + 1) (Nat.lt_of_lt_of_le (List.mem_range.1 hj) hn)]
    by_cases hlast : j = 13 <;> simp [hlast]
  case any =>
    have hcount : expiryCount d s.ps.saw.toChannel = 14 := (if_pos harmed).trans hexpiries
    obtain ⟨t, hexec, -, -, hpair, -⟩ := sawProcess d s hsequence
    rw [hcount] at hpair
    have hback : t.ps.saw.resetSequence.toNat = (s.ps.saw.resetSequence.toNat + 14) % 14 :=
      (congrArg Prod.snd hpair).trans (snd_iterate_sawStep _ 14 hsequence)
    refine ⟨t, hexec, BitVec.eq_of_toNat_eq ?_, hpair.trans (iterate_sawStep_fourteen _ hsequence)⟩
    rw [hback, Nat.add_mod_right, Nat.mod_eq_of_lt (Nat.lt_succ_of_le hsequence)]

end Sys2Proof.Proofs.Sawtooth
end

/-! ## The chips' unmapped addresses (43_pulsesaw_chip.md R191, R192, 44_pulsemul_chip.md R211, 20_memory.md R57, R58) -/

section
namespace Sys2Proof.Proofs.Unmapped

open Sys2Proof.Machine Sys2Proof.Proofs.Codec

theorem psTarget_eq_none {cfg : Config} {a : Addr}
    (h : ∀ r ∈ psRegions cfg, ¬ (r.1 ≤ a.toNat ∧ a.toNat < r.1 + r.2)) : psTarget cfg a = none := by
  simp only [psRegions, List.forall_mem_cons] at h
  obtain ⟨hp1, hp2, hsaw, -⟩ := h
  rw [psTarget, if_neg (by omega), if_neg (by omega), if_neg (by omega)]

theorem pmTarget_eq_none {cfg : Config} {a : Addr}
    (h : ∀ r ∈ pmRegions cfg, ¬ (r.1 ≤ a.toNat ∧ a.toNat < r.1 + r.2)) : pmTarget cfg a = none := by
  simp only [pmRegions, List.forall_mem_cons] at h
  obtain ⟨hp1, hp2, hlo, hhi, haux, -⟩ := h
  rw [pmTarget, if_neg (by omega), if_neg (by omega), if_neg (by omega), if_neg (by omega), if_neg haux]

/-- Settles O6: outside its regions a chip's map selects nothing, and the row for that does nothing. -/
theorem unmappedWrites : Obligations.UnmappedWrites := by
  intro a v s
  refine ⟨fun hps => ⟨?_, rfl⟩, fun hpm => ⟨?_, rfl⟩⟩
  · rw [decode_busWrite, decodeWrite, decodePsWrite, psTarget_eq_none hps]
  · rw [decode_busWrite, decodeWrite, decodePmWrite, pmTarget_eq_none hpm]

/-- Settles O7: a PulseSawChip decodes every read word to the one read, which answers "not mapped". -/
theorem psReadNeverMapped : Obligations.PsReadNeverMapped := by
  intro a v s
  refine ⟨?_, s.answer unmappedResult, unmappedResult, rfl, onlyAnswered_answer unmappedResult s, rfl⟩
  rw [decode_busReadWord s.cfg .pulseSaw a.isLt v.isLt, BitVec.ofNat_toNat, BitVec.setWidth_eq, decodeRead]

end Sys2Proof.Proofs.Unmapped
end

/-! ## The chips' calls: process, reset and endFrame (43_pulsesaw_chip.md R193 to R196, 44_pulsemul_chip.md R218 to R220) -/

section
namespace Sys2Proof.Proofs.ChipCalls

open Sys2Proof.Machine Sys2Proof.Proofs.Times Sys2Proof.Proofs.RegisterWrites Sys2Proof.Proofs.FanOut
open Sys2Proof.Proofs.ChipBatching Sys2Proof.Proofs.Instructions

/-! ### process -/

/-- Settles O26: the fan-out, the `now` it keeps and the cycles it gives each oscillator, each by its own lemma. -/
theorem chipProcess : Obligations.ChipProcess := by
  intro c d s
  obtain ⟨-, -, hnows, -⟩ := restKept_chipProcess d c s
  exact ⟨_, exec_processInstr c d s, Partitioner.chipProcessed_chipProcess c d s, hnows, timesMapped_chipProcess c d s⟩

/-! ### Frames -/

theorem oscKept_of_fields {s t : State} (hpulse : ∀ k, t.pulse k = s.pulse k) (hsaw : t.ps.saw = s.ps.saw) (o : OscId) :
    OscKept o s t :=
  match o with
  | .pulse k => hpulse k
  | .saw => hsaw

theorem zeroOsc_of_oscKept {o : OscId} {ch : Nat} {s t : State} (h : OscKept o s t) (hs : ZeroOsc o ch s) :
    ZeroOsc o ch t := by
  cases o with
  | pulse k => exact Eq.trans h hs
  | saw => exact Eq.trans h hs

theorem waveKept_of_oscKept {o : OscId} {s m t : State} (hsm : WaveKept o s m) (hmt : OscKept o m t) :
    WaveKept o s t := by
  cases o with
  | pulse k => exact (congrArg PulseOscillator.toPulseWave hmt).trans hsm
  | saw => exact (congrArg SawtoothOscillator.toSawWave hmt).trans hsm

theorem onlyOscillators_refl (s : State) : OnlyOscillators [] s s :=
  ⟨fun o _ => oscKept_of_fields (fun _ => rfl) rfl o, rfl, fun _ => rfl, ⟨rfl, rfl⟩, ⟨rfl, rfl, rfl⟩, rfl⟩

theorem onlyOscillators_trans {l l' : List OscId} {s m t : State} (hsm : OnlyOscillators l s m)
    (hmt : OnlyOscillators l' m t) : OnlyOscillators (l ++ l') s t := by
  obtain ⟨hothers, hmul, hmemory, ⟨hpsNow, hpmNow⟩, ⟨hcfg, hprogram, hpos⟩, hreads⟩ := hsm
  obtain ⟨hothers', hmul', hmemory', ⟨hpsNow', hpmNow'⟩, ⟨hcfg', hprogram', hpos'⟩, hreads'⟩ := hmt
  refine ⟨fun o ho => ?_, hmul'.trans hmul, fun i => (hmemory' i).trans (hmemory i),
    ⟨hpsNow'.trans hpsNow, hpmNow'.trans hpmNow⟩,
    ⟨hcfg'.trans hcfg, hprogram'.trans hprogram, hpos'.trans hpos⟩, hreads'.trans hreads⟩
  rw [List.mem_append, not_or] at ho
  exact oscKept_trans (hothers o ho.1) (hothers' o ho.2)

theorem onlyOscillators_countDraw {l : List OscId} {s t : State} (h : OnlyOscillators l s t) :
    OnlyOscillators l s t.countDraw := by
  obtain ⟨hothers, hrest⟩ := h
  exact ⟨fun o ho => oscKept_trans (hothers o ho) (oscKept_of_fields (fun _ => rfl) rfl o), hrest⟩

/-! ### What a fanned-out call does to each oscillator and to nothing else -/

section
variable {f : OscId → State → State × List Record}

theorem onlyOscillators_ownCall (hf : OwnCall f) (o : OscId) (s : State) : OnlyOscillators [o] s (f o s).1 := by
  obtain ⟨p, w, rfl⟩ := hf
  cases o with
  | pulse k => exact onlyOscillators_setPulse k _ s
  | saw => exact onlyOscillators_setSaw _ s

theorem onlyOscillators_fanOut (hf : OwnCall f) (l : List OscId) (s : State) :
    OnlyOscillators l s (fanOut f l s).1 := by
  induction l generalizing s with
  | nil => exact onlyOscillators_refl s
  | cons o l ih => exact onlyOscillators_trans (onlyOscillators_ownCall hf o s) (ih _)

/-- The oscillator is as the call on it alone leaves it: the fan-out might as well begin with it. -/
theorem oscKept_fanOut (hf : OwnCall f) {l : List OscId} (hl : l.Nodup) {o : OscId} (ho : o ∈ l) (s : State) :
    OscKept o (f o s).1 (fanOut f l s).1 := by
  have hfirst : (fanOut f l s).1 = (fanOut f (l.erase o) (f o s).1).1 :=
    hf.fanOut_state_perm (List.perm_cons_erase ho) s
  obtain ⟨hothers, -⟩ := onlyOscillators_fanOut hf (l.erase o) (f o s).1
  rw [hfirst]
  exact hothers o hl.not_mem_erase

theorem onlyOscillators_fanCall (hf : OwnCall f) (c : Chip) (s : State) :
    OnlyOscillators (oscillators c) s (fanCall f c s) :=
  onlyOscillators_countDraw (onlyOscillators_send (onlyOscillators_fanOut hf _ s) _)

theorem oscKept_fanCall (hf : OwnCall f) {c : Chip} {o : OscId} (ho : o ∈ oscillators c) (s : State) :
    OscKept o (f o s).1 (fanCall f c s) :=
  oscKept_trans (oscKept_fanOut hf (nodup_oscillators c) ho s)
    (oscKept_of_fields (fun k => by simp [fanCall]) (by simp [fanCall]) o)

end

/-! ### reset -/

/-- The multiplier after a chip's reset: cleared with the PulseMulChip it belongs to (44_pulsemul_chip.md R220). -/
def mulAfterReset : Chip → MultiplierUnit → MultiplierUnit
  | .pulseSaw, u => u
  | .pulseMul, _ => { mulA := 0, mulB := 0 }

theorem chipReset_eq (c : Chip) (s : State) :
    chipReset c s = (fanCall oscReset c s).setMul (mulAfterReset c s.pm.mul) := by
  cases c <;> rfl

/-- The reset of the multiplier and of `now` touches no oscillator. -/
theorem oscKept_setMul_setNow (u : MultiplierUnit) (c : Chip) (time : Nat) (s : State) (o : OscId) :
    OscKept o s ((s.setMul u).setNow c time) :=
  oscKept_of_fields (fun k => by simp) (by simp) o

theorem zeroOsc_oscReset (o : OscId) (s : State) : ZeroOsc o (s.channel o).ch (oscReset o s).1 := by
  rw [← loneReset_eq]
  exact OscillatorCalls.zeroOsc_loneReset o s

/-- RESET and RST do the same to a chip (30_encoding.md R72, 40_framework.md R118). -/
theorem exec_of_reset_or_rst {c : Chip} {i : Instr} (h : i = resetInstr c ∨ i = .rst c) (s : State) :
    exec i s = .next ((chipReset c s).setNow c 0) := by
  rcases h with rfl | rfl
  · exact exec_resetInstr c s
  · rfl

/-- Settles O32: the chip's call resets each of its oscillators, and the multiplier and `now` are set beside it. -/
theorem chipReset : Obligations.ChipReset := by
  intro c i s hi
  obtain ⟨hothers, -, hmemory, -, hdriver, hreads⟩ := onlyOscillators_fanCall ownCall_oscReset c s
  refine ⟨_, exec_of_reset_or_rst hi s, ?zero, ?others, ?cleared, ?mul, State.now_setNow_same _ c 0, ?now, ?memory, ?sink,
    ?driver, ?reads⟩
  case now =>
    intro c' hc
    rw [State.now_setNow_of_ne _ c 0 c' hc, now_chipReset]
  case sink => rw [State.setNow_sink, sink_chipReset]
  all_goals rw [chipReset_eq]
  case zero =>
    intro o ho
    exact zeroOsc_of_oscKept
      (oscKept_trans (oscKept_fanCall ownCall_oscReset ho s) (oscKept_setMul_setNow _ c 0 _ o)) (zeroOsc_oscReset o s)
  case others => exact fun o ho => oscKept_trans (hothers o ho) (oscKept_setMul_setNow _ c 0 _ o)
  case cleared =>
    rintro rfl
    exact ⟨rfl, rfl⟩
  case mul =>
    rintro rfl
    rfl
  case memory => simpa [MemoryKept] using hmemory
  case driver => simpa [DriverKept] using hdriver
  case reads => simpa using hreads

/-! ### endFrame -/

/-- Settles O34: each oscillator is as its own `endFrame` leaves it. -/
theorem chipEndFrame : Obligations.ChipEndFrame := by
  intro c s
  refine ⟨_, exec_endFrameInstr c s, fun o ho => ?_, channelTrace_chipEndFrame c s,
    onlyOscillators_fanCall ownCall_oscEndFrame c s⟩
  have hkept := oscKept_fanCall ownCall_oscEndFrame ho s
  have hchannel := channel_of_oscKept hkept
  rw [oscEndFrame, State.channel_setChannel_same, endFrame_eq] at hchannel
  exact ⟨waveKept_of_oscKept (waveKept_setChannel o _ s) hkept, hchannel⟩

end Sys2Proof.Proofs.ChipCalls
end

/-! ## The auxiliary memory over a step (10_state.md R36, 44_pulsemul_chip.md R213) -/

section
namespace Sys2Proof.Proofs.MemoryInvariants

open Sys2Proof.Machine Sys2Proof.Proofs.Commands Sys2Proof.Proofs.Edits Sys2Proof.Proofs.FanOut

/-! ### Calls that leave the memory alone -/

section
variable {f : OscId → State → State × List Record}

theorem aux_ownCall (hf : OwnCall f) (o : OscId) (s : State) : (f o s).1.pm.aux = s.pm.aux := by
  obtain ⟨p, w, rfl⟩ := hf
  cases o with
  | pulse k => exact State.setPulse_aux s k _
  | saw => rfl

theorem aux_lone (hf : OwnCall f) (o : OscId) (s : State) : (lone f o s).pm.aux = s.pm.aux := by
  rw [lone, State.send_pm, aux_ownCall hf]

theorem aux_fanOut (hf : OwnCall f) (l : List OscId) (s : State) : (fanOut f l s).1.pm.aux = s.pm.aux := by
  induction l generalizing s with
  | nil => rfl
  | cons o l ih => exact (ih _).trans (aux_ownCall hf o s)

theorem aux_fanCall (hf : OwnCall f) (c : Chip) (s : State) : (fanCall f c s).pm.aux = s.pm.aux := by
  rw [fanCall, State.countDraw_pm, State.send_pm, aux_fanOut hf]

end

/-- A chip's reset keeps the memory (44_pulsemul_chip.md R220). -/
theorem aux_chipReset (c : Chip) (s : State) : (chipReset c s).pm.aux = s.pm.aux := by
  rw [ChipCalls.chipReset_eq, State.setMul_aux, aux_fanCall ownCall_oscReset]

theorem aux_advanceTo (c : Chip) (time : Nat) (s : State) : (advanceTo c time s).pm.aux = s.pm.aux := by
  rw [advanceTo, State.setNow_pm, chipProcess, aux_fanCall (ownCall_oscProcess _)]

theorem aux_endFrameNow (c : Chip) (s : State) : (s.endFrameNow c).pm.aux = s.pm.aux := by
  unfold State.endFrameNow
  split
  · rfl
  · rw [State.setNow_pm]

theorem aux_frameEndAt (c : Chip) (time : Nat) (s : State) : (frameEndAt c time s).pm.aux = s.pm.aux := by
  rw [frameEndAt, aux_endFrameNow, chipEndFrame, aux_fanCall ownCall_oscEndFrame, aux_advanceTo]

/-! ### Commands -/

/-- All that can happen to the memory: nothing, or one store at an index it has a byte for. -/
inductive AuxChange (s t : State) : Prop where
  | kept (h : t.pm.aux = s.pm.aux)
  | stored (n : Nat) (v : Byte) (hn : n < s.cfg.pmAuxSize) (h : t.pm.aux = Memory.insert n v s.pm.aux)

theorem auxChange_of_wrote {s t : State} (h : Wrote s t) : AuxChange s t := by
  cases h with
  | nothing | rate | mulA | mulB => exact .kept rfl
  | ctrl k v => exact .kept (by simp [writeCtrl])
  | freqLo o v | freqHi o v => exact .kept (State.setChannel_aux s o _)
  | aux n v hn => exact .stored n v hn rfl

/-- Whatever the command, the memory takes at most one store; only a write can make it. -/
theorem auxChange_of_performed {s t : State} {cmd : Command} (h : Performed s cmd t) : AuxChange s t := by
  cases h with
  | busWrite _ _ _ hw | oscWrite _ _ _ _ hw => exact auxChange_of_wrote hw
  | busRead | partRead => exact .kept rfl
  | process c d => exact .kept (aux_fanCall (ownCall_oscProcess d) c s)
  | reset c | partReset c => exact .kept (by rw [State.setNow_pm, aux_chipReset])
  | endFrame c => exact .kept (aux_fanCall ownCall_oscEndFrame c s)
  | partWrite c time _ _ _ _ hw =>
    have hcfg := FreqPseudo.cfg_advanceTo c time s
    have haux := aux_advanceTo c time s
    cases auxChange_of_wrote hw with
    | kept h => exact .kept (h.trans haux)
    | stored n v hn h => exact .stored n v (hcfg ▸ hn) (haux ▸ h)
  | partEndFrame c time _ => exact .kept (aux_frameEndAt c time s)
  | oscProcess o d => exact .kept (aux_lone (ownCall_oscProcess d) o s)
  | oscReset o => exact .kept (aux_lone ownCall_oscReset o s)
  | oscEndFrame o => exact .kept (aux_lone ownCall_oscEndFrame o s)

/-! ### The step -/

theorem memoryInvariant_of_auxChange {s t : State} (h : AuxChange s t) (hcfg : t.cfg = s.cfg) (hs : MemoryInvariant s) :
    MemoryInvariant t := by
  rw [MemoryInvariant, hcfg]
  cases h with
  | kept h => exact h ▸ hs
  | stored n v hn h => exact h ▸ Memory.wf_insert v hn hs

/-- Settles O52: a step makes at most one store, at an index below the size, and a store inserts in order. -/
theorem stepKeepsMemoryCanonical : Obligations.StepKeepsMemoryCanonical := by
  intro s t hs hstep
  rcases step_performed hstep with rfl | ⟨cmd, u, -, -, hu, rfl⟩
  · exact hs
  · obtain ⟨hcfg, -, -⟩ := (edited_of_performed hu).driver
    have hmemory : MemoryInvariant u := memoryInvariant_of_auxChange (auxChange_of_performed hu) hcfg hs
    exact hmemory

end Sys2Proof.Proofs.MemoryInvariants
end

/-! ## The multiplier and the memory on the bus (44_pulsemul_chip.md R212 to R217, 20_memory.md R57, R58, R61) -/

section
namespace Sys2Proof.Proofs.PulseMulBus

open Sys2Proof.Machine Sys2Proof.Proofs.ChipCalls

/-! ### Unmapped reads -/

/-- The read map has three regions: the registers of the write map are none of them (44_pulsemul_chip.md R214). -/
theorem pmReadTarget_eq_none {cfg : Config} {a : Addr} (hlo : a.toNat ≠ cfg.pmMulLo) (hhi : a.toNat ≠ cfg.pmMulHi)
    (haux : ¬ (cfg.pmAuxBase ≤ a.toNat ∧ a.toNat < cfg.pmAuxBase + cfg.pmAuxSize)) : pmReadTarget cfg a = none := by
  rcases ht : pmReadTarget cfg a with _ | (⟨o, n⟩ | _ | _ | n)
  · rfl
  · exact absurd ht (DecodedWellFormed.pmReadTarget_ne_reg cfg a o n)
  · exact absurd (pmTarget_mulLo (pmTarget_of_pmReadTarget ht)) hlo
  · exact absurd (pmTarget_mulHi (pmTarget_of_pmReadTarget ht)) hhi
  · obtain ⟨hn, ha⟩ := pmTarget_aux (pmTarget_of_pmReadTarget ht)
    omega

/-- A read word's `V` is ignored (30_encoding.md R71). -/
theorem decode_busRead_anyData (cfg : Config) (c : Chip) (a : Addr) (v : Byte) :
    decode cfg (.bus c (busReadWord a.toNat + v.toNat)) = .ok (decodeRead cfg c a) := by
  rw [decode_busReadWord cfg c a.isLt v.isLt, BitVec.ofNat_toNat, BitVec.setWidth_eq]

/-- Settles O8: outside the three regions the read map selects nothing, and the row for that answers "not mapped". -/
theorem pmReadUnmapped : Obligations.PmReadUnmapped := by
  intro a v s hlo hhi haux
  refine ⟨?_, s.answer unmappedResult, unmappedResult, rfl, onlyAnswered_answer unmappedResult s, rfl⟩
  rw [decode_busRead_anyData, decodeRead, decodePmRead, pmReadTarget_eq_none hlo hhi haux]

/-! ### The multiplier -/

theorem othersKept_setMul (u : MultiplierUnit) (s : State) : OthersKept [] s (s.setMul u) :=
  fun o _ => oscKept_of_fields (State.setMul_pulse s u) rfl o

/-- Settles O9: each write replaces the multiplier unit by one with the other operand as it was. -/
theorem mulOperandWrites : Obligations.MulOperandWrites := by
  intro v s
  exact ⟨⟨writeMulA v s, rfl, rfl, rfl, othersKept_setMul _ s, fun _ => rfl, ⟨rfl, rfl⟩, ⟨rfl, rfl, rfl⟩, rfl, rfl, rfl⟩,
    ⟨writeMulB v s, rfl, rfl, rfl, othersKept_setMul _ s, fun _ => rfl, ⟨rfl, rfl⟩, ⟨rfl, rfl, rfl⟩, rfl, rfl, rfl⟩⟩

/-- Settles O10: the two bytes are the remainder and the quotient of the exact product by 256, so they make it up again. -/
theorem mulProductReads : Obligations.MulProductReads := by
  intro s
  have hlow := productLow_toNat s.pm.mul.mulA s.pm.mul.mulB
  have hhigh := productHigh_toNat s.pm.mul.mulA s.pm.mul.mulB
  refine ⟨_, _, _, _, rfl, onlyAnswered_answer (mulLoResult s) s, rfl, onlyAnswered_answer (mulHiResult s) s, hlow, hhigh, ?_⟩
  rw [hlow, hhigh, Nat.mod_add_div]

/-! ### The memory -/

theorem othersKept_setAux (m : Memory) (s : State) : OthersKept [] s (s.setAux m) :=
  fun o _ => oscKept_of_fields (State.setAux_pulse s m) rfl o

theorem exec_auxWrite_of_lt {n : Nat} {s : State} (hn : n < s.cfg.pmAuxSize) (v : Byte) :
    exec (.auxWrite n v) s = .next (writeAux n v s) :=
  if_pos hn

theorem exec_auxRead_of_lt {n : Nat} {s : State} (hn : n < s.cfg.pmAuxSize) :
    exec (.auxRead n) s = .next (s.answer (auxResult n s)) :=
  if_pos hn

/-- A byte never written reads as its AUX_INIT draw (20_memory.md R61). -/
theorem auxRead_of_lookup_eq_none {n : Nat} {m : Memory} (h : Memory.lookup n m = none) :
    auxRead m n = Config.auxInit n := by
  rw [auxRead, h, Option.getD_none]

/-- Settles O11: the store is an insertion, which the lookups of the other indices do not see. -/
theorem auxWriteStores : Obligations.AuxWriteStores := by
  intro n v s hn
  exact ⟨_, exec_auxWrite_of_lt hn v, auxRead_insert_same n v s.pm.aux, fun _ hj => auxRead_insert_of_ne v s.pm.aux hj,
    othersKept_setAux _ s, rfl, ⟨rfl, rfl⟩, ⟨rfl, rfl, rfl⟩, rfl, rfl, rfl⟩

/-- AUX_READ answers whatever the byte is known to read as. -/
theorem auxRead_answers {n : Nat} {s : State} (hn : n < s.cfg.pmAuxSize) {b : Byte} (hb : auxRead s.pm.aux n = b) :
    ∃ t, exec (.auxRead n) s = .next t ∧ OnlyAnswered { value := b, mapped := true } s t := by
  subst hb
  exact ⟨_, exec_auxRead_of_lt hn, onlyAnswered_answer (auxResult n s) s⟩

/-- Settles O12: what the byte reads as is its content, the value of a store just made, or the draw of a byte never written. -/
theorem auxReadLoads : Obligations.AuxReadLoads := by
  intro n s hn
  refine ⟨auxRead_answers hn rfl, fun v t ht => ?_, fun hnever => auxRead_answers hn (auxRead_of_lookup_eq_none hnever)⟩
  obtain rfl : writeAux n v s = t := Host.Outcome.next.inj ((exec_auxWrite_of_lt hn v).symm.trans ht)
  exact auxRead_answers (s := writeAux n v s) hn (auxRead_insert_same n v s.pm.aux)

end Sys2Proof.Proofs.PulseMulBus
end

/-! ## Refusals and faults (60_exceptions.md R240, R241, 40_framework.md R119, R125) -/

section
namespace Sys2Proof.Proofs.Refusals

open Sys2Proof.Machine Sys2Proof.Proofs.Commands

/-! ### The cases of R241, by command -/

/-- A `process` with a delta below 0. -/
def NegativeDelta (cmd : Command) : Prop :=
  (∃ c d, cmd = .process c d ∧ d < 0) ∨ ∃ o d, cmd = .oscProcess o d ∧ d < 0

/-- A word over 25 bits, an address over 16 bits or a data value over 8 bits. -/
def TooWide (cmd : Command) : Prop :=
  (∃ c w, cmd = .bus c w ∧ 2 ^ 25 ≤ w) ∨ (∃ c t a v, cmd = .partWrite c t a v ∧ (2 ^ 16 ≤ a ∨ 2 ^ 8 ≤ v)) ∨
    (∃ c t a, cmd = .partRead c t a ∧ 2 ^ 16 ≤ a) ∨ ∃ o n v, cmd = .oscWrite o n v ∧ 2 ^ 8 ≤ v

/-- A partitioner command, its operands in range, at a time before `now`. -/
def BelowNow (s : State) (cmd : Command) : Prop :=
  (∃ c t a v, cmd = .partWrite c t a v ∧ a < 2 ^ 16 ∧ v < 2 ^ 8 ∧ t < s.now c) ∨
    (∃ c t a, cmd = .partRead c t a ∧ a < 2 ^ 16 ∧ t < s.now c) ∨ ∃ c t, cmd = .partEndFrame c t ∧ t < s.now c

/-- A command, its delta in range, that acts on a chip's time past its partitioner in a partitioner-level program. -/
def PastPartitioner (s : State) (cmd : Command) : Prop :=
  ∃ c, (∃ p ∈ s.program, isPartitionerCommand c p = true) ∧
    ((∃ d, cmd = .process c d ∧ 0 ≤ d) ∨ cmd = .endFrame c ∨
      ∃ o, oscChip o = c ∧ ((∃ d, cmd = .oscProcess o d ∧ 0 ≤ d) ∨ cmd = .oscReset o ∨ cmd = .oscEndFrame o))

/-- The refusal that R241 names for a command under a valid configuration. -/
def RefusalNamed (s : State) (cmd : Command) (r : Refusal) : Prop :=
  (r = .negativeDelta ∧ NegativeDelta cmd) ∨ (r = .valueOutOfRange ∧ TooWide cmd) ∨
    (r = .timestampBeforeNow ∧ BelowNow s cmd) ∨ (r = .mixedLevels ∧ PastPartitioner s cmd)

/-! ### What the decoder rejects -/

theorem decodeDelta_map_error_iff {d : Int} {f : Nat → Instr} {e : Rejection} :
    (decodeDelta d).map f = .error e ↔ e = .negativeDelta ∧ d < 0 := by
  cases d with
  | ofNat n => simp [decodeDelta, Except.map]
  | negSucc n => simp [decodeDelta, Except.map, Int.negSucc_lt_zero, eq_comm]

theorem decodeDelta_map_of_nonneg {d : Int} (hd : 0 ≤ d) (f : Nat → Instr) : ∃ i, (decodeDelta d).map f = .ok i := by
  obtain ⟨n, rfl⟩ := Int.eq_ofNat_of_zero_le hd
  exact ⟨f n, rfl⟩

/-- A check before decoding rejects exactly where it fails. -/
theorem checked_error_iff {p : Prop} [Decidable p] {i : Instr} {e e' : Rejection} :
    (if p then Except.ok i else .error e) = .error e' ↔ e' = e ∧ ¬ p := by
  split <;> simp [*, eq_comm]

/-- The decoder's two rejections are the two cases of R241 about operands. -/
theorem decode_error_iff {cfg : Config} {cmd : Command} {e : Rejection} :
    decode cfg cmd = .error e ↔ (e = .negativeDelta ∧ NegativeDelta cmd) ∨ (e = .valueOutOfRange ∧ TooWide cmd) := by
  cases cmd with
  | process | oscProcess =>
    rw [decode, decodeDelta_map_error_iff]
    simp [NegativeDelta, TooWide]
  | bus | partRead | oscWrite =>
    rw [decode, checked_error_iff]
    simp [NegativeDelta, TooWide]
  | partWrite =>
    rw [decode, checked_error_iff, not_and_or]
    simp [NegativeDelta, TooWide]
  | reset | endFrame | partEndFrame | partReset | oscReset | oscEndFrame =>
    simp [decode, NegativeDelta, TooWide]

/-! ### What an instruction of a command ends in -/

theorem exec_decodeBus (c : Chip) (w : BusWord) (s : State) : ∃ t, exec (decodeBus s.cfg c w) s = .next t := by
  unfold decodeBus
  split
  · exact ⟨_, exec_decodeWrite c _ _ s⟩
  · exact ⟨_, exec_decodeRead c _ s⟩

/-- A command before `now` has its operands in range, so its own instruction refuses it. -/
theorem refused_of_belowNow {s : State} {cmd : Command} (h : BelowNow s cmd) :
    ∃ i, decode s.cfg cmd = .ok i ∧ exec i s = .refused .timestampBeforeNow := by
  rcases h with ⟨c, t, a, v, rfl, ha, hv, ht⟩ | ⟨c, t, a, rfl, ha, ht⟩ | ⟨c, t, rfl, ht⟩
  · exact ⟨_, if_pos ⟨ha, hv⟩, if_pos ht⟩
  · exact ⟨_, if_pos ha, if_pos ht⟩
  · exact ⟨_, rfl, if_pos ht⟩

/-- A decoded instruction never faults, and the only one it refuses is a partitioner command before `now`. -/
theorem exec_cases_of_decode {s : State} {cmd : Command} {i : Instr} (hd : decode s.cfg cmd = .ok i) :
    (∃ t, exec i s = .next t) ∨ (BelowNow s cmd ∧ exec i s = .refused .timestampBeforeNow) := by
  cases cmd with
  | bus c w =>
    simp only [decode] at hd
    split at hd <;> cases hd
    exact .inl (exec_decodeBus c _ s)
  | process c d =>
    obtain ⟨n, -, rfl⟩ := of_decodeDelta_map hd
    exact .inl ⟨_, exec_processInstr c n s⟩
  | reset c =>
    cases hd
    exact .inl ⟨_, exec_resetInstr c s⟩
  | endFrame c =>
    cases hd
    exact .inl ⟨_, exec_endFrameInstr c s⟩
  | partWrite c t a v =>
    simp only [decode] at hd
    split at hd <;> cases hd
    rename_i hwidth
    obtain ⟨ha, hv⟩ := hwidth
    rcases Nat.lt_or_ge t (s.now c) with ht | ht
    · exact .inr ⟨.inl ⟨c, t, a, v, rfl, ha, hv, ht⟩, if_pos ht⟩
    · exact .inl ⟨_, Partitioner.exec_w_of_le ht _ _⟩
  | partRead c t a =>
    simp only [decode] at hd
    split at hd <;> cases hd
    rename_i ha
    rcases Nat.lt_or_ge t (s.now c) with ht | ht
    · exact .inr ⟨.inr (.inl ⟨c, t, a, rfl, ha, ht⟩), if_pos ht⟩
    · exact .inl ⟨_, Partitioner.exec_r_of_le ht _⟩
  | partEndFrame c t =>
    cases hd
    rcases Nat.lt_or_ge t (s.now c) with ht | ht
    · exact .inr ⟨.inr (.inr ⟨c, t, rfl, ht⟩), if_pos ht⟩
    · exact .inl ⟨_, Partitioner.exec_ef_of_le ht⟩
  | partReset c =>
    cases hd
    exact .inl ⟨_, rfl⟩
  | oscWrite o n v =>
    simp only [decode] at hd
    split at hd <;> cases hd
    exact .inl ⟨_, exec_oscWriteInstr o n _ s⟩
  | oscProcess o d =>
    obtain ⟨n, -, rfl⟩ := of_decodeDelta_map hd
    exact .inl ⟨_, exec_oscProcessInstr o n s⟩
  | oscReset o =>
    cases hd
    exact .inl ⟨_, exec_oscResetInstr o s⟩
  | oscEndFrame o =>
    cases hd
    exact .inl ⟨_, exec_oscEndFrameInstr o s⟩

/-! ### The interface levels -/

theorem partitionerLevel_iff (s : State) (c : Chip) :
    s.partitionerLevel c = true ↔ ∃ p ∈ s.program, isPartitionerCommand c p = true :=
  List.any_eq_true

/-- A partitioner command is none of those that mix the levels. -/
theorem mixesLevels_of_belowNow {s : State} {cmd : Command} (h : BelowNow s cmd) : s.mixesLevels cmd = false := by
  rcases h with ⟨c, t, a, v, rfl, -⟩ | ⟨c, t, a, rfl, -⟩ | ⟨c, t, rfl, -⟩ <;>
    simp [State.mixesLevels, actsPastPartitioner, actsOnLoneTime]

/-- The commands R125 shuts out are those that mix the levels and decode; only the sign of a delta is at stake in the latter. -/
theorem pastPartitioner_iff (s : State) (cmd : Command) :
    PastPartitioner s cmd ↔ s.mixesLevels cmd = true ∧ ∃ i, decode s.cfg cmd = .ok i := by
  simp only [mixesLevels_iff, partitionerLevel_iff, actsPastPartitioner_iff]
  constructor
  · rintro ⟨c, hlevel, ⟨d, rfl, hd⟩ | rfl | ⟨o, ho, ⟨d, rfl, hd⟩ | rfl | rfl⟩⟩
    · exact ⟨⟨c, hlevel, .inl ⟨d, rfl⟩⟩, decodeDelta_map_of_nonneg hd _⟩
    · exact ⟨⟨c, hlevel, .inr (.inl rfl)⟩, _, rfl⟩
    · exact ⟨⟨c, hlevel, .inr (.inr ⟨o, ho, .inl ⟨d, rfl⟩⟩)⟩, decodeDelta_map_of_nonneg hd _⟩
    · exact ⟨⟨c, hlevel, .inr (.inr ⟨o, ho, .inr (.inl rfl)⟩)⟩, _, rfl⟩
    · exact ⟨⟨c, hlevel, .inr (.inr ⟨o, ho, .inr (.inr rfl)⟩)⟩, _, rfl⟩
  · rintro ⟨⟨c, hlevel, ⟨d, rfl⟩ | rfl | ⟨o, ho, ⟨d, rfl⟩ | hother⟩⟩, i, hi⟩
    · obtain ⟨n, rfl, -⟩ := of_decodeDelta_map hi
      exact ⟨c, hlevel, .inl ⟨n, rfl, Int.natCast_nonneg n⟩⟩
    · exact ⟨c, hlevel, .inr (.inl rfl)⟩
    · obtain ⟨n, rfl, -⟩ := of_decodeDelta_map hi
      exact ⟨c, hlevel, .inr (.inr ⟨o, ho, .inl ⟨n, rfl, Int.natCast_nonneg n⟩⟩)⟩
    · exact ⟨c, hlevel, .inr (.inr ⟨o, ho, .inr hother⟩)⟩

/-! ### Performing a command -/

theorem perform_of_error {s : State} {cmd : Command} {e : Rejection} (hd : decode s.cfg cmd = .error e) :
    perform cmd s = .refused (refusalOf e) := by
  rw [perform, hd]

theorem perform_of_ok {s : State} {cmd : Command} {i : Instr} (hd : decode s.cfg cmd = .ok i) :
    perform cmd s = if s.mixesLevels cmd then .refused .mixedLevels else advanceResult (exec i s) := by
  rw [perform, hd]

/-- In each case that R241 names the command is refused, and by that name. -/
theorem perform_of_refusalNamed {s : State} {cmd : Command} {r : Refusal} (h : RefusalNamed s cmd r) :
    perform cmd s = .refused r := by
  rcases h with ⟨rfl, hneg⟩ | ⟨rfl, hwide⟩ | ⟨rfl, hbelow⟩ | ⟨rfl, hpast⟩
  · exact perform_of_error (decode_error_iff.2 (.inl ⟨rfl, hneg⟩))
  · exact perform_of_error (decode_error_iff.2 (.inr ⟨rfl, hwide⟩))
  · obtain ⟨i, hd, he⟩ := refused_of_belowNow hbelow
    rw [perform_of_ok hd, mixesLevels_of_belowNow hbelow, he]
    rfl
  · obtain ⟨hmix, i, hd⟩ := (pastPartitioner_iff s cmd).1 hpast
    rw [perform_of_ok hd, if_pos hmix]

/-- Every outcome of a command: a next state, or a refusal that R241 names. -/
theorem perform_cases (cmd : Command) (s : State) :
    (∃ t, perform cmd s = .next t) ∨ ∃ r, RefusalNamed s cmd r ∧ perform cmd s = .refused r := by
  have named {r : Refusal} (h : RefusalNamed s cmd r) : ∃ r, RefusalNamed s cmd r ∧ perform cmd s = .refused r :=
    ⟨r, h, perform_of_refusalNamed h⟩
  cases hd : decode s.cfg cmd with
  | error e =>
    rcases decode_error_iff.1 hd with ⟨-, hneg⟩ | ⟨-, hwide⟩
    · exact .inr (named (.inl ⟨rfl, hneg⟩))
    · exact .inr (named (.inr (.inl ⟨rfl, hwide⟩)))
  | ok i =>
    cases hmix : s.mixesLevels cmd with
    | true => exact .inr (named (.inr (.inr (.inr ⟨rfl, (pastPartitioner_iff s cmd).2 ⟨hmix, i, hd⟩⟩))))
    | false =>
      rcases exec_cases_of_decode hd with ⟨t, he⟩ | ⟨hbelow, -⟩
      · refine .inl ⟨t.advance, ?_⟩
        rw [perform_of_ok hd, hmix, he]
        rfl
      · exact .inr (named (.inr (.inr (.inl ⟨rfl, hbelow⟩))))

theorem perform_refused_iff (cmd : Command) (s : State) (r : Refusal) :
    perform cmd s = .refused r ↔ RefusalNamed s cmd r := by
  refine ⟨fun h => ?_, perform_of_refusalNamed⟩
  rcases perform_cases cmd s with ⟨t, ht⟩ | ⟨r', hnamed, hr'⟩
  · cases ht.symm.trans h
  · cases hr'.symm.trans h
    exact hnamed

theorem perform_ne_fault (cmd : Command) (s : State) (r : Fault) : perform cmd s ≠ .fault r := by
  rcases perform_cases cmd s with ⟨t, ht⟩ | ⟨r', -, hr'⟩
  · simp [ht]
  · simp [hr']

/-! ### The step -/

theorem step_of_badConfiguration {s : State} (hv : validConfig s.cfg = false) : step s = .refused .badConfiguration := by
  simp [step, hv]

theorem step_of_noCommand {s : State} (hv : validConfig s.cfg = true) (hc : s.program[s.pos]? = none) :
    step s = .next s := by
  simp [step, hv, fetch, hc]

/-- A bad configuration is refused at once, and otherwise the step is refused as its command is. -/
theorem step_refused_iff (s : State) (r : Refusal) :
    step s = .refused r ↔ (validConfig s.cfg = false ∧ r = .badConfiguration) ∨
      (validConfig s.cfg = true ∧ ∃ cmd, s.program[s.pos]? = some cmd ∧ RefusalNamed s cmd r) := by
  cases hv : validConfig s.cfg with
  | false => simp [step_of_badConfiguration hv, eq_comm]
  | true =>
    cases hc : s.program[s.pos]? with
    | none => simp [step_of_noCommand hv hc]
    | some cmd => simp [step_of_command hv hc, perform_refused_iff]

/-- Settles O42: the cases of `RefusalNamed`, written out, are those of R241. -/
theorem refusedExactlyByName : Obligations.RefusedExactlyByName :=
  step_refused_iff

/-- Settles O43: no command faults, since every decoded index of the memory is a byte of it. -/
theorem stepNeverFaults : Obligations.StepNeverFaults := by
  intro s r
  cases hv : validConfig s.cfg with
  | false => simp [step_of_badConfiguration hv]
  | true =>
    cases hc : s.program[s.pos]? with
    | none => simp [step_of_noCommand hv hc]
    | some cmd =>
      rw [step_of_command hv hc]
      exact perform_ne_fault cmd s r

end Sys2Proof.Proofs.Refusals
end

/-! ## The level the sink holds (10_state.md R39, 70_reset_and_hazards.md R268) -/

section
namespace Sys2Proof.Proofs.HeldLevel

open Sys2Proof.Machine
open Sys2Proof.Proofs.RegisterWrites (gained_writeCtrl)
open Sys2Proof.Proofs.Instructions (sink_chipReset sink_loneReset)
open Sys2Proof.Proofs.ChipCalls (exec_of_reset_or_rst)

/-- The last level of a trace is that of its later part, where that part has one. -/
theorem lastLevel_append (l l' : List Record) : lastLevel (l ++ l') = (lastLevel l').or (lastLevel l) := by
  induction l with
  | nil => exact Option.or_none.symm
  | cons r l ih =>
    cases r with
    | level ch level time =>
      rw [List.cons_append, lastLevel, lastLevel, ih]
      cases lastLevel l' <;> rfl
    | frameEnd ch time => exact ih

/-- The sink holds the last level a channel gained, or else the one it held before. -/
theorem heldLevel_of_gained {ch : Nat} {new : List Record} {s t : State} (h : Gained ch new s t) :
    t.heldLevel ch = (lastLevel new).or (s.heldLevel ch) := by
  rw [State.heldLevel, h, lastLevel_append, State.heldLevel]

theorem heldLevel_of_sink_eq {s t : State} (h : t.sink = s.sink) (ch : Nat) : t.heldLevel ch = s.heldLevel ch :=
  congrArg lastLevel (channelTrace_congr h ch)

/-- A CTRL write with gate 0 emits nothing (41_pulse.md R130), so it leaves every held level. -/
theorem heldLevel_writeCtrl_of_lt {v : Byte} (hv : v.toNat < 128) (k : PulseId) (s : State) (ch : Nat) :
    (writeCtrl k v s).heldLevel ch = s.heldLevel ch := by
  rw [heldLevel_of_gained (gained_writeCtrl k v s ch), if_neg fun h => Nat.not_le.2 hv h.1]
  rfl

/-- A CTRL write with gate 1 makes the pulse's held level the volume written (41_pulse.md R130). -/
theorem heldLevel_writeCtrl_of_le {v : Byte} (hv : 128 ≤ v.toNat) (k : PulseId) (s : State) :
    (writeCtrl k v s).heldLevel (s.pulse k).ch = some (v.toNat % 16) := by
  rw [heldLevel_of_gained (gained_writeCtrl k v s _), if_pos ⟨hv, rfl⟩]
  rfl

/-- A chip's reset, by either of its two commands, emits nothing. -/
theorem heldLevel_of_chipReset {c : Chip} {i : Instr} (hi : i = resetInstr c ∨ i = .rst c) {s t : State}
    (h : exec i s = .next t) (ch : Nat) : t.heldLevel ch = s.heldLevel ch := by
  cases (exec_of_reset_or_rst hi s).symm.trans h
  exact heldLevel_of_sink_eq ((State.setNow_sink _ c 0).trans (sink_chipReset c s)) ch

/-- Settles O59: frequency writes, resets and CTRL writes with gate 0 emit nothing, and 0x80 has gate 1 and volume 0. -/
theorem silenceMustBeWritten : Obligations.SilenceMustBeWritten := by
  intro o c k v s t
  refine ⟨fun h ch => ?kept, fun h => ?silenced⟩
  case kept =>
    rcases h with hfreqHi | hfreqLo | hoscReset | hreset | hrst | ⟨hgate, hctrl⟩
    · cases (exec_freqHiInstr o v s).symm.trans hfreqHi
      exact heldLevel_of_sink_eq (State.setChannel_sink s o _) ch
    · cases (exec_freqLoInstr o v s).symm.trans hfreqLo
      exact heldLevel_of_sink_eq (State.setChannel_sink s o _) ch
    · cases (exec_oscResetInstr o s).symm.trans hoscReset
      exact heldLevel_of_sink_eq (sink_loneReset o s) ch
    · exact heldLevel_of_chipReset (.inl rfl) hreset ch
    · exact heldLevel_of_chipReset (.inr rfl) hrst ch
    · cases (exec_pulseCtrlInstr k v s).symm.trans hctrl
      exact heldLevel_writeCtrl_of_lt hgate k s ch
  case silenced =>
    cases (exec_pulseCtrlInstr k 0x80 s).symm.trans h
    exact heldLevel_writeCtrl_of_le (v := 0x80) (by decide) k s

end Sys2Proof.Proofs.HeldLevel
end
